-- ==== Sys2Proof/Word.lean ====
section
/-! DEFINITION. The word types of the block: bytes, triplets and the fixed-width signals of the
command port (00_scope.md section 6; 10_state.md R42, R43). -/

namespace Sys2Proof

/-- A byte, also a character code: 8 bits (00_scope.md section 6, R7). -/
abbrev Byte := BitVec 8

/-- The 24-bit value of a window; bit 23 is the most significant bit of byte 0
(00_scope.md section 6, R20). -/
abbrev Triplet := BitVec 24

/-- The command word `CW` (R70). -/
abbrev CommandWord := BitVec 16

/-- The data operand `OPD` and the scalar result `RSP.val` (R42, R43). -/
abbrev DataWord := BitVec 64

end Sys2Proof
end

