-- ==== Sys2Proof/Config.lean ====
section
/-! DEFINITION. What an implementation fixes: the open parameters of 00_scope.md R5 and R6, and the
one value that no rule states. -/

namespace Sys2Proof

/-- The two values of the strap `HOST_ENDIAN` (R5): how the host lays an element out in memory. -/
inductive Endian where
  | little
  | big
  deriving DecidableEq, Repr

/-- The parameters the model takes as arguments (00_scope.md R5, R6). They are constant for the life
of a block, so a state carries them and no step changes them. -/
structure Params where
  /-- `HOST_ENDIAN`, the strap of R5 and R35. -/
  hostEndian : Endian
  /-- `ADDR_BITS`, the width of an input address (R6). -/
  addrBits   : Nat
  /-- `CNT_BITS`, the width of an element count, of the cursor and of an output position (R6). -/
  cntBits    : Nat
  deriving DecidableEq, Repr

/-- Both widths are positive integers (the parameter table of 00_scope.md section 4). -/
abbrev Params.wf (p : Params) : Prop := 0 < p.addrBits ∧ 0 < p.cntBits

/-- The parameters of the state after reset: `ADDR_BITS = CNT_BITS = 64`, the spec's defaults (R6).
DESIGN CHOICE (log entry 1): the spec gives `HOST_ENDIAN` no default and the model starts at
`little`. -/
def Params.standard : Params := { hostEndian := .little, addrBits := 64, cntBits := 64 }

/-- FREE VALUE, DESIGN CHOICE (log entry 2). What `RSP.val` shows for an output length that does not
fit its 64 bits: possible only with `CNT_BITS > 64` (R6), and no rule states it (R42 makes `RSP.val`
64 bits wide, R156 answers with `OBLEN`). -/
opaque Config.lengthAbove64 : Nat → DataWord

end Sys2Proof
end

