-- ==== Sys2Proof/Syntax.lean ====
section
/-! DEFINITION. The 14 commands of the block (30_encoding.md R72), as the host presents them on the
port (R43) and as decoded instructions, and the pseudo-commands of R80. -/

namespace Sys2Proof

/-- One command as the host presents it on the command port: the command word and the operand signals
(R43, R70). `opa` is `ADDR_BITS` wide and `opc` is `CNT_BITS` wide; the widths are parameters, so the
signals are naturals and `decode` reads as many low bits as there are wires. -/
structure Command where
  cw  : CommandWord
  opd : DataWord
  opa : Nat
  opc : Nat
  deriving DecidableEq, Repr

/-- One constructor per row of the opcode map (R72), with the operands the row uses (R74 to R76).
`w` is the width field as it stands in the word, a plain number 0 to 15; `n`, `i`, `g` and `c` are the
field `k`; `opd` is the whole data operand, of which the meaning takes the bits R76 lists. -/
inductive Instr where
  /-- BON.NORM w, v (R91). -/
  | bonNorm (w : BitVec 4) (opd : DataWord)
  /-- BON.DENORM w, v (R92). -/
  | bonDenorm (w : BitVec 4) (opd : DataWord)
  /-- TA.NEW (R100). -/
  | taNew
  /-- TA.LOAD n, d (R101). -/
  | taLoad (n : BitVec 2) (opd : DataWord)
  /-- TA.VALID i (R102). -/
  | taValid (i : BitVec 2)
  /-- TA.X6 g (R103), the triplet_unpacker. -/
  | taX6 (g : BitVec 2)
  /-- TA.ENC g (R107), the base64_char_mapper. -/
  | taEnc (g : BitVec 2)
  /-- TA.ENCP g (R108), the mapper with padding. -/
  | taEncp (g : BitVec 2)
  /-- WCA.NEW w (R120). -/
  | wcaNew (w : BitVec 4)
  /-- WCA.LOAD v (R122). -/
  | wcaLoad (opd : DataWord)
  /-- WCA.FLUSH (R124). -/
  | wcaFlush
  /-- W2.NEW (R140). -/
  | w2New
  /-- W2.LOAD c, e0, e1 (R141). -/
  | w2Load (c : BitVec 2) (opd : DataWord)
  /-- B64.RUN w, addr, count (R150). -/
  | b64Run (w : BitVec 4) (opa opc : Nat)
  deriving DecidableEq, Repr

/-- The pseudo-commands of R80. -/
inductive Pseudo where
  /-- `TA.ENC4`: the four characters of the loaded window. -/
  | taEnc4
  /-- `TA.ENCP4`: the same with padding. -/
  | taEncp4
  /-- `TA.LOADW (d, n)`: load a window taken from a response. -/
  | taLoadw (d : Triplet) (n : BitVec 2)
  /-- `W2.FLUSH`: the W2 terminal flush. -/
  | w2Flush
  deriving DecidableEq, Repr

end Sys2Proof
end

