-- ==== Sys2Proof/WellFormed.lean ====
section
/-! DEFINITION. Which instructions can be presented on the port at all (`Instr.wellFormed`: every
operand fits its signal, R43), and which have their small operands in the legal range of R74 and R75
(`Instr.legal`). An instruction outside `legal` can be presented and takes the fault the spec names. -/

namespace Sys2Proof

/-- Every operand fits its signal (R43). The fields of the command word and `OPD` fit by their types;
the address and the count of B64.RUN fit `ADDR_BITS` and `CNT_BITS`. -/
def Instr.wellFormed (p : Params) : Instr → Bool
  | .b64Run _ opa opc => decide (opa < 2 ^ p.addrBits) && decide (opc < 2 ^ p.cntBits)
  | .bonNorm _ _ => true
  | .bonDenorm _ _ => true
  | .taNew => true
  | .taLoad _ _ => true
  | .taValid _ => true
  | .taX6 _ => true
  | .taEnc _ => true
  | .taEncp _ => true
  | .wcaNew _ => true
  | .wcaLoad _ => true
  | .wcaFlush => true
  | .w2New => true
  | .w2Load _ _ => true

/-- The small operands are in the range R74 (the width) and R75 (the element count of W2.LOAD) call
legal. -/
def Instr.legal : Instr → Bool
  | .bonNorm w _ => [1, 2, 4, 8].contains w
  | .bonDenorm w _ => [1, 2, 4, 8].contains w
  | .wcaNew w => [2, 4, 8].contains w
  | .b64Run w _ _ => [1, 2, 4, 8].contains w
  | .w2Load c _ => [0, 1, 2].contains c
  | .taNew => true
  | .taLoad _ _ => true
  | .taValid _ => true
  | .taX6 _ => true
  | .taEnc _ => true
  | .taEncp _ => true
  | .wcaLoad _ => true
  | .wcaFlush => true
  | .w2New => true

end Sys2Proof
end

