-- ==== Sys2Proof/Decode.lean ====
section
/-! DEFINITION. From a presented command to an instruction, rejecting by name, and back
(30_encoding.md R70 to R80). -/

namespace Sys2Proof

/-! ### The fields of the command word (R70) -/

def cwOpcode (cw : CommandWord) : BitVec 8 := cw.extractLsb' 8 8
def cwWidth (cw : CommandWord) : BitVec 4 := cw.extractLsb' 4 4
def cwReserved (cw : CommandWord) : BitVec 2 := cw.extractLsb' 2 2
def cwSmall (cw : CommandWord) : BitVec 2 := cw.extractLsb' 0 2

/-- The operations of the opcode map (R72). -/
inductive Opcode where
  | bonNorm | bonDenorm
  | taNew | taLoad | taValid | taX6 | taEnc | taEncp
  | wcaNew | wcaLoad | wcaFlush
  | w2New | w2Load
  | b64Run
  deriving DecidableEq, Repr

/-- Why a command word selects no row of the map: the four cases of R77. All four raise the block's
fault `ILLEGAL` (R173). -/
inductive DecodeError where
  /-- R77 (a): the opcode is not one of the 14. -/
  | unknownOpcode
  /-- R77 (b): the field `rsv` is not 0. -/
  | reservedBits
  /-- R77 (c): the command does not use `w` and `w` is not 0. -/
  | unusedWidth
  /-- R77 (d): the command does not use `k` and `k` is not 0. -/
  | unusedSmall
  deriving DecidableEq, Repr

/-- The column "opcode" of R72, read from the word. -/
def opcodeOf (b : BitVec 8) : Option Opcode :=
  match b with
  | 0x10#8 => some .bonNorm
  | 0x11#8 => some .bonDenorm
  | 0x20#8 => some .taNew
  | 0x21#8 => some .taLoad
  | 0x22#8 => some .taValid
  | 0x23#8 => some .taX6
  | 0x24#8 => some .taEnc
  | 0x25#8 => some .taEncp
  | 0x30#8 => some .wcaNew
  | 0x31#8 => some .wcaLoad
  | 0x32#8 => some .wcaFlush
  | 0x40#8 => some .w2New
  | 0x41#8 => some .w2Load
  | 0x50#8 => some .b64Run
  | _ => none

/-- The column "uses w" of R72. -/
def usesWidth : Opcode → Bool
  | .bonNorm | .bonDenorm | .wcaNew | .b64Run => true
  | .taNew | .taLoad | .taValid | .taX6 | .taEnc | .taEncp => false
  | .wcaLoad | .wcaFlush | .w2New | .w2Load => false

/-- The column "uses k" of R72. -/
def usesSmall : Opcode → Bool
  | .taLoad | .taValid | .taX6 | .taEnc | .taEncp | .w2Load => true
  | .bonNorm | .bonDenorm | .taNew | .wcaNew | .wcaLoad | .wcaFlush | .w2New | .b64Run => false

/-- The address operand: the signal has `ADDR_BITS` wires (R43); see log entry 9. -/
def opaSignal (p : Params) (c : Command) : Nat := c.opa % 2 ^ p.addrBits

/-- The count operand: the signal has `CNT_BITS` wires (R43); see log entry 9. -/
def opcSignal (p : Params) (c : Command) : Nat := c.opc % 2 ^ p.cntBits

/-- The instruction of a word whose row is known, with the operands R74 to R76 give that row. -/
def instrOf (p : Params) (c : Command) : Opcode → Instr
  | .bonNorm => .bonNorm (cwWidth c.cw) c.opd
  | .bonDenorm => .bonDenorm (cwWidth c.cw) c.opd
  | .taNew => .taNew
  | .taLoad => .taLoad (cwSmall c.cw) c.opd
  | .taValid => .taValid (cwSmall c.cw)
  | .taX6 => .taX6 (cwSmall c.cw)
  | .taEnc => .taEnc (cwSmall c.cw)
  | .taEncp => .taEncp (cwSmall c.cw)
  | .wcaNew => .wcaNew (cwWidth c.cw)
  | .wcaLoad => .wcaLoad c.opd
  | .wcaFlush => .wcaFlush
  | .w2New => .w2New
  | .w2Load => .w2Load (cwSmall c.cw) c.opd
  | .b64Run => .b64Run (cwWidth c.cw) (opaSignal p c) (opcSignal p c)

/-- The decoder (R72, R77): total on every command, rejecting by name. The legality of `w` and `k`
inside a row is the command's own check (R78), not the decoder's. -/
def decode (p : Params) (c : Command) : Except DecodeError Instr :=
  match opcodeOf (cwOpcode c.cw) with
  | none => .error .unknownOpcode
  | some op =>
    if cwReserved c.cw ≠ 0#2 then .error .reservedBits
    else if usesWidth op = false ∧ cwWidth c.cw ≠ 0#4 then .error .unusedWidth
    else if usesSmall op = false ∧ cwSmall c.cw ≠ 0#2 then .error .unusedSmall
    else .ok (instrOf p c op)

/-! ### The encoder (R70, R72, R79) -/

/-- Format C (R70): opcode, width, two reserved zero bits, small operand. -/
def commandWord (op : BitVec 8) (w : BitVec 4) (k : BitVec 2) : CommandWord :=
  op ++ w ++ 0#2 ++ k

/-- The command a host presents for an instruction (R79). Signals a command does not use are driven
to 0. -/
def encode : Instr → Command
  | .bonNorm w opd => ⟨commandWord 0x10 w 0, opd, 0, 0⟩
  | .bonDenorm w opd => ⟨commandWord 0x11 w 0, opd, 0, 0⟩
  | .taNew => ⟨commandWord 0x20 0 0, 0, 0, 0⟩
  | .taLoad n opd => ⟨commandWord 0x21 0 n, opd, 0, 0⟩
  | .taValid i => ⟨commandWord 0x22 0 i, 0, 0, 0⟩
  | .taX6 g => ⟨commandWord 0x23 0 g, 0, 0, 0⟩
  | .taEnc g => ⟨commandWord 0x24 0 g, 0, 0, 0⟩
  | .taEncp g => ⟨commandWord 0x25 0 g, 0, 0, 0⟩
  | .wcaNew w => ⟨commandWord 0x30 w 0, 0, 0, 0⟩
  | .wcaLoad opd => ⟨commandWord 0x31 0 0, opd, 0, 0⟩
  | .wcaFlush => ⟨commandWord 0x32 0 0, 0, 0, 0⟩
  | .w2New => ⟨commandWord 0x40 0 0, 0, 0, 0⟩
  | .w2Load c opd => ⟨commandWord 0x41 0 c, opd, 0, 0⟩
  | .b64Run w opa opc => ⟨commandWord 0x50 w 0, 0, opa, opc⟩

/-! ### The written forms of R79 whose operand is put together, and the pseudo-commands of R80 -/

/-- `TA.LOAD n, d` with the 24-bit window value `d` (R79). -/
def asmTaLoad (n : BitVec 2) (d : Triplet) : Instr := .taLoad n (d.setWidth 64)

/-- `W2.LOAD c, e0, e1`: `OPD = e1<<16 | e0` (R79). -/
def asmW2Load (c : BitVec 2) (e0 e1 : BitVec 16) : Instr :=
  .w2Load c ((e1.setWidth 64 <<< 16) ||| e0.setWidth 64)

/-- The expansions of R80; the block sees the expansion only. -/
def expand : Pseudo → List Instr
  | .taEnc4 => [.taEnc 0, .taEnc 1, .taEnc 2, .taEnc 3]
  | .taEncp4 => [.taEncp 0, .taEncp 1, .taEncp 2, .taEncp 3]
  | .taLoadw d n => [asmTaLoad n d]
  | .w2Flush => [asmW2Load 0 0 0]

/-! ### The opcode table's words -/

/-- The command the opcode table's bits stand for: the word is the low 16 bits, and every operand
signal, which the table gives no bits, is 0 (log entry 8). -/
def tableCommand (nbits w : Nat) : Command := ⟨BitVec.ofNat 16 (w % 2 ^ nbits), 0, 0, 0⟩

/-- The instruction the decoder reads from a table word. Every command is one 16-bit word (R70, R71),
so a value with more bits is no command. The operands are 0, so the parameters do not matter. -/
def decodeTableWord (nbits w : Nat) : Option Instr :=
  if w % 2 ^ nbits < 2 ^ 16 then (decode Params.standard (tableCommand nbits w)).toOption else none

end Sys2Proof
end

