-- ==== Sys2Proof/Machine/State.lean ====
section
/-! DEFINITION. The state of the block as plain data (10_state.md), the host's side of the port that a
run needs (the input memory, the events the host will present, the output signals), the state after
reset, and the reasons a step can stop. -/

namespace Sys2Proof.Machine

/-- Why a step can stop. No command does (R9): the block's own faults are states, not stops. -/
inductive Fault where
  /-- Raised by `step` on a host event that writes an input address outside `0 .. 2^ADDR_BITS - 1`,
  which R50 says does not exist (log entry 12). Safe: no host can present it. -/
  | noSuchAddress
  deriving DecidableEq, Repr

/-- Why a step can be refused. -/
inductive Refusal where
  /-- Raised by an arm of `exec` whose instruction has no meaning yet; no arm does. Safe. -/
  | notModelled (mnemonic : String)
  deriving DecidableEq, Repr

/-- The seven causes of the block's fault (60_exceptions.md R171). -/
inductive Cause where
  /-- The command word selects no row of the opcode map (R173). -/
  | illegal
  /-- The field `w` is not a legal width for the command (R174). -/
  | width
  /-- W2.LOAD with `c = 3` (R178). -/
  | operand
  /-- WCA.LOAD or WCA.FLUSH with `WCA.WSEL = 0` (R179). -/
  | noinst
  /-- B64.RUN with a null pointer and a non-zero count (R175). -/
  | null
  /-- B64.RUN whose byte count, output length or end address does not fit (R176). -/
  | size
  /-- B64.RUN over a byte that is not readable (R177). -/
  | access
  deriving DecidableEq, Repr

/-- The triplet accumulator (R20, R21). -/
structure TA where
  /-- `TA.data`: byte 0 of the window in bits 23:16, byte 1 in 15:8, byte 2 in 7:0 (R20). -/
  data  : Triplet
  /-- `TA.valid`: how many leading bytes are data (R21). -/
  valid : BitVec 2
  deriving DecidableEq, Repr

/-- The word carry accumulator (R24 to R28). -/
structure WCA where
  /-- `WCA.WSEL`: the element byte width of the instance, 0 for no instance (R24). -/
  wsel : BitVec 4
  /-- `WCA.sv`: the value currently being packed; no command reads it (R25). -/
  sv   : Vector Byte 8
  /-- `WCA.rb`: the carried bytes, the earlier first (R26). -/
  rb   : Vector Byte 2
  /-- `WCA.rem`: how many bytes of `rb` are data (R27). -/
  rem  : BitVec 2
  /-- `WCA.vbc`: how many bytes of `sv` are meaningful; no command reads it (R28). -/
  vbc  : BitVec 4
  deriving DecidableEq, Repr

/-- The width-2 specialization (R30, R31). -/
structure W2 where
  /-- `W2.first`: a buffered element as its native value (R30). -/
  first  : BitVec 16
  /-- `W2.second`: the other one; its low byte is the leftover while `has` is set (R30). -/
  second : BitVec 16
  /-- `W2.has`: the low byte of `second` is an uncommitted leftover (R31). -/
  has    : Bool
  deriving DecidableEq, Repr

/-- The sequencer and the output buffer (R36, R38 to R41). -/
structure SD where
  /-- `SD.W`: the element byte width of the last run (R36). -/
  w     : BitVec 4
  /-- `SD.DATA`: its input address, `ADDR_BITS` wide (R36). -/
  data  : Nat
  /-- `SD.COUNT`: its element count, `CNT_BITS` wide (R36). -/
  count : Nat
  /-- `CUR`: the index of the next element, `CNT_BITS` wide (R38). -/
  cur   : Nat
  /-- `OPOS`: the index in OB of the next character, `CNT_BITS` wide (R39). -/
  opos  : Nat
  /-- `OBLEN`: the length of OB, `CNT_BITS` wide (R40). -/
  oblen : Nat
  /-- `OB`: the output buffer (R41, R55). -/
  ob    : List Byte
  deriving DecidableEq, Repr

/-- The output signals of the port (R42). -/
structure Response where
  fault    : Bool
  cause    : BitVec 3
  val      : DataWord
  nwin     : BitVec 2
  win0     : Triplet
  win1     : Triplet
  win2     : Triplet
  wv0      : BitVec 2
  wv1      : BitVec 2
  wv2      : BitVec 2
  consumed : BitVec 2
  deriving DecidableEq, Repr

/-- Every signal 0: what a command answers on the signals its rule does not mention (R42). -/
def Response.quiet : Response :=
  { fault := false, cause := 0, val := 0, nwin := 0, win0 := 0, win1 := 0, win2 := 0,
    wv0 := 0, wv1 := 0, wv2 := 0, consumed := 0 }

/-- The input space IN (R50): the readable bytes and their values, addresses strictly rising. A byte
that is not listed is not readable (R51; log entry 3). -/
abbrev Memory := List Host.Cell

/-- What the host does between commands (00_scope.md R10): present a command, reset the block (R190),
or change a byte of the input memory it owns. `none` makes the byte unreadable (R51). -/
inductive HostEvent where
  | command (c : Command)
  | reset
  | write (addr : Nat) (value : Option Byte)
  deriving DecidableEq, Repr

/-- The state of the block and of its port. -/
structure State where
  /-- The strap `HOST_ENDIAN` and the widths `ADDR_BITS`, `CNT_BITS` (R5, R6, R35; log entry 10). -/
  params  : Params
  ta      : TA
  wca     : WCA
  w2      : W2
  sd      : SD
  /-- `FAULT` (R33). -/
  fault   : Bool
  /-- `CAUSE` (R34). -/
  cause   : BitVec 3
  /-- The input space, the host's (R50, R51). The block never writes it. -/
  mem     : Memory
  /-- The model's own: what the host will do next, the earliest first (R8, R10; log entry 4). -/
  pending : List HostEvent
  /-- The model's own: the output signals after the last command (R42). No command reads them. -/
  rsp     : Response
  deriving DecidableEq, Repr

/-! ### The fresh units and the state after reset (R46, R190) -/

/-- A fresh TA (R46, R100). -/
def TA.fresh : TA := { data := 0, valid := 0 }

/-- No WCA instance: the reset values of R46. -/
def WCA.absent : WCA :=
  { wsel := 0, sv := #v[0, 0, 0, 0, 0, 0, 0, 0], rb := #v[0, 0], rem := 0, vbc := 0 }

/-- A fresh W2 (R46, R140). -/
def W2.fresh : W2 := { first := 0, second := 0, has := false }

/-- The sequencer after reset (R46). -/
def SD.idle : SD := { w := 0, data := 0, count := 0, cur := 0, opos := 0, oblen := 0, ob := [] }

/-- The state after reset of a block with parameters `p` (R46, R190): every register 0, OB empty, the
strap as it was. The host has presented nothing and has made nothing readable (log entries 3, 4, 5). -/
def State.resetOf (p : Params) : State :=
  { params := p, ta := TA.fresh, wca := WCA.absent, w2 := W2.fresh, sd := SD.idle,
    fault := false, cause := 0, mem := [], pending := [], rsp := Response.quiet }

/-- The state after reset of a block with the standard parameters. -/
def State.reset : State := State.resetOf Params.standard

/-! ### One named update per field -/

def State.setTa (s : State) (x : TA) : State := { s with ta := x }
def State.setWca (s : State) (x : WCA) : State := { s with wca := x }
def State.setW2 (s : State) (x : W2) : State := { s with w2 := x }
def State.setSd (s : State) (x : SD) : State := { s with sd := x }
def State.setFault (s : State) (b : Bool) (c : BitVec 3) : State := { s with fault := b, cause := c }
def State.setMem (s : State) (m : Memory) : State := { s with mem := m }
def State.setPending (s : State) (l : List HostEvent) : State := { s with pending := l }
def State.setRsp (s : State) (r : Response) : State := { s with rsp := r }

end Sys2Proof.Machine
end

