-- ==== Sys2Proof/Machine/Bytes.lean ====
section
/-! DEFINITION. Byte order and packing: the functions of 00_scope.md section 6 and
40_byte_order_normalizer.md R90, R93 that many rules use. -/

namespace Sys2Proof.Machine

/-- `byte(v, W, k)`: byte `k` of the `W`-byte value `v`, counted from the most significant
(00_scope.md section 6). -/
def byteOf (v W k : Nat) : Byte := BitVec.ofNat 8 (v >>> (8 * (W - 1 - k)))

/-- `BON(v, W)`: the `W` bytes of `v`, most significant first (R90). -/
def bon (v W : Nat) : List Byte := (List.range W).map (byteOf v W)

/-- `DEN(b, W) = sum over k of b[k] << (8*(W-1-k))` with `W` the length of `b` (R93 (b)). -/
def den : List Byte → Nat
  | [] => 0
  | b :: bs => (b.toNat <<< (8 * bs.length)) + den bs

/-- The little-endian reading of bytes in memory order: `sum over k of M[k] << (8*k)` (R52). -/
def denLittle : List Byte → Nat
  | [] => 0
  | b :: bs => b.toNat + (denLittle bs <<< 8)

/-- The native integer held by bytes in memory order (R52). -/
def nativeValue (e : Endian) (m : List Byte) : Nat :=
  match e with
  | .little => denLittle m
  | .big => den m

/-- `pack3(s)`: up to three bytes left-justified in 24 bits, the rest zero (00_scope.md section 6). -/
def pack3 (s : List Byte) : Triplet :=
  ((s.getD 0 0).setWidth 24 <<< 16) ||| ((s.getD 1 0).setWidth 24 <<< 8) ||| (s.getD 2 0).setWidth 24

/-- `s` "followed by zero bytes up to 2 bytes" (R122). -/
def padTo2 (s : List Byte) : Vector Byte 2 := #v[s.getD 0 0, s.getD 1 0]

/-- `s` "followed by zero bytes up to 8 bytes" (R122). -/
def padTo8 (s : List Byte) : Vector Byte 8 :=
  #v[s.getD 0 0, s.getD 1 0, s.getD 2 0, s.getD 3 0, s.getD 4 0, s.getD 5 0, s.getD 6 0, s.getD 7 0]

/-- `hi(x)` of a 16-bit element (43_width2_specialization.md, head). -/
def hiByte (x : BitVec 16) : Byte := x.extractLsb' 8 8

/-- `lo(x)` of a 16-bit element. -/
def loByte (x : BitVec 16) : Byte := x.extractLsb' 0 8

end Sys2Proof.Machine
end

