-- ==== Sys2Proof/Machine/Operands.lean ====
section
/-! DEFINITION. The operands of the commands: the checks of 30_encoding.md R74, R75 and the layouts of
the data operand of R76. Bits of `OPD` that a layout does not list are not looked at (R202). -/

namespace Sys2Proof.Machine

/-- The legal widths of BON.NORM, BON.DENORM and B64.RUN (R74). -/
def legalWidth (w : BitVec 4) : Bool := w == 1 || w == 2 || w == 4 || w == 8

/-- The legal widths of WCA.NEW (R74). -/
def legalCarryWidth (w : BitVec 4) : Bool := w == 2 || w == 4 || w == 8

/-- The legal element counts of W2.LOAD (R75). -/
def legalCount (c : BitVec 2) : Bool := c != 3

/-- `OPD[8w-1:0]` as an unsigned number (R76: BON.NORM, WCA.LOAD). -/
def opdElement (opd : DataWord) (w : Nat) : Nat := opd.toNat % 2 ^ (8 * w)

/-- Byte `k` of the sequence BON.DENORM takes: `b[k] = OPD[8(w-k)-1 : 8(w-1-k)]` (R92). -/
def opdByte (opd : DataWord) (w k : Nat) : Byte := opd.extractLsb' (8 * (w - 1 - k)) 8

/-- The whole sequence of BON.DENORM (R76). -/
def opdBytes (opd : DataWord) (w : Nat) : List Byte := (List.range w).map (opdByte opd w)

/-- The window bytes of TA.LOAD: `OPD[23:16]`, `OPD[15:8]`, `OPD[7:0]` (R76). -/
def opdWindow (opd : DataWord) : List Byte :=
  [opd.extractLsb' 16 8, opd.extractLsb' 8 8, opd.extractLsb' 0 8]

/-- `E0 = OPD[15:0]` of W2.LOAD (R76). -/
def opdE0 (opd : DataWord) : BitVec 16 := opd.extractLsb' 0 16

/-- `E1 = OPD[31:16]` of W2.LOAD (R76). -/
def opdE1 (opd : DataWord) : BitVec 16 := opd.extractLsb' 16 16

/-- The bytes of a 24-bit window value, in the layout of TA.LOAD's operand; how B64.RUN hands a window
to TA.LOAD (R155). -/
def tripletBytes (d : Triplet) : List Byte :=
  [d.extractLsb' 16 8, d.extractLsb' 8 8, d.extractLsb' 0 8]

end Sys2Proof.Machine
end

