-- ==== Sys2Proof/Machine/Ops.lean ====
section
/-! DEFINITION. The shared operations: the input memory, the output buffer, responses, raising the
block's fault and leaving it by reset, and the frame every command runs in. -/

namespace Sys2Proof.Machine

/-! ### The input space (20_memory.md R50 to R54) -/

/-- The byte at an address, `none` where the byte is not readable. -/
def readByte (m : Memory) (a : Nat) : Option Byte :=
  match m with
  | [] => none
  | c :: cs => if c.1 = a then some c.2 else readByte cs a

/-- `Readable(a)` (R51). -/
def readable (m : Memory) (a : Nat) : Bool := (readByte m a).isSome

/-- Every byte of `a .. a+n-1` is readable: the test B64.RUN makes before it starts (R51). -/
def rangeReadable (m : Memory) (a : Nat) : Nat → Bool
  | 0 => true
  | n + 1 => readable m a && rangeReadable m (a + 1) n

/-- The bytes `M[0..n-1]` of R52, `M[k] = IN[addr + k]`, if all are readable. -/
def readBytes (m : Memory) (a : Nat) : Nat → Option (List Byte)
  | 0 => some []
  | n + 1 =>
    match readByte m a with
    | none => none
    | some b => (readBytes m (a + 1) n).map (b :: ·)

/-- `MemRead(addr, n)` (R52): the native integer of the `n` bytes, or `Fault(ACCESS)`. No alignment is
needed (R53). This is the only reader of `HOST_ENDIAN` (R35). -/
def memRead (s : State) (a n : Nat) : Except Cause Nat :=
  match readBytes s.mem a n with
  | none => .error .access
  | some m => .ok (nativeValue s.params.hostEndian m)

/-- The host makes the byte at `a` readable with value `b`: the canonical form is kept. -/
def memInsert (m : Memory) (a : Nat) (b : Byte) : Memory :=
  match m with
  | [] => [(a, b)]
  | c :: cs =>
    if a < c.1 then (a, b) :: c :: cs
    else if a = c.1 then (a, b) :: cs
    else c :: memInsert cs a b

/-- The host makes the byte at `a` unreadable. -/
def memErase (m : Memory) (a : Nat) : Memory := m.filter (fun c => c.1 ≠ a)

/-- The canonical form of the input memory: addresses strictly rising. An unlisted address reads as no
value, so no listed entry repeats what an unlisted one reads as. -/
abbrev Memory.wf (m : Memory) : Prop := (m.map Prod.fst).Pairwise (· < ·)

/-- Every listed address exists: it has `ADDR_BITS` bits (R50). -/
abbrev Memory.within (p : Params) (m : Memory) : Prop := ∀ c ∈ m, c.1 < 2 ^ p.addrBits

/-- A host access to the input memory between two commands (00_scope.md R10, R50, R51). -/
def hostWrite (s : State) (a : Nat) (v : Option Byte) : Host.Outcome State Fault Refusal :=
  if a < 2 ^ s.params.addrBits then
    match v with
    | some b => .next (s.setMem (memInsert s.mem a b))
    | none => .next (s.setMem (memErase s.mem a))
  else .fault .noSuchAddress

/-! ### The output buffer (R55) -/

/-- `MemWrite(pos, 1, ch)`: `OB[pos] <- ch` for `0 <= pos < OBLEN` (R55). -/
def memWrite (d : SD) (pos : Nat) (ch : Byte) : SD :=
  if pos < d.oblen then { d with ob := d.ob.set pos ch } else d

/-- `MemWrite(OPOS, 1, ch) ; OPOS <- OPOS + 1` (R155). -/
def putChar (d : SD) (ch : Byte) : SD :=
  let d := memWrite d d.opos ch
  { d with opos := d.opos + 1 }

/-! ### Windows and responses (00_scope.md section 6, R42) -/

/-- A window: a 24-bit value and how many of its leading bytes are data. -/
structure Window where
  data  : Triplet
  count : BitVec 2
  deriving DecidableEq, Repr

/-- A response with a scalar result only. -/
def Response.scalar (v : DataWord) : Response := { Response.quiet with val := v }

/-- A carry unit's response: the windows in stream order and the consumption signal. Window fields of
index `nwin` and above are 0 (R42). -/
def Response.carry (ws : List Window) (consumed : BitVec 2) : Response :=
  { Response.quiet with
    nwin := BitVec.ofNat 2 ws.length
    win0 := (ws.getD 0 ⟨0, 0⟩).data, wv0 := (ws.getD 0 ⟨0, 0⟩).count
    win1 := (ws.getD 1 ⟨0, 0⟩).data, wv1 := (ws.getD 1 ⟨0, 0⟩).count
    win2 := (ws.getD 2 ⟨0, 0⟩).data, wv2 := (ws.getD 2 ⟨0, 0⟩).count
    consumed := consumed }

/-- The windows a response carries: window `j` is meaningful when `j < RSP.nwin` (R42). -/
def Response.windows (r : Response) : List Window :=
  [⟨r.win0, r.wv0⟩, ⟨r.win1, r.wv1⟩, ⟨r.win2, r.wv2⟩].take r.nwin.toNat

/-- The answer of a command that faults and of every command on a faulted block (R172). -/
def Response.faulted (cause : BitVec 3) : Response :=
  { Response.quiet with fault := true, cause := cause }

/-! ### Faults (60_exceptions.md R170 to R183) -/

/-- The code of a cause (R171). -/
def Cause.code : Cause → BitVec 3
  | .illegal => 1
  | .width => 2
  | .operand => 3
  | .noinst => 4
  | .null => 5
  | .size => 6
  | .access => 7

/-- Raising `Fault(cause)` (R172, R182): `FAULT` and `CAUSE` are set, the response reports it, nothing
is saved, no handler is entered and nothing else changes. -/
def raiseFault (s : State) (c : Cause) : State :=
  (s.setFault true c.code).setRsp (Response.faulted c.code)

/-- What every command does on a faulted block: no state change, the first cause is answered (R172). -/
def answerFaulted (s : State) : State := s.setRsp (Response.faulted s.cause)

/-- Reset, the only way out of the faulted state (R183, R190): every register takes its reset value,
the strap and the host's memory stay, what the host presents next stays. -/
def applyReset (s : State) : State :=
  ((State.resetOf s.params).setMem s.mem).setPending s.pending

/-- What a command works out on the state before it: the state it leaves and its response, or the
fault it raises. -/
abbrev Effect := Except Cause (State × Response)

/-- The frame every command runs in. `FAULT` is read first (R47, R172); a fault is raised on the state
from before the command, so it is precise (R182); otherwise the command's whole effect and its
response are in place (R8). -/
def perform (s : State) (e : Effect) : Host.Outcome State Fault Refusal :=
  if s.fault then .next (answerFaulted s)
  else
    match e with
    | .error c => .next (raiseFault s c)
    | .ok (t, r) => .next (t.setRsp r)

end Sys2Proof.Machine
end

