-- ==== Sys2Proof/Machine/Bon.lean ====
section
/-! DEFINITION. The BON unit: BON.NORM and BON.DENORM (40_byte_order_normalizer.md). It has no state. -/

namespace Sys2Proof.Machine

/-- The bus form of a byte sequence: `b[0]` in the most significant lane of the low bytes (R95). -/
def busOf (b : List Byte) : DataWord := BitVec.ofNat 64 (den b)

/-- BON.NORM w (R91). -/
def execBonNorm (w : BitVec 4) (opd : DataWord) (s : State) : Host.Outcome State Fault Refusal :=
  perform s <|
    if legalWidth w then .ok (s, Response.scalar (busOf (bon (opdElement opd w.toNat) w.toNat)))
    else .error .width

/-- BON.DENORM w (R92). -/
def execBonDenorm (w : BitVec 4) (opd : DataWord) (s : State) : Host.Outcome State Fault Refusal :=
  perform s <|
    if legalWidth w then .ok (s, Response.scalar (BitVec.ofNat 64 (den (opdBytes opd w.toNat))))
    else .error .width

end Sys2Proof.Machine
end

