-- ==== Sys2Proof/Machine/Flags.lean ====
section
/-! DEFINITION. The block has no condition codes; `TA.valid` is what stands for a flag (10_state.md,
head), and these are the tests made on it (41_triplet_unit.md R102, R109). -/

namespace Sys2Proof.Machine

/-- `isByteValid(i)`: true iff `i < TA.valid` (R102). -/
def byteValid (t : TA) (i : BitVec 2) : Bool := decide (i.toNat < t.valid.toNat)

/-- `dep(g)`: the byte group `g` depends on for padding (R109). -/
def dep (g : BitVec 2) : BitVec 2 := if g = 0 then 0 else g - 1

/-- Group `g` holds data: the byte it depends on is valid (R108). -/
def groupValid (t : TA) (g : BitVec 2) : Bool := byteValid t (dep g)

end Sys2Proof.Machine
end

