-- ==== Sys2Proof/Machine/Ta.lean ====
section
/-! DEFINITION. The TA unit with the triplet_unpacker and the base64_char_mapper
(41_triplet_unit.md). -/

namespace Sys2Proof.Machine

/-- `load(bytes, byteCount)` (R101): `TA.data <- pack3([b0,b1,b2][0..n-1])`, `TA.valid <- n`. -/
def taLoad (n : BitVec 2) (bytes : List Byte) : TA :=
  { data := pack3 (bytes.take n.toNat), valid := n }

/-- `six(d, g) = (d >> (18 - 6*g)) & 0x3F`, the triplet_unpacker (R104). -/
def six (d : Triplet) (g : BitVec 2) : BitVec 6 := (d >>> (18 - 6 * g.toNat)).setWidth 6

/-- `code(ALPHA(i))`: the ASCII code of symbol `i` of the alphabet, by the formula of R105. -/
def alphaCode (i : BitVec 6) : Byte :=
  if i.toNat ≤ 25 then BitVec.ofNat 8 (0x41 + i.toNat)
  else if i.toNat ≤ 51 then BitVec.ofNat 8 (0x61 + (i.toNat - 26))
  else if i.toNat ≤ 61 then BitVec.ofNat 8 (0x30 + (i.toNat - 52))
  else if i.toNat = 62 then 0x2B
  else 0x2F

/-- The code of the padding character `=` (R106). -/
def padCode : Byte := 0x3D

/-- `encode(groupIndex)` (R107): the character of group `g`, without padding. -/
def taEnc (t : TA) (g : BitVec 2) : Byte := alphaCode (six t.data g)

/-- `encodeWithPadding(groupIndex)` (R108): `=` where the byte the group depends on is not valid. -/
def taEncp (t : TA) (g : BitVec 2) : Byte := if groupValid t g then taEnc t g else padCode

/-- TA.NEW (R100). -/
def execTaNew (s : State) : Host.Outcome State Fault Refusal :=
  perform s (.ok (s.setTa TA.fresh, Response.quiet))

/-- TA.LOAD n (R101). -/
def execTaLoad (n : BitVec 2) (opd : DataWord) (s : State) : Host.Outcome State Fault Refusal :=
  perform s (.ok (s.setTa (taLoad n (opdWindow opd)), Response.quiet))

/-- TA.VALID i (R102). -/
def execTaValid (i : BitVec 2) (s : State) : Host.Outcome State Fault Refusal :=
  perform s (.ok (s, Response.scalar (if byteValid s.ta i then 1 else 0)))

/-- TA.X6 g (R103). `TA.valid` is not looked at. -/
def execTaX6 (g : BitVec 2) (s : State) : Host.Outcome State Fault Refusal :=
  perform s (.ok (s, Response.scalar ((six s.ta.data g).setWidth 64)))

/-- TA.ENC g (R107). `TA.valid` is not looked at. -/
def execTaEnc (g : BitVec 2) (s : State) : Host.Outcome State Fault Refusal :=
  perform s (.ok (s, Response.scalar ((taEnc s.ta g).setWidth 64)))

/-- TA.ENCP g (R108). -/
def execTaEncp (g : BitVec 2) (s : State) : Host.Outcome State Fault Refusal :=
  perform s (.ok (s, Response.scalar ((taEncp s.ta g).setWidth 64)))

end Sys2Proof.Machine
end

