-- ==== Sys2Proof/Machine/W2.lean ====
section
/-! DEFINITION. The W2 unit (43_width2_specialization.md). Its operations take the unit's registers
only (10_state.md R45). -/

namespace Sys2Proof.Machine

/-- `loadNext(elements, count)`: the five cases of R141, in the order A, B, C, D, E. -/
def w2Load (u : W2) (c : BitVec 2) (e0 e1 : BitVec 16) : Except Cause (W2 × Response) :=
  if legalCount c = false then .error .operand
  else if u.has then
    if c ≠ 0 then
      .ok ({ u with first := e0, has := false },
           Response.carry [⟨pack3 [loByte u.second, hiByte e0, loByte e0], 3⟩] 1)
    else
      .ok ({ u with has := false }, Response.carry [⟨pack3 [loByte u.second], 1⟩] 0)
  else if c = 2 then
    .ok ({ first := e0, second := e1, has := true },
         Response.carry [⟨pack3 [hiByte e0, loByte e0, hiByte e1], 3⟩] 2)
  else if c = 1 then
    .ok ({ u with first := e0, second := 0 },
         Response.carry [⟨pack3 [hiByte e0, loByte e0], 2⟩] 1)
  else .ok (u, Response.carry [] 0)

/-- W2.NEW (R140). -/
def execW2New (s : State) : Host.Outcome State Fault Refusal :=
  perform s (.ok (s.setW2 W2.fresh, Response.quiet))

/-- W2.LOAD c (R141). -/
def execW2Load (c : BitVec 2) (opd : DataWord) (s : State) : Host.Outcome State Fault Refusal :=
  perform s <| do
    let (u, r) ← w2Load s.w2 c (opdE0 opd) (opdE1 opd)
    .ok (s.setW2 u, r)

end Sys2Proof.Machine
end

