-- ==== Sys2Proof/Machine/Wca.lean ====
section
/-! DEFINITION. The WCA unit (42_word_carry_accumulator.md). Its operations take the unit's registers
only, so they can touch no other unit's (10_state.md R45). -/

namespace Sys2Proof.Machine

/-- A fresh accumulator for element width `w` (R120). -/
def wcaNew (w : BitVec 4) : WCA := { WCA.absent with wsel := w }

/-- The carried bytes `c = WCA.rb[0 .. WCA.rem-1]` (R121). -/
def wcaCarried (u : WCA) : List Byte := u.rb.toList.take u.rem.toNat

/-- The complete triplets of a byte sequence: `win_j = pack3(s[3j .. 3j+2])` for `j < len(s) div 3`
(R121). -/
def fullWindows (s : List Byte) : List Window :=
  (List.range (s.length / 3)).map fun j => ⟨pack3 ((s.drop (3 * j)).take 3), 3⟩

/-- What is left after the complete triplets: `c' = s[3t .. L-1]` (R121). -/
def leftover (s : List Byte) : List Byte := s.drop (3 * (s.length / 3))

/-- `loadNext(element)`: the carry step of R121 and the writes of R122. `v` is the element's native
value. -/
def wcaLoad (u : WCA) (v : Nat) : Except Cause (WCA × Response) :=
  if u.wsel = 0 then .error .noinst
  else
    let W := u.wsel.toNat
    let s := wcaCarried u ++ bon v W
    .ok ({ u with
            rb := padTo2 (leftover s)
            rem := BitVec.ofNat 2 (s.length % 3)
            sv := padTo8 (s.take W)
            vbc := u.wsel },
         Response.carry (fullWindows s) 1)

/-- `loadNext(none)`: the terminal flush (R124). -/
def wcaFlush (u : WCA) : Except Cause (WCA × Response) :=
  if u.wsel = 0 then .error .noinst
  else
    let c := wcaCarried u
    .ok ({ u with rb := padTo2 [], rem := 0, sv := padTo8 c, vbc := u.rem.setWidth 4 },
         Response.carry (if u.rem = 0 then [] else [⟨pack3 c, u.rem⟩]) 0)

/-- WCA.NEW w (R120). -/
def execWcaNew (w : BitVec 4) (s : State) : Host.Outcome State Fault Refusal :=
  perform s <|
    if legalCarryWidth w then .ok (s.setWca (wcaNew w), Response.quiet) else .error .width

/-- WCA.LOAD v (R122): `v = OPD[8W-1:0]` with `W = WCA.WSEL`. -/
def execWcaLoad (opd : DataWord) (s : State) : Host.Outcome State Fault Refusal :=
  perform s <| do
    let (u, r) ← wcaLoad s.wca (opdElement opd s.wca.wsel.toNat)
    .ok (s.setWca u, r)

/-- WCA.FLUSH (R124). -/
def execWcaFlush (s : State) : Host.Outcome State Fault Refusal :=
  perform s <| do
    let (u, r) ← wcaFlush s.wca
    .ok (s.setWca u, r)

end Sys2Proof.Machine
end

