-- ==== Sys2Proof/Machine/Sequencer.lean ====
section
/-! DEFINITION. The sequencer SD and its command B64.RUN (44_stream_driver.md). It drives TA and one
carry unit through the same operations the host's commands use (R158). -/

namespace Sys2Proof.Machine

/-- The byte count of a run, `total = COUNT * w` (R151). -/
def runTotal (w count : Nat) : Nat := count * w

/-- The output length of a run, `len = ((total + 2) div 3) * 4` (R151). -/
def runLength (w count : Nat) : Nat := (runTotal w count + 2) / 3 * 4

/-- The `SIZE` test of R151: the byte count, the output length or the end address does not fit. -/
def sizeTooBig (p : Params) (w data count : Nat) : Bool :=
  decide (2 ^ p.cntBits ≤ runTotal w count) || decide (2 ^ p.cntBits ≤ runLength w count)
    || decide (2 ^ p.addrBits < data + runTotal w count)

/-- The checks of B64.RUN, in the order R151 and R180 give them. -/
def runChecks (s : State) (w : BitVec 4) (data count : Nat) : Except Cause Unit :=
  if legalWidth w = false then .error .width
  else if data = 0 ∧ count ≠ 0 then .error .null
  else if sizeTooBig s.params w.toNat data count then .error .size
  else if rangeReadable s.mem data (runTotal w.toNat count) = false then .error .access
  else .ok ()

/-- The set-up of R151: the operands are latched, the old contents of OB are dropped and OB is sized
once, the cursors start at 0, TA is made fresh. A character not yet written holds 0; no command ends
with one (log entry 6). -/
def runSetup (s : State) (w : BitVec 4) (data count : Nat) : State :=
  (s.setSd { w := w, data := data, count := count, cur := 0, opos := 0,
             oblen := runLength w.toNat count,
             ob := List.replicate (runLength w.toNat count) 0 }).setTa TA.fresh

/-- The character `emit` writes for group `g`: TA.ENC for a complete triplet, TA.ENCP for a short
window (R155). -/
def windowChar (t : TA) (g : BitVec 2) : Byte := if t.valid = 3 then taEnc t g else taEncp t g

/-- `emit(d, n)` (R155): load the window, then write its four characters in the order of the groups. -/
def emit (s : State) (win : Window) : State :=
  let t := taLoad win.count (tripletBytes win.data)
  (s.setTa t).setSd
    (putChar (putChar (putChar (putChar s.sd (windowChar t 0)) (windowChar t 1)) (windowChar t 2))
      (windowChar t 3))

/-- Emit windows in stream order. -/
def emitAll (s : State) (ws : List Window) : State := ws.foldl emit s

/-- `CUR <- CUR + n` (R38). -/
def advance (s : State) (n : Nat) : State := s.setSd { s.sd with cur := s.sd.cur + n }

/-- `MemRead(DATA + w*i, w)`: element `i` of the run (R38, R54). -/
def readElement (s : State) (w i : Nat) : Except Cause Nat := memRead s (s.sd.data + w * i) w

/-! ### Width 1 (R152) -/

/-- One byte of a width-1 run; `BON(v, 1) = [v]` (R93 (a)). -/
def readByte1 (s : State) (i : Nat) : Except Cause Byte := do
  let v ← readElement s 1 i
  .ok (byteOf v 1 0)

/-- `while COUNT - CUR >= 3`. The fuel is the bound of R164: at most `COUNT` turns. -/
def run1Loop : Nat → State → Except Cause State
  | 0, s => .ok s
  | fuel + 1, s =>
    if 3 ≤ s.sd.count - s.sd.cur then do
      let b0 ← readByte1 s s.sd.cur
      let b1 ← readByte1 s (s.sd.cur + 1)
      let b2 ← readByte1 s (s.sd.cur + 2)
      run1Loop fuel (advance (emit s ⟨pack3 [b0, b1, b2], 3⟩) 3)
    else .ok s

/-- The 0 to 2 trailing bytes. -/
def run1Tail (s : State) : Except Cause State :=
  let r := s.sd.count - s.sd.cur
  if r = 1 then do
    let b0 ← readByte1 s s.sd.cur
    .ok (advance (emit s ⟨pack3 [b0], 1⟩) r)
  else if r = 2 then do
    let b0 ← readByte1 s s.sd.cur
    let b1 ← readByte1 s (s.sd.cur + 1)
    .ok (advance (emit s ⟨pack3 [b0, b1], 2⟩) r)
  else .ok (advance s r)

def run1 (s : State) : Except Cause State := do
  let t ← run1Loop s.sd.count s
  run1Tail t

/-! ### Width 2, through W2 (R153) -/

/-- One W2.LOAD of the run: the unit's new registers, and the window it gives, if any, emitted. -/
def run2Load (s : State) (c : BitVec 2) (e0 e1 : BitVec 16) : Except Cause (State × Response) := do
  let (u, r) ← w2Load s.w2 c e0 e1
  .ok (emitAll (s.setW2 u) r.windows, r)

/-- `E1 <- MemRead(DATA + 2*(CUR+1), 2) if c = 2 else 0`. -/
def readSecond (s : State) (c : Nat) : Except Cause Nat :=
  if c = 2 then readElement s 2 (s.sd.cur + 1) else .ok 0

/-- `while CUR < COUNT`. The fuel is the bound of R164. -/
def run2Loop : Nat → State → Except Cause State
  | 0, s => .ok s
  | fuel + 1, s =>
    if s.sd.cur < s.sd.count then do
      let c := min 2 (s.sd.count - s.sd.cur)
      let e0 ← readElement s 2 s.sd.cur
      let e1 ← readSecond s c
      let (t, r) ← run2Load s (BitVec.ofNat 2 c) (BitVec.ofNat 16 e0) (BitVec.ofNat 16 e1)
      run2Loop fuel (advance t r.consumed.toNat)
    else .ok s

def run2 (s : State) : Except Cause State := do
  let t ← run2Loop s.sd.count (s.setW2 W2.fresh)
  let (t, _) ← run2Load t 0 0 0
  .ok t

/-! ### Widths 4 and 8, through WCA (R154) -/

/-- `while CUR < COUNT`. The fuel is the bound of R164. -/
def runCarryLoop (w : Nat) : Nat → State → Except Cause State
  | 0, s => .ok s
  | fuel + 1, s =>
    if s.sd.cur < s.sd.count then do
      let v ← readElement s w s.sd.cur
      let (u, r) ← wcaLoad s.wca v
      runCarryLoop w fuel (advance (emitAll (s.setWca u) r.windows) r.consumed.toNat)
    else .ok s

def runCarry (w : BitVec 4) (s : State) : Except Cause State := do
  let t ← runCarryLoop w.toNat s.sd.count (s.setWca (wcaNew w))
  let (u, r) ← wcaFlush t.wca
  .ok (emitAll (t.setWca u) r.windows)

/-! ### The command -/

/-- The loop of the width (R150). -/
def runStream (w : BitVec 4) (s : State) : Except Cause State :=
  if w = 1 then run1 s else if w = 2 then run2 s else runCarry w s

/-- `RSP.val = OBLEN` (R156). A length that does not fit the 64 bits of `RSP.val` has no stated value
(log entry 2). -/
def lengthAnswer (n : Nat) : DataWord :=
  if n < 2 ^ 64 then BitVec.ofNat 64 n else Config.lengthAbove64 n

/-- B64.RUN as an effect: the checks, the set-up, the loop of the width, the response (R150, R156). -/
def runEffect (w : BitVec 4) (data count : Nat) (s : State) : Effect := do
  runChecks s w data count
  let t ← runStream w (runSetup s w data count)
  .ok (t, Response.scalar (lengthAnswer t.sd.oblen))

/-- B64.RUN w, addr, count (R150). -/
def execB64Run (w : BitVec 4) (opa opc : Nat) (s : State) : Host.Outcome State Fault Refusal :=
  perform s (runEffect w opa opc s)

end Sys2Proof.Machine
end

