-- ==== Sys2Proof/Machine/Dispatch.lean ====
section
/-! DEFINITION. One arm per constructor of `Instr`; each calls the meaning of its command. -/

namespace Sys2Proof.Machine

def exec (i : Instr) (s : State) : Host.Outcome State Fault Refusal :=
  match i with
  | .bonNorm w opd => Sys2Proof.Machine.execBonNorm w opd s
  | .bonDenorm w opd => Sys2Proof.Machine.execBonDenorm w opd s
  | .taNew => Sys2Proof.Machine.execTaNew s
  | .taLoad n opd => Sys2Proof.Machine.execTaLoad n opd s
  | .taValid k => Sys2Proof.Machine.execTaValid k s
  | .taX6 g => Sys2Proof.Machine.execTaX6 g s
  | .taEnc g => Sys2Proof.Machine.execTaEnc g s
  | .taEncp g => Sys2Proof.Machine.execTaEncp g s
  | .wcaNew w => Sys2Proof.Machine.execWcaNew w s
  | .wcaLoad opd => Sys2Proof.Machine.execWcaLoad opd s
  | .wcaFlush => Sys2Proof.Machine.execWcaFlush s
  | .w2New => Sys2Proof.Machine.execW2New s
  | .w2Load c opd => Sys2Proof.Machine.execW2Load c opd s
  | .b64Run w opa opc => Sys2Proof.Machine.execB64Run w opa opc s

end Sys2Proof.Machine
end

