-- ==== Sys2Proof/Machine/Port.lean ====
section
/-! DEFINITION. The command port: what the block does with the next thing the host does. -/

namespace Sys2Proof.Machine

/-- The block takes one command from the port. A faulted block decodes nothing (R78, R172); a word that
selects no row raises `ILLEGAL` (R77); any other word runs its command. -/
def runCommand (c : Command) (s : State) : Host.Outcome State Fault Refusal :=
  if s.fault then .next (answerFaulted s)
  else
    match decode s.params c with
    | .error _ => .next (raiseFault s .illegal)
    | .ok i => exec i s

/-- The next thing the host does, on the state from which it has been taken. -/
def runEvent (e : HostEvent) (s : State) : Host.Outcome State Fault Refusal :=
  match e with
  | .command c => runCommand c s
  | .reset => .next (applyReset s)
  | .write a v => hostWrite s a v

end Sys2Proof.Machine
end

