-- ==== Sys2Proof/Machine/Step.lean ====
section
/-! DEFINITION. One step: the block does the next thing the host presents (00_scope.md R8). -/

namespace Sys2Proof.Machine

/-- One step. With nothing presented the block does nothing (log entry 7). -/
def step (s : State) : Host.Outcome State Fault Refusal :=
  match s.pending with
  | [] => .next s
  | e :: rest => runEvent e (s.setPending rest)

/-- `s` with the command the opcode table's word stands for presented next: there is no program to fetch, a
command runs when the host presents it (R61, log entry 8). -/
def State.withFetchWord (s : State) (nbits w : Nat) : State :=
  s.setPending (.command (tableCommand nbits w) :: s.pending)

end Sys2Proof.Machine
end

