-- ==== Sys2Proof/Safety.lean ====
section
/-! DEFINITION. What a safe state is: the block is not faulted, and the invariants 10_state.md states
hold. -/

namespace Sys2Proof.Machine

/-- The block runs commands: `FAULT = 0` (R33). Every claim about output takes this as a premise
(R172). -/
abbrev State.Running (s : State) : Prop := s.fault = false

/-- The 65 character codes the block can produce: `A-Z a-z 0-9 + / =` in ASCII (R7, R106). -/
def outputCode (b : Byte) : Bool :=
  (decide (0x41 ≤ b.toNat) && decide (b.toNat ≤ 0x5A))
    || (decide (0x61 ≤ b.toNat) && decide (b.toNat ≤ 0x7A))
    || (decide (0x30 ≤ b.toNat) && decide (b.toNat ≤ 0x39))
    || b == 0x2B || b == 0x2F || b == 0x3D

/-- R22: below the first `TA.valid` bytes, every bit of `TA.data` is zero. -/
abbrev TA.Inv (t : TA) : Prop := t.data <<< (8 * t.valid.toNat) = 0

/-- R24 (the values of `WCA.WSEL`), R29 (a) and (b), R25 (`sv[W..7]` are zero) and the range of
`WCA.vbc` in R28. -/
structure WCA.Inv (u : WCA) : Prop where
  wsel_legal : u.wsel ∈ [0#4, 2#4, 4#4, 8#4]
  rem_lt     : u.rem.toNat < 3
  rb_zero    : ∀ k : Fin 2, u.rem.toNat ≤ k.val → u.rb[k] = 0
  sv_zero    : ∀ k : Fin 8, u.wsel.toNat ≤ k.val → u.sv[k] = 0
  vbc_le     : u.vbc.toNat ≤ 8

/-- What the sequencer's registers satisfy between commands (R36, R38 to R41, R106, R151): the cursors
stand at the end of the last run, OB has `OBLEN` characters of the alphabet, every register fits its
width. -/
structure SD.Inv (p : Params) (d : SD) : Prop where
  w_legal    : d.w ∈ [0#4, 1#4, 2#4, 4#4, 8#4]
  data_fits  : d.data < 2 ^ p.addrBits
  count_fits : d.count < 2 ^ p.cntBits
  oblen_fits : d.oblen < 2 ^ p.cntBits
  end_fits   : d.data + d.count * d.w.toNat ≤ 2 ^ p.addrBits
  null_empty : d.data = 0 → d.count = 0
  cur_end    : d.cur = d.count
  opos_end   : d.opos = d.oblen
  ob_length  : d.ob.length = d.oblen
  oblen_eq   : d.oblen = (d.count * d.w.toNat + 2) / 3 * 4
  ob_codes   : ∀ ch ∈ d.ob, outputCode ch = true

/-- The invariant of the block between commands. -/
structure State.Inv (s : State) : Prop where
  params_wf  : s.params.wf
  ta         : s.ta.Inv
  wca        : s.wca.Inv
  sd         : s.sd.Inv s.params
  /-- R34: `CAUSE` is 0 exactly while `FAULT` is 0. -/
  cause_zero : s.cause = 0 ↔ s.fault = false
  mem_wf     : Memory.wf s.mem
  mem_within : Memory.within s.params s.mem

end Sys2Proof.Machine
end

