-- ==== Sys2Proof/Stream.lean ====
section
/-! DEFINITION. The terms the statements use beside the machine: what the Base64 text of a byte
sequence is, written from the table of 41_triplet_unit.md R105 and not from the machine, the windows
of a byte sequence, and a host that drives the block by hand, one command at a time. -/

namespace Sys2Proof.Machine

/-! ### The text of a byte sequence -/

/-- The column "code" of R105, index 0 to 63. -/
def base64Table : List Byte :=
  [0x41, 0x42, 0x43, 0x44, 0x45, 0x46, 0x47, 0x48, 0x49, 0x4A, 0x4B, 0x4C, 0x4D, 0x4E, 0x4F, 0x50]
    ++ [0x51, 0x52, 0x53, 0x54, 0x55, 0x56, 0x57, 0x58, 0x59, 0x5A, 0x61, 0x62, 0x63, 0x64, 0x65, 0x66]
    ++ [0x67, 0x68, 0x69, 0x6A, 0x6B, 0x6C, 0x6D, 0x6E, 0x6F, 0x70, 0x71, 0x72, 0x73, 0x74, 0x75, 0x76]
    ++ [0x77, 0x78, 0x79, 0x7A, 0x30, 0x31, 0x32, 0x33, 0x34, 0x35, 0x36, 0x37, 0x38, 0x39, 0x2B, 0x2F]

/-- The symbol of an index below 64. -/
def symbol (n : Nat) : Byte := base64Table.getD n 0

/-- The Base64 text of a byte sequence in arithmetic on its bytes: four symbols for three bytes, and
`=` (0x3D) in the last group where a byte is missing (R104 in its byte form, R110). -/
def base64Text : List Byte → List Byte
  | [] => []
  | [a] => [symbol (a.toNat / 4), symbol (a.toNat % 4 * 16), 0x3D, 0x3D]
  | [a, b] =>
    [symbol (a.toNat / 4), symbol (a.toNat % 4 * 16 + b.toNat / 16), symbol (b.toNat % 16 * 4), 0x3D]
  | a :: b :: c :: rest =>
    [symbol (a.toNat / 4), symbol (a.toNat % 4 * 16 + b.toNat / 16),
      symbol (b.toNat % 16 * 4 + c.toNat / 64), symbol (c.toNat % 64)] ++ base64Text rest

/-- The windows of a byte sequence: three bytes each, the last one short when the length is not a
multiple of 3 (R126). -/
def windowsOf : List Byte → List Window
  | [] => []
  | [a] => [⟨pack3 [a], 1⟩]
  | [a, b] => [⟨pack3 [a, b], 2⟩]
  | a :: b :: c :: rest => ⟨pack3 [a, b, c], 3⟩ :: windowsOf rest

/-- The logical byte stream of elements of width `w`: their normalized bytes in element order
(00_scope.md Glossary, R126, R157). -/
def byteStream (w : Nat) (vs : List Nat) : List Byte := vs.flatMap fun v => bon v w

/-- `vs` are the `count` elements of width `w` in the input memory from `data` on (R157). -/
def HoldsElements (s : State) (w data count : Nat) (vs : List Nat) : Prop :=
  vs.length = count ∧ ∀ i, i < count → memRead s (data + i * w) w = .ok (vs.getD i 0)

/-- The run `w, data, count` passes every check of R151, in the words of R174 to R177. -/
structure RunFits (s : State) (w : BitVec 4) (data count : Nat) : Prop where
  width    : w ∈ [1#4, 2#4, 4#4, 8#4]
  null     : data = 0 → count = 0
  total    : count * w.toNat < 2 ^ s.params.cntBits
  length   : (count * w.toNat + 2) / 3 * 4 < 2 ^ s.params.cntBits
  endAddr  : data + count * w.toNat ≤ 2 ^ s.params.addrBits
  readable : ∀ a, data ≤ a → a < data + count * w.toNat → readable s.mem a = true

/-! ### A host that drives the block by hand -/

/-- The next state if there is one, changed by `f`; a stop stays a stop. -/
def mapNext (f : State → State) (o : Host.Outcome State Fault Refusal) :
    Host.Outcome State Fault Refusal :=
  match o with
  | .next t => .next (f t)
  | .fault r => .fault r
  | .refused r => .refused r

/-- The host issues one command and goes on only if the block did not fault. -/
def issue (i : Instr) (s : State) : Option State :=
  match exec i s with
  | .next t => if t.fault then none else some t
  | .fault _ => none
  | .refused _ => none

/-- One WCA.LOAD per element and no flush: the windows of the responses in order, and the state after. -/
def driveLoads : List DataWord → State → Option (List Window × State)
  | [], s => some ([], s)
  | v :: vs, s => do
    let t ← issue (.wcaLoad v) s
    let (ws, u) ← driveLoads vs t
    some (t.rsp.windows ++ ws, u)

/-- A hand-driven WCA stream: one WCA.LOAD per element, then one WCA.FLUSH; the windows of the
responses in order, and the state after (R126). -/
def driveWca : List DataWord → State → Option (List Window × State)
  | [], s => do
    let t ← issue .wcaFlush s
    some (t.rsp.windows, t)
  | v :: vs, s => do
    let t ← issue (.wcaLoad v) s
    let (ws, u) ← driveWca vs t
    some (t.rsp.windows ++ ws, u)

/-- A hand-driven W2 stream as R145 says: offer `min(2, elements not yet consumed)`, advance by
`RSP.consumed`, flush once at the end. The fuel bounds the number of commands. -/
def driveW2 : Nat → List (BitVec 16) → State → Option (List Window × State)
  | 0, _, _ => none
  | fuel + 1, es, s => do
    let t ← issue (asmW2Load (BitVec.ofNat 2 (min 2 es.length)) (es.getD 0 0) (es.getD 1 0)) s
    if es = [] then some (t.rsp.windows, t)
    else do
      let (ws, u) ← driveW2 fuel (es.drop t.rsp.consumed.toNat) t
      some (t.rsp.windows ++ ws, u)

/-- The host reads one character of the loaded window: TA.ENC for a complete triplet, TA.ENCP for a
short window (R155). -/
def handChar (n g : BitVec 2) (s : State) : Option (State × Byte) := do
  let t ← issue (if n = 3 then .taEnc g else .taEncp g) s
  some (t, t.rsp.val.setWidth 8)

/-- The host encodes one window by hand: one TA.LOAD and four reads (R158). -/
def handEmit (s : State) (win : Window) : Option (State × List Byte) := do
  let s ← issue (asmTaLoad win.count win.data) s
  let (s, c0) ← handChar win.count 0 s
  let (s, c1) ← handChar win.count 1 s
  let (s, c2) ← handChar win.count 2 s
  let (s, c3) ← handChar win.count 3 s
  some (s, [c0, c1, c2, c3])

/-- The host encodes the windows of a response in order. -/
def handEmitAll : List Window → State → Option (State × List Byte)
  | [], s => some (s, [])
  | win :: ws, s => do
    let (s, cs) ← handEmit s win
    let (s, ds) ← handEmitAll ws s
    some (s, cs ++ ds)

/-- By hand, width 1: three bytes at a time straight into TA (R152). -/
def handBytes (bs : List Byte) (s : State) : Option (State × List Byte) :=
  handEmitAll (windowsOf bs) s

/-- By hand, width 2: W2.LOAD as R145 says, each window encoded as it comes (R153). -/
def handW2 : Nat → List (BitVec 16) → State → Option (State × List Byte)
  | 0, _, _ => none
  | fuel + 1, es, s => do
    let t ← issue (asmW2Load (BitVec.ofNat 2 (min 2 es.length)) (es.getD 0 0) (es.getD 1 0)) s
    let (u, cs) ← handEmitAll t.rsp.windows t
    if es = [] then some (u, cs)
    else do
      let (u, ds) ← handW2 fuel (es.drop t.rsp.consumed.toNat) u
      some (u, cs ++ ds)

/-- By hand, widths 4 and 8: WCA.LOAD per element, each window encoded as it comes, then the flush
(R154). -/
def handWca : List DataWord → State → Option (State × List Byte)
  | [], s => do
    let t ← issue .wcaFlush s
    handEmitAll t.rsp.windows t
  | v :: vs, s => do
    let t ← issue (.wcaLoad v) s
    let (u, cs) ← handEmitAll t.rsp.windows t
    let (u, ds) ← handWca vs u
    some (u, cs ++ ds)

/-- The command sequence R158 names for a run of width `w` over the elements `vs`: TA.NEW, the unit's
NEW, then the loads, window reads and the flush. -/
def handRun (w : BitVec 4) (vs : List Nat) (s : State) : Option (State × List Byte) := do
  let s ← issue .taNew s
  if w = 1 then handBytes (byteStream 1 vs) s
  else if w = 2 then do
    let s ← issue .w2New s
    handW2 (vs.length + 1) (vs.map (BitVec.ofNat 16)) s
  else do
    let s ← issue (.wcaNew w) s
    handWca (vs.map (BitVec.ofNat 64)) s

end Sys2Proof.Machine
end

