-- ==== Sys2Proof/Certificates/Slice0/Obligations.lean ====
section
/-! DEFINITION. The statements about the machine. Each docstring names the rules of spec/ it
formalises. -/

open Sys2Proof Sys2Proof.Machine

/-! ### Words the statements share -/

/-- A word as R79 writes it: the row's `match` with `w<<4` and the small operand put in. -/
def Sys2Proof.Claims.word (row : CommandWord) (w : BitVec 4) (k : BitVec 2) : CommandWord :=
  row ||| (w.setWidth 16 <<< 4) ||| k.setWidth 16

/-- What raising `Fault(code)` leaves (R172): `FAULT`, `CAUSE` and the response, nothing else. -/
def Sys2Proof.Claims.faultedState (s : State) (code : BitVec 3) : State :=
  { s with
    fault := true, cause := code,
    rsp := { fault := true, cause := code, val := 0, nwin := 0, win0 := 0, win1 := 0, win2 := 0,
             wv0 := 0, wv1 := 0, wv2 := 0, consumed := 0 } }

/-- The state `s` with the response `RSP.val = v` and every other signal 0. -/
def Sys2Proof.Claims.answered (s : State) (v : DataWord) : State :=
  { s with
    rsp := { fault := false, cause := 0, val := v, nwin := 0, win0 := 0, win1 := 0, win2 := 0,
             wv0 := 0, wv1 := 0, wv2 := 0, consumed := 0 } }

/-- A response with at most one window and a consumption signal. -/
def Sys2Proof.Claims.oneWindow (nwin : BitVec 2) (d : Triplet) (n consumed : BitVec 2) : Response :=
  { fault := false, cause := 0, val := 0, nwin := nwin, win0 := d, win1 := 0, win2 := 0,
    wv0 := n, wv1 := 0, wv2 := 0, consumed := consumed }

/-- A command whose word has the opcode `op` and for which `bad` holds raises `ILLEGAL` (1). -/
def Sys2Proof.Claims.IllegalWhen (op : BitVec 8) (bad : CommandWord → Prop) : Prop :=
  ∀ (c : Command) (s : State) (rest : List HostEvent), s.Running →
    s.pending = .command c :: rest → cwOpcode c.cw = op → bad c.cw →
      step s = .next (Claims.faultedState { s with pending := rest } 1)

/-- The rows of R72: `match` and `mask`. -/
def Sys2Proof.Claims.rows : List (CommandWord × CommandWord) :=
  [(0x1000, 0xFF0F), (0x1100, 0xFF0F), (0x2000, 0xFFFF), (0x2100, 0xFFFC), (0x2200, 0xFFFC),
   (0x2300, 0xFFFC), (0x2400, 0xFFFC), (0x2500, 0xFFFC), (0x3000, 0xFF0F), (0x3100, 0xFFFF),
   (0x3200, 0xFFFF), (0x4000, 0xFFFF), (0x4100, 0xFFFC), (0x5000, 0xFF0F)]

/-- The word selects the row: `W16 & mask = match` (R72). -/
abbrev Sys2Proof.Claims.Selects (cw : CommandWord) (row : CommandWord × CommandWord) : Prop :=
  cw &&& row.2 = row.1

/-! ### Reset, the invariant, the step -/

/-- R190 (with the table of R46): reset puts every register to 0 and OB to empty from any state, and
leaves the strap and the host's memory. The zero response after a reset event is the model's (log
entry 5). -/
def Obligations.ResetClearsEveryRegister : Prop :=
  ∀ (s : State) (rest : List HostEvent), s.pending = .reset :: rest →
    ∃ t, step s = .next t ∧
      t.ta.data = 0 ∧ t.ta.valid = 0 ∧
      t.wca.wsel = 0 ∧ (∀ k : Fin 8, t.wca.sv[k] = 0) ∧ (∀ k : Fin 2, t.wca.rb[k] = 0) ∧
      t.wca.rem = 0 ∧ t.wca.vbc = 0 ∧
      t.w2.first = 0 ∧ t.w2.second = 0 ∧ t.w2.has = false ∧
      t.sd.w = 0 ∧ t.sd.data = 0 ∧ t.sd.count = 0 ∧ t.sd.cur = 0 ∧ t.sd.opos = 0 ∧ t.sd.oblen = 0 ∧
      t.sd.ob = [] ∧
      t.fault = false ∧ t.cause = 0 ∧
      t.params = s.params ∧ t.mem = s.mem ∧ t.pending = rest

/-- R191: what is true after reset, whatever the parameters. -/
def Obligations.AfterReset : Prop :=
  ∀ p : Params,
    (State.resetOf p).fault = false ∧
    (∀ g, ∃ t, exec (.taEncp g) (State.resetOf p) = .next t ∧ t.rsp.val = 0x3D) ∧
    (∀ g, ∃ t, exec (.taEnc g) (State.resetOf p) = .next t ∧ t.rsp.val = 0x41) ∧
    (∀ i, ∃ t, exec (.taValid i) (State.resetOf p) = .next t ∧ t.rsp.val = 0) ∧
    (State.resetOf p).w2.has = false ∧
    (∀ opd, exec (.wcaLoad opd) (State.resetOf p) = .next (Claims.faultedState (State.resetOf p) 4)) ∧
    exec .wcaFlush (State.resetOf p) = .next (Claims.faultedState (State.resetOf p) 4) ∧
    (∀ w ∈ [2#4, 4#4, 8#4], ∃ t, exec (.wcaNew w) (State.resetOf p) = .next t ∧
      (∀ opd, ∃ u, exec (.wcaLoad opd) t = .next u ∧ u.fault = false) ∧
      ∃ u, exec .wcaFlush t = .next u ∧ u.fault = false) ∧
    (∀ (m : Memory) (w : BitVec 4) (data count : Nat),
      RunFits { State.resetOf p with mem := m } w data count →
        ∃ t, exec (.b64Run w data count) { State.resetOf p with mem := m } = .next t ∧ t.fault = false)

/-- The invariants of 10_state.md hold after reset, whatever the parameters. -/
def Obligations.ResetMeetsInvariant : Prop :=
  ∀ p : Params, p.wf → (State.resetOf p).Inv

/-- The invariants of 10_state.md are kept by every step: R22, R24, R25, R28, R29 (a) and (b), R34, and
what R36, R38 to R41 and R106 say of the sequencer between commands. -/
def Obligations.StepKeepsInvariant : Prop :=
  ∀ s t : State, s.Inv → step s = .next t → t.Inv

/-- A step on a presented command is `exec` of the decoded instruction on the state the command has
been taken from. -/
def Obligations.StepRunsDecodedCommand : Prop :=
  ∀ (s : State) (c : Command) (rest : List HostEvent) (i : Instr),
    s.pending = .command c :: rest → decode s.params c = .ok i →
      step s = exec i { s with pending := rest }

/-- R9: no command stops the block, whatever the state; nor does any presented word. -/
def Obligations.EveryCommandAnswers : Prop :=
  (∀ (i : Instr) (s : State), ∃ t, exec i s = .next t) ∧
  (∀ (s : State) (c : Command) (rest : List HostEvent), s.pending = .command c :: rest →
    ∃ t, step s = .next t ∧ t.pending = rest)

/-- R50, R51: the host's accesses to the input memory between commands keep its canonical form and set
exactly one byte. Two clauses are the model's choice and no rule's: that the host acts on its memory as an
event of the port (DESIGN CHOICE, log entry 4), and that an address of `2^ADDR_BITS` or above stops the
step with `noSuchAddress` (DESIGN CHOICE, log entry 12: R50 gives addresses `ADDR_BITS` bits and says
nothing of a greater one). -/
def Obligations.HostWriteSetsOneByte : Prop :=
  ∀ (s : State) (a : Nat) (v : Option Byte) (rest : List HostEvent),
    Memory.wf s.mem → s.pending = .write a v :: rest →
      (a < 2 ^ s.params.addrBits → ∃ m, step s = .next { s with mem := m, pending := rest } ∧
        Memory.wf m ∧ readByte m a = v ∧ ∀ b, b ≠ a → readByte m b = readByte s.mem b) ∧
      (2 ^ s.params.addrBits ≤ a → step s = .fault .noSuchAddress)

/-! ### Encoding -/

/-- Decode and encode agree on every instruction that can be presented, legal or not, with every
operand. -/
def Obligations.DecodeEncodeRoundTrip : Prop :=
  ∀ (p : Params) (i : Instr), i.wellFormed p = true → decode p (encode i) = .ok i

/-- R72: a word decodes exactly when it selects a row of the map, and no word selects two rows. -/
def Obligations.DecodeAcceptsExactlyTheRows : Prop :=
  (∀ (p : Params) (c : Command),
    (∃ i, decode p c = .ok i) ↔ ∃ row ∈ Claims.rows, Claims.Selects c.cw row) ∧
  (∀ cw : CommandWord, ∀ r₁ ∈ Claims.rows, ∀ r₂ ∈ Claims.rows,
    Claims.Selects cw r₁ → Claims.Selects cw r₂ → r₁ = r₂)

/-- Each word has one meaning: what the decoder reads, the encoder writes back, and the decoded
instruction can be presented. -/
def Obligations.DecodedWordReencodes : Prop :=
  ∀ (p : Params) (c : Command) (i : Instr), decode p c = .ok i →
    (encode i).cw = c.cw ∧ i.wellFormed p = true

/-- Words written out from 30_encoding.md R70 and 95_test_vectors.md decode to the commands they stand
for. -/
def Obligations.WrittenWordsDecode : Prop :=
  decode Params.standard ⟨0b0001000001000000, 0xFFFFF9, 0, 0⟩ = .ok (.bonNorm 4 0xFFFFF9) ∧
  decode Params.standard ⟨0b0001000100100000, 0xFFF9, 0, 0⟩ = .ok (.bonDenorm 2 0xFFF9) ∧
  decode Params.standard ⟨0b0010000100000010, 0x020300, 0, 0⟩ = .ok (.taLoad 2 0x020300) ∧
  decode Params.standard ⟨0b0010010100000011, 0, 0, 0⟩ = .ok (.taEncp 3) ∧
  decode Params.standard ⟨0b0011000010000000, 0, 0, 0⟩ = .ok (.wcaNew 8) ∧
  decode Params.standard ⟨0b0100000100000010, 0x6E204D61, 0, 0⟩ = .ok (.w2Load 2 0x6E204D61) ∧
  decode Params.standard ⟨0b0101000010000000, 0, 0x2000, 1⟩ = .ok (.b64Run 8 0x2000 1)

/-- The opcodes of R72 whose command uses `w`. -/
def Sys2Proof.Claims.widthOpcodes : List (BitVec 8) := [0x10, 0x11, 0x30, 0x50]

/-- The opcodes of R72 whose command uses `k`. -/
def Sys2Proof.Claims.smallOpcodes : List (BitVec 8) := [0x21, 0x22, 0x23, 0x24, 0x25, 0x41]

/-- The opcodes of R72 whose command uses neither. -/
def Sys2Proof.Claims.plainOpcodes : List (BitVec 8) := [0x20, 0x31, 0x32, 0x40]

/-- R77: a word that selects no row raises `ILLEGAL` and changes no state but `FAULT` and `CAUSE`; and it
selects no row exactly in the cases (a) to (d). -/
def Obligations.IllegalWordFaults : Prop :=
  (∀ (s : State) (c : Command) (rest : List HostEvent), s.Running →
    s.pending = .command c :: rest → (∀ row ∈ Claims.rows, ¬ Claims.Selects c.cw row) →
      step s = .next (Claims.faultedState { s with pending := rest } 1)) ∧
  (∀ cw : CommandWord, (∀ row ∈ Claims.rows, ¬ Claims.Selects cw row) ↔
    cw.extractLsb' 8 8 ∉ Claims.widthOpcodes ++ Claims.smallOpcodes ++ Claims.plainOpcodes ∨
    cw.extractLsb' 2 2 ≠ 0 ∨
    (cw.extractLsb' 8 8 ∈ Claims.smallOpcodes ++ Claims.plainOpcodes ∧ cw.extractLsb' 4 4 ≠ 0) ∨
    (cw.extractLsb' 8 8 ∈ Claims.widthOpcodes ++ Claims.plainOpcodes ∧ cw.extractLsb' 0 2 ≠ 0))

/-! ### Faults -/

/-- R172: a command that raises a fault sets `FAULT` and `CAUSE`, changes nothing else and answers the
cause; on a faulted block every command, whatever its word, changes no state and answers the first cause;
and no step but a reset leaves the faulted state. -/
def Obligations.FaultedBlockOnlyAnswers : Prop :=
  (∀ (s t : State) (c : Command) (rest : List HostEvent), s.Running →
    s.pending = .command c :: rest → step s = .next t → t.fault = true →
      ∃ code : BitVec 3, code ≠ 0 ∧ t = Claims.faultedState { s with pending := rest } code) ∧
  (∀ s t : State, s.fault = true → (∀ rest, s.pending ≠ .reset :: rest) → step s = .next t →
    t.fault = true ∧ t.cause = s.cause) ∧
  (∀ (i : Instr) (s : State), s.fault = true →
    exec i s = .next { s with rsp := { Response.quiet with fault := true, cause := s.cause } }) ∧
  (∀ (s : State) (c : Command) (rest : List HostEvent), s.fault = true →
    s.pending = .command c :: rest →
      step s = .next { s with
        pending := rest, rsp := { Response.quiet with fault := true, cause := s.cause } })

/-- R182, R170: faults are precise. A command that leaves the block faulted has set `FAULT`, `CAUSE` and
the response and has changed nothing else, and the cause is one of the seven. -/
def Obligations.FaultsArePrecise : Prop :=
  ∀ (i : Instr) (s t : State), s.Running → exec i s = .next t → t.fault = true →
    ∃ code : BitVec 3, code ≠ 0 ∧ t = Claims.faultedState s code

/-- R174: `WIDTH` (2) is raised exactly outside the legal widths of the command. -/
def Obligations.IllegalWidthFaults : Prop :=
  ∀ (s : State) (w : BitVec 4) (opd : DataWord) (data count : Nat), s.Running →
    (w ∉ [1#4, 2#4, 4#4, 8#4] →
      exec (.bonNorm w opd) s = .next (Claims.faultedState s 2) ∧
      exec (.bonDenorm w opd) s = .next (Claims.faultedState s 2) ∧
      exec (.b64Run w data count) s = .next (Claims.faultedState s 2)) ∧
    (w ∉ [2#4, 4#4, 8#4] → exec (.wcaNew w) s = .next (Claims.faultedState s 2))

/-- R178: W2.LOAD with `c = 3` raises `OPERAND` (3), whatever W2 holds. -/
def Obligations.CountThreeFaults : Prop :=
  ∀ (s : State) (opd : DataWord), s.Running →
    exec (.w2Load 3 opd) s = .next (Claims.faultedState s 3)

/-- R179: WCA.LOAD and WCA.FLUSH raise `NOINST` (4) while `WCA.WSEL = 0`. -/
def Obligations.NoInstanceFaults : Prop :=
  ∀ (s : State) (opd : DataWord), s.Running → s.wca.wsel = 0 →
    exec (.wcaLoad opd) s = .next (Claims.faultedState s 4) ∧
    exec .wcaFlush s = .next (Claims.faultedState s 4)

/-- R175, R176, R177 in the order of R180: `NULL` (5), then `SIZE` (6), then `ACCESS` (7); and a run
that meets none of the conditions and has a legal width does not fault. -/
def Obligations.RunFaultsInOrder : Prop :=
  ∀ (s : State) (w : BitVec 4) (data count : Nat), s.Running → w ∈ [1#4, 2#4, 4#4, 8#4] →
    (data = 0 ∧ count ≠ 0 →
      exec (.b64Run w data count) s = .next (Claims.faultedState s 5)) ∧
    (¬ (data = 0 ∧ count ≠ 0) →
      (2 ^ s.params.cntBits ≤ count * w.toNat ∨
        2 ^ s.params.cntBits ≤ (count * w.toNat + 2) / 3 * 4 ∨
        2 ^ s.params.addrBits < data + count * w.toNat →
          exec (.b64Run w data count) s = .next (Claims.faultedState s 6)) ∧
      (count * w.toNat < 2 ^ s.params.cntBits →
        (count * w.toNat + 2) / 3 * 4 < 2 ^ s.params.cntBits →
        data + count * w.toNat ≤ 2 ^ s.params.addrBits →
          ((∃ a, data ≤ a ∧ a < data + count * w.toNat ∧ readByte s.mem a = none) →
            exec (.b64Run w data count) s = .next (Claims.faultedState s 7)) ∧
          ((∀ a, data ≤ a → a < data + count * w.toNat → readByte s.mem a ≠ none) →
            ∃ t, exec (.b64Run w data count) s = .next t ∧ t.fault = false)))

/-! ### The BON unit -/

/-- R90, R93: `BON` gives the bytes most significant first, keeps leading zero bytes, and is a bijection
whose inverse is `DEN`. -/
def Obligations.BonIsBijective : Prop :=
  (∀ v W : Nat, (bon v W).length = W ∧
    ∀ k (h : k < (bon v W).length), ((bon v W)[k]).toNat = v / 2 ^ (8 * (W - 1 - k)) % 256) ∧
  (∀ v W : Nat, v < 2 ^ (8 * W) → den (bon v W) = v) ∧
  (∀ b : List Byte, den b < 2 ^ (8 * b.length) ∧ bon (den b) b.length = b) ∧
  (∀ v : Nat, v < 256 → bon v 1 = [BitVec.ofNat 8 v]) ∧
  bon 0xFFFFF9 4 = [0x00, 0xFF, 0xFF, 0xF9]

/-- R91: BON.NORM. The result is the bytes of `BON(v, w)` on the bus, `v` the low `8w` bits of `OPD`; no
state is written. -/
def Obligations.BonNormResult : Prop :=
  (∀ (s : State) (w : BitVec 4) (opd : DataWord), s.Running → w ∈ [1#4, 2#4, 4#4, 8#4] →
    exec (.bonNorm w opd) s = .next (Claims.answered s (BitVec.ofNat 64
      ((List.range w.toNat).map fun k =>
        (byteOf (opd.toNat % 2 ^ (8 * w.toNat)) w.toNat k).toNat <<< (8 * (w.toNat - 1 - k))).sum))) ∧
  (∀ (s : State) (w : BitVec 4) (opd : DataWord), s.Running → w ∉ [1#4, 2#4, 4#4, 8#4] →
    exec (.bonNorm w opd) s = .next (Claims.faultedState s 2)) ∧
  (∀ (p : Params) (w : BitVec 4) (opd : DataWord) (opa opc : Nat),
    decode p ⟨Claims.word 0x1000 w 0, opd, opa, opc⟩ = .ok (.bonNorm w opd)) ∧
  Claims.IllegalWhen 0x10 (fun cw => cwSmall cw ≠ 0 ∨ cwReserved cw ≠ 0)

/-- R92: BON.DENORM. The result is `DEN` of the sequence `b[k] = OPD[8(w-k)-1 : 8(w-1-k)]`, and
BON.DENORM after BON.NORM gives the original value back. -/
def Obligations.BonDenormResult : Prop :=
  (∀ (s : State) (w : BitVec 4) (opd : DataWord), s.Running → w ∈ [1#4, 2#4, 4#4, 8#4] →
    exec (.bonDenorm w opd) s = .next (Claims.answered s (BitVec.ofNat 64
      ((List.range w.toNat).map fun k =>
        (opd.extractLsb' (8 * (w.toNat - 1 - k)) 8).toNat <<< (8 * (w.toNat - 1 - k))).sum))) ∧
  (∀ (s : State) (w : BitVec 4) (opd : DataWord), s.Running → w ∉ [1#4, 2#4, 4#4, 8#4] →
    exec (.bonDenorm w opd) s = .next (Claims.faultedState s 2)) ∧
  (∀ (s : State) (w : BitVec 4) (opd : DataWord), s.Running → w ∈ [1#4, 2#4, 4#4, 8#4] →
    ∃ t, exec (.bonNorm w opd) s = .next t ∧
      exec (.bonDenorm w t.rsp.val) t =
        .next (Claims.answered s (BitVec.ofNat 64 (opd.toNat % 2 ^ (8 * w.toNat))))) ∧
  (∀ (p : Params) (w : BitVec 4) (opd : DataWord) (opa opc : Nat),
    decode p ⟨Claims.word 0x1100 w 0, opd, opa, opc⟩ = .ok (.bonDenorm w opd)) ∧
  Claims.IllegalWhen 0x11 (fun cw => cwSmall cw ≠ 0 ∨ cwReserved cw ≠ 0)

/-- R95: at the level of bit vectors BON.NORM and BON.DENORM move no bit of the `8w` they look at. -/
def Obligations.BonMovesNoBit : Prop :=
  ∀ (s : State) (w : BitVec 4) (opd : DataWord), s.Running → w ∈ [1#4, 2#4, 4#4, 8#4] →
    exec (.bonNorm w opd) s =
      .next (Claims.answered s (BitVec.ofNat 64 (opd.toNat % 2 ^ (8 * w.toNat)))) ∧
    exec (.bonDenorm w opd) s =
      .next (Claims.answered s (BitVec.ofNat 64 (opd.toNat % 2 ^ (8 * w.toNat))))

/-! ### The TA unit -/

/-- R100: TA.NEW makes TA fresh. -/
def Obligations.TaNewMakesFresh : Prop :=
  (∀ s : State, s.Running →
    exec .taNew s = .next (Claims.answered { s with ta := { data := 0, valid := 0 } } 0)) ∧
  (∀ (p : Params) (opd : DataWord) (opa opc : Nat),
    decode p ⟨0x2000, opd, opa, opc⟩ = .ok .taNew) ∧
  Claims.IllegalWhen 0x20 (fun cw => cwWidth cw ≠ 0 ∨ cwReserved cw ≠ 0 ∨ cwSmall cw ≠ 0) ∧
  (∀ s : State, s.Running → ∃ t, exec .taNew s = .next t ∧
    ∀ g, ∃ u, exec (.taEncp g) t = .next u ∧ u.rsp.val = 0x3D)

/-- R101: TA.LOAD n stores the first `n` operand bytes left-justified and zeroes the rest. -/
def Obligations.TaLoadStoresWindow : Prop :=
  (∀ (s : State) (n : BitVec 2) (opd : DataWord), s.Running →
    exec (.taLoad n opd) s = .next (Claims.answered { s with ta :=
      { data :=
          if n = 0 then 0
          else if n = 1 then opd.extractLsb' 16 8 ++ 0#16
          else if n = 2 then opd.extractLsb' 8 16 ++ 0#8
          else opd.extractLsb' 0 24,
        valid := n } } 0)) ∧
  (∀ (p : Params) (n : BitVec 2) (opd : DataWord) (opa opc : Nat),
    decode p ⟨Claims.word 0x2100 0 n, opd, opa, opc⟩ = .ok (.taLoad n opd)) ∧
  Claims.IllegalWhen 0x21 (fun cw => cwWidth cw ≠ 0 ∨ cwReserved cw ≠ 0)

/-- R102: TA.VALID i answers 1 iff `i < TA.valid`. -/
def Obligations.TaValidTestsByte : Prop :=
  (∀ (s : State) (i : BitVec 2), s.Running →
    exec (.taValid i) s = .next (Claims.answered s (if i < s.ta.valid then 1 else 0))) ∧
  (∀ (p : Params) (i : BitVec 2) (opd : DataWord) (opa opc : Nat),
    decode p ⟨Claims.word 0x2200 0 i, opd, opa, opc⟩ = .ok (.taValid i)) ∧
  Claims.IllegalWhen 0x22 (fun cw => cwWidth cw ≠ 0 ∨ cwReserved cw ≠ 0)

/-- R103, R104: TA.X6 g answers bits 23:18, 17:12, 11:6 or 5:0 of `TA.data`, `TA.valid` not looked
at. -/
def Obligations.TaX6ExtractsField : Prop :=
  (∀ (s : State) (g : BitVec 2), s.Running →
    exec (.taX6 g) s = .next (Claims.answered s
      ((s.ta.data.extractLsb' (18 - 6 * g.toNat) 6).setWidth 64))) ∧
  (∀ (p : Params) (g : BitVec 2) (opd : DataWord) (opa opc : Nat),
    decode p ⟨Claims.word 0x2300 0 g, opd, opa, opc⟩ = .ok (.taX6 g)) ∧
  Claims.IllegalWhen 0x23 (fun cw => cwWidth cw ≠ 0 ∨ cwReserved cw ≠ 0)

/-- R104: the four fields of a triplet, in terms of its bits and of its three bytes, and the triplet
from its four fields. -/
def Obligations.FieldsPartitionTriplet : Prop :=
  (∀ d : Triplet,
    six d 0 = d.extractLsb' 18 6 ∧ six d 1 = d.extractLsb' 12 6 ∧ six d 2 = d.extractLsb' 6 6 ∧
    six d 3 = d.extractLsb' 0 6) ∧
  (∀ B0 B1 B2 : Byte,
    (six (B0 ++ B1 ++ B2) 0).toNat = B0.toNat / 4 ∧
    (six (B0 ++ B1 ++ B2) 1).toNat = B0.toNat % 4 * 16 + B1.toNat / 16 ∧
    (six (B0 ++ B1 ++ B2) 2).toNat = B1.toNat % 16 * 4 + B2.toNat / 64 ∧
    (six (B0 ++ B1 ++ B2) 3).toNat = B2.toNat % 64) ∧
  (∀ d : Triplet,
    d = ((six d 0).setWidth 24 <<< 18) ||| ((six d 1).setWidth 24 <<< 12)
      ||| ((six d 2).setWidth 24 <<< 6) ||| (six d 3).setWidth 24)

/-- R107 with R105, R106: TA.ENC g answers the code of the symbol of the field, `TA.valid` not looked
at, and never `=`. -/
def Obligations.TaEncMapsField : Prop :=
  (∀ (s : State) (g : BitVec 2), s.Running →
    exec (.taEnc g) s = .next (Claims.answered s
      ((symbol (s.ta.data.toNat / 2 ^ (18 - 6 * g.toNat) % 64)).setWidth 64))) ∧
  (∀ n, n < 64 → symbol n ≠ 0x3D) ∧
  (∀ (p : Params) (g : BitVec 2) (opd : DataWord) (opa opc : Nat),
    decode p ⟨Claims.word 0x2400 0 g, opd, opa, opc⟩ = .ok (.taEnc g)) ∧
  Claims.IllegalWhen 0x24 (fun cw => cwWidth cw ≠ 0 ∨ cwReserved cw ≠ 0)

/-- R108 with R109: TA.ENCP g answers the character of TA.ENC g if `dep(g) < TA.valid`, and `=`
otherwise; `dep(0) = 0` and `dep(g) = g - 1` for the others. -/
def Obligations.TaEncpPads : Prop :=
  (∀ (s : State) (g : BitVec 2), s.Running →
    exec (.taEncp g) s = .next (Claims.answered s
      (if (if g = 0 then 0 else g.toNat - 1) < s.ta.valid.toNat
        then (symbol (s.ta.data.toNat / 2 ^ (18 - 6 * g.toNat) % 64)).setWidth 64
        else 0x3D))) ∧
  (∀ (p : Params) (g : BitVec 2) (opd : DataWord) (opa opc : Nat),
    decode p ⟨Claims.word 0x2500 0 g, opd, opa, opc⟩ = .ok (.taEncp g)) ∧
  Claims.IllegalWhen 0x25 (fun cw => cwWidth cw ≠ 0 ∨ cwReserved cw ≠ 0)

/-- R110, R111: which of the four TA.ENCP commands answer `=`, by `TA.valid`, and that the others answer
what TA.ENC does. -/
def Obligations.PadsFollowValidCount : Prop :=
  ∀ (s : State) (g : BitVec 2), s.Running → ∃ t u,
    exec (.taEncp g) s = .next t ∧ exec (.taEnc g) s = .next u ∧ u.rsp.val ≠ 0x3D ∧
    (s.ta.valid = 0 → t.rsp.val = 0x3D) ∧
    (s.ta.valid = 1 → (g ∈ [2#2, 3#2] → t.rsp.val = 0x3D) ∧ (g ∈ [0#2, 1#2] → t = u)) ∧
    (s.ta.valid = 2 → (g = 3 → t.rsp.val = 0x3D) ∧ (g ≠ 3 → t = u)) ∧
    (s.ta.valid = 3 → t = u)

/-! ### The WCA unit -/

/-- R120: WCA.NEW w makes a fresh accumulator for width `w`, throwing carried bytes away. -/
def Obligations.WcaNewMakesInstance : Prop :=
  (∀ (s : State) (w : BitVec 4), s.Running → w ∈ [2#4, 4#4, 8#4] →
    exec (.wcaNew w) s = .next (Claims.answered { s with wca :=
      { wsel := w, sv := #v[0, 0, 0, 0, 0, 0, 0, 0], rb := #v[0, 0], rem := 0, vbc := 0 } } 0)) ∧
  (∀ (s : State) (w : BitVec 4), s.Running → w ∉ [2#4, 4#4, 8#4] →
    exec (.wcaNew w) s = .next (Claims.faultedState s 2)) ∧
  (∀ (p : Params) (w : BitVec 4) (opd : DataWord) (opa opc : Nat),
    decode p ⟨Claims.word 0x3000 w 0, opd, opa, opc⟩ = .ok (.wcaNew w)) ∧
  Claims.IllegalWhen 0x30 (fun cw => cwReserved cw ≠ 0 ∨ cwSmall cw ≠ 0)

/-- The bytes not yet handed out, in stream order: `s = c ++ e` of R121, `c` the carried bytes and `e`
the normalized element. -/
def Sys2Proof.Claims.notHandedOut (u : WCA) (opd : DataWord) : List Byte :=
  u.rb.toList.take u.rem.toNat ++ bon (opd.toNat % 2 ^ (8 * u.wsel.toNat)) u.wsel.toNat

/-- `win_j` of R121, 0 for `j >= t` (R42). -/
def Sys2Proof.Claims.winAt (q : List Byte) (j : Nat) : Triplet :=
  if j < q.length / 3 then pack3 [q.getD (3 * j) 0, q.getD (3 * j + 1) 0, q.getD (3 * j + 2) 0] else 0

/-- `RSP.wv_j` of R122, 0 for `j >= t` (R42). -/
def Sys2Proof.Claims.countAt (q : List Byte) (j : Nat) : BitVec 2 := if j < q.length / 3 then 3 else 0

/-- R122 with R121: WCA.LOAD hands out the complete triplets of carried bytes and element, carries the
rest, and always takes the element. -/
def Obligations.WcaLoadCarries : Prop :=
  (∀ (s : State) (opd : DataWord), s.Running → s.wca.Inv → s.wca.wsel ≠ 0 →
    let q := Claims.notHandedOut s.wca opd
    exec (.wcaLoad opd) s = .next { s with
      wca :=
        { wsel := s.wca.wsel
          rb := #v[q.getD (3 * (q.length / 3)) 0, q.getD (3 * (q.length / 3) + 1) 0]
          rem := BitVec.ofNat 2 (q.length % 3)
          sv := padTo8 (q.take s.wca.wsel.toNat)
          vbc := s.wca.wsel }
      rsp :=
        { fault := false, cause := 0, val := 0, nwin := BitVec.ofNat 2 (q.length / 3)
          win0 := Claims.winAt q 0, win1 := Claims.winAt q 1, win2 := Claims.winAt q 2
          wv0 := Claims.countAt q 0, wv1 := Claims.countAt q 1, wv2 := Claims.countAt q 2
          consumed := 1 } } ∧ q.length / 3 ≤ 3) ∧
  (∀ (s : State) (opd : DataWord), s.Running → s.wca.wsel = 0 →
    exec (.wcaLoad opd) s = .next (Claims.faultedState s 4)) ∧
  (∀ (p : Params) (opd : DataWord) (opa opc : Nat),
    decode p ⟨0x3100, opd, opa, opc⟩ = .ok (.wcaLoad opd)) ∧
  Claims.IllegalWhen 0x31 (fun cw => cwWidth cw ≠ 0 ∨ cwReserved cw ≠ 0 ∨ cwSmall cw ≠ 0)

/-- One row of R123: in a state with that width and that carry, a load gives `nwin` windows, leaves
`rem'` bytes carried, and these are the last bytes of the element. -/
def Sys2Proof.Claims.CarryRow (W : BitVec 4) (rem : BitVec 2) (nwin rem' : BitVec 2) : Prop :=
  ∀ (s : State) (opd : DataWord), s.Running → s.wca.wsel = W → s.wca.rem = rem →
    ∃ t, exec (.wcaLoad opd) s = .next t ∧ t.fault = false ∧ t.rsp.nwin = nwin ∧
      t.wca.rem = rem' ∧ t.wca.wsel = W ∧
      t.wca.rb.toList.take rem'.toNat =
        (bon (opd.toNat % 2 ^ (8 * W.toNat)) W.toNat).drop (W.toNat - rem'.toNat)

/-- R123: the carry step by width and carry, and the carry and the windows handed out after `n` loads from a
fresh or flushed state. With R29 (d): the carried bytes are the last ones of the stream so far, and the
windows are those of the bytes before them. -/
def Obligations.CarryStepByWidth : Prop :=
  (Claims.CarryRow 2 0 0 2 ∧ Claims.CarryRow 2 1 1 0 ∧ Claims.CarryRow 2 2 1 1) ∧
  (Claims.CarryRow 4 0 1 1 ∧ Claims.CarryRow 4 1 1 2 ∧ Claims.CarryRow 4 2 2 0) ∧
  (Claims.CarryRow 8 0 2 2 ∧ Claims.CarryRow 8 1 3 0 ∧ Claims.CarryRow 8 2 3 1) ∧
  (∀ (s : State) (vs : List DataWord), s.Running → s.wca.wsel ∈ [2#4, 4#4, 8#4] → s.wca.rem = 0 →
    let S := byteStream s.wca.wsel.toNat (vs.map fun v => v.toNat % 2 ^ (8 * s.wca.wsel.toNat))
    ∃ ws t, driveLoads vs s = some (ws, t) ∧ t.wca.wsel = s.wca.wsel ∧
      t.wca.rem.toNat = vs.length * s.wca.wsel.toNat % 3 ∧
      ws.length = vs.length * s.wca.wsel.toNat / 3 ∧
      ws = windowsOf (S.take (3 * (S.length / 3))) ∧
      t.wca.rb.toList.take t.wca.rem.toNat = S.drop (3 * (S.length / 3)))

/-- R124: WCA.FLUSH hands out the carried bytes as one short window, or nothing, and leaves nothing
carried. -/
def Obligations.WcaFlushDrains : Prop :=
  (∀ s : State, s.Running → s.wca.wsel ≠ 0 →
    let c := s.wca.rb.toList.take s.wca.rem.toNat
    exec .wcaFlush s = .next { s with
      wca := { wsel := s.wca.wsel, rb := #v[0, 0], rem := 0, sv := padTo8 c,
               vbc := s.wca.rem.setWidth 4 }
      rsp :=
        if s.wca.rem = 0 then Claims.oneWindow 0 0 0 0
        else Claims.oneWindow 1 (pack3 c) s.wca.rem 0 }) ∧
  (∀ s : State, s.Running → s.wca.wsel = 0 →
    exec .wcaFlush s = .next (Claims.faultedState s 4)) ∧
  (∀ (p : Params) (opd : DataWord) (opa opc : Nat),
    decode p ⟨0x3200, opd, opa, opc⟩ = .ok .wcaFlush) ∧
  Claims.IllegalWhen 0x32 (fun cw => cwWidth cw ≠ 0 ∨ cwReserved cw ≠ 0 ∨ cwSmall cw ≠ 0)

/-- R125: the consumption signal is 1 for every WCA.LOAD that does not fault, 0 for every WCA.FLUSH, and
a command that faults consumes nothing. -/
def Obligations.ConsumptionSignal : Prop :=
  ∀ (s t : State) (opd : DataWord), s.Running →
    (exec (.wcaLoad opd) s = .next t → t.rsp.consumed = if t.fault then 0 else 1) ∧
    (exec .wcaFlush s = .next t → t.rsp.consumed = 0) ∧
    (∀ i : Instr, exec i s = .next t → t.fault = true → t.rsp.consumed = 0)

/-- R126: zero gaps. From a fresh or flushed WCA, one load per element and one flush hand out exactly the
windows of the logical byte stream, `ceil(n*W/3)` of them. -/
def Obligations.WcaStreamHasNoGaps : Prop :=
  ∀ (s : State) (vs : List DataWord), s.Running → s.wca.wsel ∈ [2#4, 4#4, 8#4] → s.wca.rem = 0 →
    let S := byteStream s.wca.wsel.toNat (vs.map fun v => v.toNat % 2 ^ (8 * s.wca.wsel.toNat))
    ∃ u, driveWca vs s = some (windowsOf S, u) ∧ u.wca.rem = 0 ∧
      S.length = vs.length * s.wca.wsel.toNat ∧
      (windowsOf S).length = (S.length + 2) / 3 ∧
      ∀ m, m < (windowsOf S).length → (windowsOf S)[m]? =
        some ⟨pack3 ((S.drop (3 * m)).take 3), BitVec.ofNat 2 (min 3 (S.length - 3 * m))⟩

/-! ### The W2 unit -/

/-- R140: W2.NEW makes W2 fresh. -/
def Obligations.W2NewMakesFresh : Prop :=
  (∀ s : State, s.Running →
    exec .w2New s =
      .next (Claims.answered { s with w2 := { first := 0, second := 0, has := false } } 0)) ∧
  (∀ (p : Params) (opd : DataWord) (opa opc : Nat),
    decode p ⟨0x4000, opd, opa, opc⟩ = .ok .w2New) ∧
  Claims.IllegalWhen 0x40 (fun cw => cwWidth cw ≠ 0 ∨ cwReserved cw ≠ 0 ∨ cwSmall cw ≠ 0)

/-- R141: the five cases of W2.LOAD and its two faults. -/
def Obligations.W2LoadCases : Prop :=
  (∀ (s : State) (c : BitVec 2) (opd : DataWord), s.Running →
    let E0 := opd.extractLsb' 0 16
    let E1 := opd.extractLsb' 16 16
    let lo2 := s.w2.second.extractLsb' 0 8
    (s.w2.has = true → c = 1 ∨ c = 2 → exec (.w2Load c opd) s = .next { s with
      w2 := { first := E0, second := s.w2.second, has := false }
      rsp := Claims.oneWindow 1 (pack3 [lo2, E0.extractLsb' 8 8, E0.extractLsb' 0 8]) 3 1 }) ∧
    (s.w2.has = true → c = 0 → exec (.w2Load c opd) s = .next { s with
      w2 := { first := s.w2.first, second := s.w2.second, has := false }
      rsp := Claims.oneWindow 1 (pack3 [lo2]) 1 0 }) ∧
    (s.w2.has = false → c = 2 → exec (.w2Load c opd) s = .next { s with
      w2 := { first := E0, second := E1, has := true }
      rsp := Claims.oneWindow 1
        (pack3 [E0.extractLsb' 8 8, E0.extractLsb' 0 8, E1.extractLsb' 8 8]) 3 2 }) ∧
    (s.w2.has = false → c = 1 → exec (.w2Load c opd) s = .next { s with
      w2 := { first := E0, second := 0, has := false }
      rsp := Claims.oneWindow 1 (pack3 [E0.extractLsb' 8 8, E0.extractLsb' 0 8]) 2 1 }) ∧
    (s.w2.has = false → c = 0 → exec (.w2Load c opd) s = .next { s with
      rsp := Claims.oneWindow 0 0 0 0 }) ∧
    (c = 3 → exec (.w2Load c opd) s = .next (Claims.faultedState s 3))) ∧
  (∀ (p : Params) (c : BitVec 2) (opd : DataWord) (opa opc : Nat),
    decode p ⟨Claims.word 0x4100 0 c, opd, opa, opc⟩ = .ok (.w2Load c opd)) ∧
  Claims.IllegalWhen 0x41 (fun cw => cwWidth cw ≠ 0 ∨ cwReserved cw ≠ 0)

/-- R146: zero gaps for W2 driven as R145 says. -/
def Obligations.W2StreamHasNoGaps : Prop :=
  ∀ (s : State) (es : List (BitVec 16)), s.Running → s.w2.has = false →
    let S := byteStream 2 (es.map BitVec.toNat)
    ∃ u, driveW2 (es.length + 1) es s = some (windowsOf S, u) ∧ u.w2.has = false ∧
      S.length = 2 * es.length ∧ (windowsOf S).length = (2 * es.length + 2) / 3

/-- R144: driven over the same elements, a W2 and a WCA of width 2 hand out the same windows. -/
def Obligations.W2AgreesWithWca : Prop :=
  ∀ (s r : State) (es : List (BitVec 16)), s.Running → r.Running → s.w2.has = false →
    r.wca.wsel = 2 → r.wca.rem = 0 →
      ∃ ws u v, driveW2 (es.length + 1) es s = some (ws, u) ∧
        driveWca (es.map (BitVec.setWidth 64)) r = some (ws, v)

/-! ### The sequencer -/

/-- R157: a run that passes its checks completes, and OB is the Base64 text of its elements' bytes, each
element most significant byte first, in element order. Every other register is as R38 to R41, R47 and
R156 say; the input memory is untouched. -/
def Obligations.RunEncodesElements : Prop :=
  ∀ (s : State) (w : BitVec 4) (data count : Nat), s.Running → RunFits s w data count →
    ∃ vs t, HoldsElements s w.toNat data count vs ∧
      exec (.b64Run w data count) s = .next t ∧
      t.sd = { w := w, data := data, count := count, cur := count,
               opos := (count * w.toNat + 2) / 3 * 4, oblen := (count * w.toNat + 2) / 3 * 4,
               ob := base64Text (byteStream w.toNat vs) } ∧
      t.sd.ob.length = t.sd.oblen ∧
      (t.sd.oblen < 2 ^ 64 →
        t.rsp = { Response.quiet with val := BitVec.ofNat 64 t.sd.oblen }) ∧
      t.fault = false ∧ t.cause = s.cause ∧ t.params = s.params ∧ t.mem = s.mem ∧
      t.pending = s.pending

/-- R158: a run leaves TA and the carry unit of its width exactly as the host leaves them by issuing the
commands of R151 to R155 one after another, and the characters the host collects are the contents of
OB. -/
def Obligations.RunIsItsCommandSequence : Prop :=
  ∀ (s : State) (w : BitVec 4) (data count : Nat) (vs : List Nat), s.Running →
    RunFits s w data count → HoldsElements s w.toNat data count vs →
      ∃ t u, exec (.b64Run w data count) s = .next t ∧
        handRun w vs s = some (u, t.sd.ob) ∧ t.ta = u.ta ∧ t.wca = u.wca ∧ t.w2 = u.w2

/-- R158, its "in particular": after a run the carry unit it used holds nothing, the other is unchanged,
and TA holds the last window emitted, or is fresh after an empty run. -/
def Obligations.RunLeavesUnitsDrained : Prop :=
  ∀ (s : State) (w : BitVec 4) (data count : Nat) (vs : List Nat), s.Running →
    RunFits s w data count → HoldsElements s w.toNat data count vs →
      ∃ t, exec (.b64Run w data count) s = .next t ∧
        (w = 1 → t.wca = s.wca ∧ t.w2 = s.w2) ∧
        (w = 2 → t.wca = s.wca ∧ t.w2.has = false) ∧
        (w = 4 ∨ w = 8 → t.w2 = s.w2 ∧ t.wca.wsel = w ∧ t.wca.rem = 0 ∧ t.wca.rb = #v[0, 0]) ∧
        (count = 0 → t.ta = { data := 0, valid := 0 }) ∧
        ∀ win, (windowsOf (byteStream w.toNat vs)).getLast? = some win →
          t.ta = { data := win.data, valid := win.count }

/-- R162: the padding law. The output length is a multiple of 4, and `=` stands exactly in the last two
places for a remainder of 1 byte, in the last place for 2, nowhere for 0. -/
def Obligations.PaddingLaw : Prop :=
  ∀ (s : State) (w : BitVec 4) (data count : Nat), s.Running → RunFits s w data count →
    ∃ t, exec (.b64Run w data count) s = .next t ∧ t.sd.ob.length % 4 = 0 ∧
      ∀ j, j < t.sd.ob.length → (t.sd.ob[j]? = some 0x3D ↔
        (count * w.toNat % 3 = 1 ∧ t.sd.ob.length ≤ j + 2) ∨
        (count * w.toNat % 3 = 2 ∧ t.sd.ob.length ≤ j + 1))

/-- R163: empty input gives empty output, whatever the address, and is no fault; TA and the carry unit of the
width are fresh. -/
def Obligations.EmptyRun : Prop :=
  ∀ (s : State) (w : BitVec 4) (data : Nat), s.Running → w ∈ [1#4, 2#4, 4#4, 8#4] →
    data < 2 ^ s.params.addrBits →
      ∃ t, exec (.b64Run w data 0) s = .next t ∧ t.fault = false ∧
        t.sd.oblen = 0 ∧ t.sd.ob = [] ∧ t.rsp = { Response.quiet with val := 0 } ∧
        t.ta = { data := 0, valid := 0 } ∧
        (w = 2 → t.w2 = { first := 0, second := 0, has := false }) ∧
        (w = 4 ∨ w = 8 → t.wca =
          { wsel := w, sv := #v[0, 0, 0, 0, 0, 0, 0, 0], rb := #v[0, 0], rem := 0, vbc := 0 })

/-- R63: two runs that do not fault give the same characters exactly when their byte streams are equal,
whatever their widths, straps and memories. -/
def Obligations.WidthInvariance : Prop :=
  ∀ (s₁ s₂ : State) (w₁ w₂ : BitVec 4) (d₁ n₁ d₂ n₂ : Nat) (vs₁ vs₂ : List Nat),
    s₁.Running → s₂.Running → RunFits s₁ w₁ d₁ n₁ → RunFits s₂ w₂ d₂ n₂ →
    HoldsElements s₁ w₁.toNat d₁ n₁ vs₁ → HoldsElements s₂ w₂.toNat d₂ n₂ vs₂ →
      ∃ t₁ t₂, exec (.b64Run w₁ d₁ n₁) s₁ = .next t₁ ∧ exec (.b64Run w₂ d₂ n₂) s₂ = .next t₂ ∧
        (t₁.sd.ob = t₂.sd.ob ↔ byteStream w₁.toNat vs₁ = byteStream w₂.toNat vs₂)

/-- R63, on a big-endian host: the same bytes of IN viewed at another width give the same characters. -/
def Obligations.BigEndianViewsAgree : Prop :=
  ∀ (s : State) (w : BitVec 4) (data count : Nat), s.Running → s.params.hostEndian = .big →
    RunFits s w data count →
      ∃ t u, exec (.b64Run w data count) s = .next t ∧
        exec (.b64Run 1 data (count * w.toNat)) s = .next u ∧ t.sd.ob = u.sd.ob

/-- R185: one input buffer can be split between two runs exactly when the first part has a byte length
that is a multiple of 3, or the second part is empty. -/
def Obligations.SplitOnlyAtTriplets : Prop :=
  ∀ (s : State) (w : BitVec 4) (data n₁ n₂ : Nat), s.Running → RunFits s w data (n₁ + n₂) →
    ∃ t t₁ t₂, exec (.b64Run w data (n₁ + n₂)) s = .next t ∧
      exec (.b64Run w data n₁) s = .next t₁ ∧
      exec (.b64Run w (data + n₁ * w.toNat) n₂) s = .next t₂ ∧
      (t.sd.ob = t₁.sd.ob ++ t₂.sd.ob ↔ n₁ * w.toNat % 3 = 0 ∨ n₂ = 0)

/-! ### Memory -/

/-- R52: `MemRead` gives the little- or big-endian reading of the bytes, aligned or not, and raises
`ACCESS` if a byte is not readable. -/
def Obligations.MemReadValue : Prop :=
  ∀ (s : State) (a n : Nat),
    (∀ M : Nat → Byte, (∀ k, k < n → readByte s.mem (a + k) = some (M k)) →
      (s.params.hostEndian = .little →
        memRead s a n = .ok ((List.range n).map fun k => (M k).toNat <<< (8 * k)).sum) ∧
      (s.params.hostEndian = .big →
        memRead s a n = .ok ((List.range n).map fun k => (M k).toNat <<< (8 * (n - 1 - k))).sum)) ∧
    ((∃ k, k < n ∧ readByte s.mem (a + k) = none) → memRead s a n = .error .access)

/-- R56: with the strap little the canonical bytes of an element are its memory bytes reversed, with the
strap big they are as they lie. -/
def Obligations.CanonicalBytesOfImage : Prop :=
  ∀ (s : State) (a n v : Nat) (m : List Byte), readBytes s.mem a n = some m → memRead s a n = .ok v →
    bon v n = match s.params.hostEndian with
      | .little => m.reverse
      | .big => m

/-! ### What a command does not touch and does not see -/

/-- The column "TA" of R47. -/
def Sys2Proof.Claims.writesTa : Instr → Bool
  | .taNew | .taLoad _ _ | .b64Run _ _ _ => true
  | _ => false

/-- The column "WCA.WSEL" of R47. -/
def Sys2Proof.Claims.writesWsel : Instr → Bool
  | .wcaNew _ => true
  | .b64Run w _ _ => w == 4 || w == 8
  | _ => false

/-- The other WCA columns of R47. -/
def Sys2Proof.Claims.writesWca : Instr → Bool
  | .wcaNew _ | .wcaLoad _ | .wcaFlush => true
  | .b64Run w _ _ => w == 4 || w == 8
  | _ => false

/-- The W2 columns of R47. -/
def Sys2Proof.Claims.writesW2 : Instr → Bool
  | .w2New | .w2Load _ _ => true
  | .b64Run w _ _ => w == 2
  | _ => false

/-- The last column of R47. -/
def Sys2Proof.Claims.writesSd : Instr → Bool
  | .b64Run _ _ _ => true
  | _ => false

/-- R47, the writes: a command leaves every register its row does not mark `w`, and every byte of the
input memory, as it was. -/
def Obligations.CommandsWriteOnlyTheirRow : Prop :=
  ∀ (i : Instr) (s t : State), exec i s = .next t →
    (Claims.writesTa i = false → t.ta = s.ta) ∧
    (Claims.writesWsel i = false → t.wca.wsel = s.wca.wsel) ∧
    (Claims.writesWca i = false → t.wca = s.wca) ∧
    (Claims.writesW2 i = false → t.w2 = s.w2) ∧
    (Claims.writesSd i = false → t.sd = s.sd) ∧
    t.params = s.params ∧ t.pending = s.pending ∧ t.mem = s.mem ∧
    (∀ a, readByte t.mem a = readByte s.mem a) ∧
    (t.fault = false → t.cause = s.cause ∧ s.fault = false)

/-- The column "TA.data" of R47, the commands marked `r`. -/
def Sys2Proof.Claims.readsTaData : Instr → Bool
  | .taX6 _ | .taEnc _ | .taEncp _ => true
  | _ => false

/-- The column "TA.valid" of R47, the commands marked `r`. -/
def Sys2Proof.Claims.readsTaValid : Instr → Bool
  | .taValid _ | .taEncp _ => true
  | _ => false

/-- The column "WCA.WSEL" of R47, the commands marked `r`. -/
def Sys2Proof.Claims.readsWsel : Instr → Bool
  | .wcaLoad _ | .wcaFlush => true
  | _ => false

/-- The columns "WCA.rb" and "WCA.rem" of R47, the commands marked `r`. -/
def Sys2Proof.Claims.readsCarry : Instr → Bool
  | .wcaLoad _ | .wcaFlush => true
  | .b64Run w _ _ => w == 4 || w == 8
  | _ => false

/-- The columns "W2.second" and "W2.has" of R47, the commands marked `r`. -/
def Sys2Proof.Claims.readsW2 : Instr → Bool
  | .w2Load _ _ => true
  | .b64Run w _ _ => w == 2
  | _ => false

/-- A register is left alone in both of two executions, or both leave the same in it. -/
def Sys2Proof.Claims.SameWrite {α : Type} (f : State → α) (s t s' t' : State) : Prop :=
  (f t = f s ∧ f t' = f s') ∨ f t = f t'

/-- R47, the reads, with R45: two states that agree on `FAULT`, `CAUSE`, the parameters, the input memory and
every register the command's row marks `r` give the same response, the same `FAULT` and `CAUSE`, and
the same value to every register that is written. -/
def Obligations.CommandsReadOnlyTheirRow : Prop :=
  ∀ (i : Instr) (s t s' t' : State),
    s.fault = s'.fault → s.cause = s'.cause → s.params = s'.params → s.mem = s'.mem →
    (Claims.readsTaData i = true → s.ta.data = s'.ta.data) →
    (Claims.readsTaValid i = true → s.ta.valid = s'.ta.valid) →
    (Claims.readsWsel i = true → s.wca.wsel = s'.wca.wsel) →
    (Claims.readsCarry i = true → s.wca.rb = s'.wca.rb ∧ s.wca.rem = s'.wca.rem) →
    (Claims.readsW2 i = true → s.w2.second = s'.w2.second ∧ s.w2.has = s'.w2.has) →
    exec i s = .next t → exec i s' = .next t' →
      t.rsp = t'.rsp ∧ t.fault = t'.fault ∧ t.cause = t'.cause ∧
      Claims.SameWrite (·.ta) s t s' t' ∧
      Claims.SameWrite (·.wca.wsel) s t s' t' ∧ Claims.SameWrite (·.wca.sv) s t s' t' ∧
      Claims.SameWrite (·.wca.rb) s t s' t' ∧ Claims.SameWrite (·.wca.rem) s t s' t' ∧
      Claims.SameWrite (·.wca.vbc) s t s' t' ∧
      Claims.SameWrite (·.w2.first) s t s' t' ∧ Claims.SameWrite (·.w2.second) s t s' t' ∧
      Claims.SameWrite (·.w2.has) s t s' t' ∧
      Claims.SameWrite (·.sd) s t s' t'

/-- R42: a later command cannot read an earlier response. -/
def Obligations.ResponseIsNotRead : Prop :=
  ∀ (i : Instr) (s : State) (r : Response), exec i { s with rsp := r } = exec i s

/-- R76: bits of `OPD` that the command's layout does not list are ignored, and so are the operand
signals a command does not use. -/
def Obligations.UnlistedOperandBitsIgnored : Prop :=
  ∀ (s : State) (opd opd' : DataWord),
    (∀ w : BitVec 4, opd.toNat % 2 ^ (8 * w.toNat) = opd'.toNat % 2 ^ (8 * w.toNat) →
      exec (.bonNorm w opd) s = exec (.bonNorm w opd') s ∧
      exec (.bonDenorm w opd) s = exec (.bonDenorm w opd') s) ∧
    (∀ n : BitVec 2,
      (∀ k, k < n.toNat → opd.extractLsb' (16 - 8 * k) 8 = opd'.extractLsb' (16 - 8 * k) 8) →
        exec (.taLoad n opd) s = exec (.taLoad n opd') s) ∧
    (opd.toNat % 2 ^ (8 * s.wca.wsel.toNat) = opd'.toNat % 2 ^ (8 * s.wca.wsel.toNat) →
      exec (.wcaLoad opd) s = exec (.wcaLoad opd') s) ∧
    (∀ c : BitVec 2,
      (c ≠ 0 → opd.extractLsb' 0 16 = opd'.extractLsb' 0 16) →
      (c = 2 → s.w2.has = false → opd.extractLsb' 16 16 = opd'.extractLsb' 16 16) →
        exec (.w2Load c opd) s = exec (.w2Load c opd') s) ∧
    (∀ (p : Params) (c c' : Command) (i : Instr), c.cw = c'.cw → decode p c = .ok i →
      (match i with
        | .bonNorm _ _ | .bonDenorm _ _ | .taLoad _ _ | .wcaLoad _ | .w2Load _ _ => c.opd = c'.opd
        | .b64Run _ _ _ => c.opa = c'.opa ∧ c.opc = c'.opc
        | _ => True) → decode p c' = .ok i)

/-- The state without the registers that R25, R28 and R143 say no command reads: `WCA.sv`, `WCA.vbc`,
`W2.first`, and `W2.second` but for its low byte while `W2.has` is set. -/
def Sys2Proof.Claims.forgetUnread (s : State) : State :=
  { s with
    wca := { s.wca with sv := #v[0, 0, 0, 0, 0, 0, 0, 0], vbc := 0 }
    w2 := { s.w2 with
      first := 0, second := bif s.w2.has then s.w2.second &&& 0x00FF else 0 } }

/-- R25, R28, R143: no response and no other register depends on `WCA.sv`, `WCA.vbc`, `W2.first`, or on
`W2.second` but for the leftover byte. -/
def Obligations.UnreadRegistersDoNotMatter : Prop :=
  ∀ (i : Instr) (s t : State), Claims.forgetUnread s = Claims.forgetUnread t →
    mapNext Claims.forgetUnread (exec i s) = mapNext Claims.forgetUnread (exec i t)

/-- R35, R52: the strap `HOST_ENDIAN` is read by runs of width 2, 4 and 8 only. -/
def Obligations.StrapReadByWideRunsOnly : Prop :=
  ∀ (i : Instr) (s : State) (e : Endian),
    (∀ w data count, i = .b64Run w data count → w ∉ [2#4, 4#4, 8#4]) →
      exec i { s with params := { s.params with hostEndian := e } } =
        mapNext (fun t => { t with params := { t.params with hostEndian := e } }) (exec i s)

/-- R54: a run reads no byte outside `DATA .. DATA + COUNT*w - 1`: memories that agree there give the
same run. No other command reads the memory at all. -/
def Obligations.RunReadsOnlyItsRange : Prop :=
  (∀ (s : State) (m : Memory) (w : BitVec 4) (data count : Nat),
    (∀ a, data ≤ a → a < data + count * w.toNat → readByte m a = readByte s.mem a) →
      exec (.b64Run w data count) { s with mem := m } =
        mapNext (fun t => { t with mem := m }) (exec (.b64Run w data count) s)) ∧
  (∀ (i : Instr) (s : State) (m : Memory), (∀ w data count, i ≠ .b64Run w data count) →
    exec i { s with mem := m } = mapNext (fun t => { t with mem := m }) (exec i s))

/-- R105, R106: the alphabet's codes by index, which are 64 different codes, none of them `=`; every
character the block answers or writes to OB is one of the 65. -/
def Obligations.CharactersAreOutputCodes : Prop :=
  (∀ i : BitVec 6, alphaCode i = symbol i.toNat) ∧
  (∀ i j : BitVec 6, alphaCode i = alphaCode j → i = j) ∧
  (∀ i : BitVec 6, alphaCode i ≠ 0x3D) ∧
  (∀ (t : TA) (g : BitVec 2), outputCode (taEnc t g) = true ∧ outputCode (taEncp t g) = true) ∧
  (∀ (s t : State) (w : BitVec 4) (data count : Nat), s.Running →
    exec (.b64Run w data count) s = .next t → t.fault = false →
      ∀ ch ∈ t.sd.ob, outputCode ch = true)
end

