-- ==== Sys2Proof/Laws/Bytes.lean ====
section
/-! SUPPORT. The laws of byte order and packing: `bon` and `den` are inverse, the two readings of a
memory image, `pack3` as a concatenation, the fields of a triplet, the symbols. -/

namespace Sys2Proof.Machine

/-! ### BON and DEN (40_byte_order_normalizer.md R90, R93) -/

@[simp] theorem bon_length (v W : Nat) : (bon v W).length = W := by simp [bon]

@[simp] theorem bon_zero (v : Nat) : bon v 0 = [] := rfl

theorem bon_succ (v W : Nat) : bon v (W + 1) = BitVec.ofNat 8 (v >>> (8 * W)) :: bon v W := by
  rw [bon, List.range_succ_eq_map, List.map_cons, List.map_map]
  congr 1
  refine List.map_congr_left fun k hk => ?_
  have := List.mem_range.1 hk
  simp only [Function.comp, byteOf]
  congr 3; omega

theorem byteOf_toNat (v W k : Nat) : (byteOf v W k).toNat = v / 2 ^ (8 * (W - 1 - k)) % 256 := by
  simp [byteOf, Nat.shiftRight_eq_div_pow]

theorem den_nil : den [] = 0 := rfl

theorem den_cons (b : Byte) (bs : List Byte) :
    den (b :: bs) = b.toNat * 2 ^ (8 * bs.length) + den bs := by
  rw [den, Nat.shiftLeft_eq]

theorem den_lt (b : List Byte) : den b < 2 ^ (8 * b.length) := by
  induction b with
  | nil => simp [den]
  | cons b bs ih =>
    rw [den_cons, List.length_cons, Nat.mul_succ, Nat.pow_add]
    have := b.isLt
    calc b.toNat * 2 ^ (8 * bs.length) + den bs
        < b.toNat * 2 ^ (8 * bs.length) + 2 ^ (8 * bs.length) := by omega
      _ = (b.toNat + 1) * 2 ^ (8 * bs.length) := by ring
      _ ≤ 2 ^ 8 * 2 ^ (8 * bs.length) := Nat.mul_le_mul_right _ (by omega)
      _ = 2 ^ (8 * bs.length) * 2 ^ 8 := Nat.mul_comm _ _

theorem den_append (a b : List Byte) : den (a ++ b) = den a * 2 ^ (8 * b.length) + den b := by
  induction a with
  | nil => simp [den]
  | cons x xs ih =>
    rw [List.cons_append, den_cons, den_cons, ih, List.length_append, Nat.mul_add, Nat.pow_add]
    ring

/-- `den` takes `bon` back, up to the width. -/
theorem den_bon_mod (v W : Nat) : den (bon v W) = v % 2 ^ (8 * W) := by
  induction W with
  | zero => simp [den, Nat.mod_one]
  | succ W ih =>
    rw [bon_succ, den_cons, ih, bon_length, BitVec.toNat_ofNat, Nat.shiftRight_eq_div_pow,
      Nat.mul_succ, Nat.pow_add, Nat.mod_mul]
    ring

theorem den_bon (v W : Nat) (h : v < 2 ^ (8 * W)) : den (bon v W) = v := by
  rw [den_bon_mod, Nat.mod_eq_of_lt h]

/-- `BON` sees the low `8W` bits only. -/
theorem bon_congr (u v W : Nat) (h : u % 2 ^ (8 * W) = v % 2 ^ (8 * W)) : bon u W = bon v W := by
  induction W with
  | zero => rfl
  | succ W ih =>
    have hd : ∀ x : Nat, BitVec.ofNat 8 (x >>> (8 * W)) =
        BitVec.ofNat 8 (x % 2 ^ (8 * (W + 1)) / 2 ^ (8 * W)) := fun x => by
      apply BitVec.eq_of_toNat_eq
      rw [BitVec.toNat_ofNat, BitVec.toNat_ofNat, Nat.shiftRight_eq_div_pow, Nat.mul_succ, Nat.pow_add,
        Nat.mod_mul_right_div_self, Nat.mod_mod]
    rw [bon_succ, bon_succ, hd u, hd v, h, ih]
    have e : ∀ x : Nat, x % 2 ^ (8 * W) = x % 2 ^ (8 * (W + 1)) % 2 ^ (8 * W) := fun x =>
      (Nat.mod_mod_of_dvd x (Nat.pow_dvd_pow 2 (by omega))).symm
    rw [e u, e v, h]

theorem bon_mod (v W : Nat) : bon (v % 2 ^ (8 * W)) W = bon v W :=
  bon_congr _ _ _ (Nat.mod_mod _ _)

theorem bon_den (b : List Byte) : bon (den b) b.length = b := by
  induction b with
  | nil => rfl
  | cons x xs ih =>
    have hlt := den_lt xs
    rw [List.length_cons, bon_succ]
    congr 1
    · apply BitVec.eq_of_toNat_eq
      rw [den_cons, Nat.shiftRight_eq_div_pow, BitVec.toNat_ofNat, Nat.add_comm,
        Nat.add_mul_div_right _ _ (Nat.two_pow_pos _), Nat.div_eq_of_lt hlt, Nat.zero_add]
      exact Nat.mod_eq_of_lt x.isLt
    · rw [bon_congr (den (x :: xs)) (den xs) xs.length, ih]
      rw [den_cons, Nat.mul_comm, Nat.mul_add_mod]

/-! ### The readings of a memory image (20_memory.md R52, R56) -/

theorem denLittle_eq_den_reverse (m : List Byte) : denLittle m = den m.reverse := by
  induction m with
  | nil => rfl
  | cons b bs ih =>
    rw [denLittle, List.reverse_cons, den_append, ih, Nat.shiftLeft_eq]
    simp [den, Nat.add_comm]

theorem nativeValue_lt (e : Endian) (m : List Byte) : nativeValue e m < 2 ^ (8 * m.length) := by
  cases e
  · rw [nativeValue, denLittle_eq_den_reverse]
    simpa using den_lt m.reverse
  · exact den_lt m

/-- The canonical bytes of an element, from its memory bytes. -/
theorem bon_nativeValue (e : Endian) (m : List Byte) :
    bon (nativeValue e m) m.length = match e with
      | .little => m.reverse
      | .big => m := by
  cases e
  · show bon (denLittle m) m.length = m.reverse
    rw [denLittle_eq_den_reverse, ← List.length_reverse, bon_den]
  · exact bon_den m

/-! ### Packing and cutting (00_scope.md section 6, R104) -/

theorem pack3_toNat (s : List Byte) :
    (pack3 s).toNat =
      (s.getD 0 0).toNat * 65536 + (s.getD 1 0).toNat * 256 + (s.getD 2 0).toNat := by
  have h : ∀ a b c : Byte,
      ((a.setWidth 24 <<< 16) ||| (b.setWidth 24 <<< 8) ||| c.setWidth 24 : Triplet).toNat =
        a.toNat * 65536 + b.toNat * 256 + c.toNat := fun a b c => by
    have ha := a.isLt
    have hb := b.isLt
    have hc := c.isLt
    have hab : (a.toNat <<< 16 ||| b.toNat <<< 8) = (a.toNat * 256 + b.toNat) <<< 8 := by
      rw [← Nat.shiftLeft_add_eq_or_of_lt (by rw [Nat.shiftLeft_eq]; omega), Nat.shiftLeft_eq,
        Nat.shiftLeft_eq, Nat.shiftLeft_eq]
      ring
    have e : ∀ x k : Nat, x < 256 → k ≤ 16 → x <<< k % 2 ^ 24 = x <<< k := fun x k hx hk => by
      rw [Nat.shiftLeft_eq]
      apply Nat.mod_eq_of_lt
      calc x * 2 ^ k < 256 * 2 ^ k := Nat.mul_lt_mul_of_pos_right hx (Nat.two_pow_pos k)
        _ ≤ 256 * 2 ^ 16 := Nat.mul_le_mul_left _ (Nat.pow_le_pow_right (by omega) hk)
    simp only [BitVec.toNat_or, BitVec.toNat_shiftLeft, BitVec.toNat_setWidth]
    rw [Nat.mod_eq_of_lt (a := a.toNat) (by omega), Nat.mod_eq_of_lt (a := b.toNat) (by omega),
      Nat.mod_eq_of_lt (a := c.toNat) (by omega), e _ _ ha (by omega), e _ _ hb (by omega), hab,
      ← Nat.shiftLeft_add_eq_or_of_lt hc, Nat.shiftLeft_eq]
    ring
  exact h _ _ _

/-- `pack3` is the concatenation of its three bytes, the first the most significant. -/
theorem pack3_eq_append (s : List Byte) :
    pack3 s = s.getD 0 0 ++ s.getD 1 0 ++ s.getD 2 0 := by
  have h1 := (s.getD 1 0).isLt
  have h2 := (s.getD 2 0).isLt
  apply BitVec.eq_of_toNat_eq
  rw [pack3_toNat, BitVec.toNat_append, BitVec.toNat_append, ← Nat.shiftLeft_add_eq_or_of_lt h2,
    ← Nat.shiftLeft_add_eq_or_of_lt h1, Nat.shiftLeft_eq, Nat.shiftLeft_eq]
  ring

/-- `pack3` looks at three bytes only. -/
theorem pack3_take (s : List Byte) : pack3 (s.take 3) = pack3 s := by
  rcases s with _ | ⟨a, _ | ⟨b, _ | ⟨c, s⟩⟩⟩ <;> rfl

theorem six_toNat (d : Triplet) (g : BitVec 2) :
    (six d g).toNat = d.toNat / 2 ^ (18 - 6 * g.toNat) % 64 := by
  simp [six, Nat.shiftRight_eq_div_pow]

/-- The byte form of the four fields (R104). -/
theorem six_pack3 (s : List Byte) :
    (six (pack3 s) 0).toNat = (s.getD 0 0).toNat / 4 ∧
    (six (pack3 s) 1).toNat = (s.getD 0 0).toNat % 4 * 16 + (s.getD 1 0).toNat / 16 ∧
    (six (pack3 s) 2).toNat = (s.getD 1 0).toNat % 16 * 4 + (s.getD 2 0).toNat / 64 ∧
    (six (pack3 s) 3).toNat = (s.getD 2 0).toNat % 64 := by
  have h0 := (s.getD 0 0).isLt
  have h1 := (s.getD 1 0).isLt
  have h2 := (s.getD 2 0).isLt
  have e : ∀ g : BitVec 2, (six (pack3 s) g).toNat = _ := fun g => six_toNat _ _
  rw [e, e, e, e, pack3_toNat]
  generalize (s.getD 0 0).toNat = a at *
  generalize (s.getD 1 0).toNat = b at *
  generalize (s.getD 2 0).toNat = c at *
  have t0 : (0 : BitVec 2).toNat = 0 := rfl
  have t1 : (1 : BitVec 2).toNat = 1 := rfl
  have t2 : (2 : BitVec 2).toNat = 2 := rfl
  have t3 : (3 : BitVec 2).toNat = 3 := rfl
  rw [t0, t1, t2, t3]
  norm_num
  omega

/-- A window's bytes, cut out of the triplet as the operand of TA.LOAD, are the bytes it was packed
from. -/
theorem tripletBytes_pack3 (s : List Byte) :
    tripletBytes (pack3 s) = [s.getD 0 0, s.getD 1 0, s.getD 2 0] := by
  have h0 := (s.getD 0 0).isLt
  have h1 := (s.getD 1 0).isLt
  have h2 := (s.getD 2 0).isLt
  have e : ∀ k, ((pack3 s).extractLsb' k 8).toNat = (pack3 s).toNat / 2 ^ k % 256 := fun k => by
    simp [BitVec.extractLsb'_toNat, Nat.shiftRight_eq_div_pow]
  simp only [tripletBytes, List.cons.injEq, and_true]
  refine ⟨BitVec.eq_of_toNat_eq ?_, BitVec.eq_of_toNat_eq ?_, BitVec.eq_of_toNat_eq ?_⟩ <;>
    rw [e, pack3_toNat] <;> omega

/-! ### Symbols (R105, R106) -/

theorem alphaCode_eq_symbol (i : BitVec 6) : alphaCode i = symbol i.toNat := by
  revert i; decide

theorem alphaCode_ne_pad (i : BitVec 6) : alphaCode i ≠ padCode := by
  revert i; decide

theorem outputCode_alphaCode (i : BitVec 6) : outputCode (alphaCode i) = true := by
  revert i; decide

theorem alphaCode_injective (i j : BitVec 6) (h : alphaCode i = alphaCode j) : i = j := by
  revert i j; decide

end Sys2Proof.Machine
end

