-- ==== Sys2Proof/Laws/Decode.lean ====
section
/-! SUPPORT. The fields of a command word, and what the decoder says of a word by its fields. -/

namespace Sys2Proof

@[simp] theorem cwOpcode_commandWord (op : BitVec 8) (w : BitVec 4) (k : BitVec 2) :
    cwOpcode (commandWord op w k) = op := by
  apply BitVec.eq_of_getLsbD_eq
  intro i hi
  simp only [cwOpcode, commandWord, BitVec.getLsbD_extractLsb', BitVec.getLsbD_append]
  simp [hi, show ¬ 8 + i < 2 by omega, show ¬ 8 + i - 2 < 2 by omega, show ¬ 8 + i - 2 - 2 < 4 by omega,
    show 8 + i - 2 - 2 - 4 = i by omega]

@[simp] theorem cwWidth_commandWord (op : BitVec 8) (w : BitVec 4) (k : BitVec 2) :
    cwWidth (commandWord op w k) = w := by
  apply BitVec.eq_of_getLsbD_eq
  intro i hi
  simp only [cwWidth, commandWord, BitVec.getLsbD_extractLsb', BitVec.getLsbD_append]
  simp [hi, show ¬ 4 + i < 2 by omega, show ¬ 4 + i - 2 < 2 by omega,
    show 4 + i - 2 - 2 = i by omega]

@[simp] theorem cwReserved_commandWord (op : BitVec 8) (w : BitVec 4) (k : BitVec 2) :
    cwReserved (commandWord op w k) = 0 := by
  apply BitVec.eq_of_getLsbD_eq
  intro i hi
  simp only [cwReserved, commandWord, BitVec.getLsbD_extractLsb', BitVec.getLsbD_append]
  simp [show ¬ 2 + i < 2 by omega]
  omega

@[simp] theorem cwSmall_commandWord (op : BitVec 8) (w : BitVec 4) (k : BitVec 2) :
    cwSmall (commandWord op w k) = k := by
  apply BitVec.eq_of_getLsbD_eq
  intro i hi
  simp only [cwSmall, commandWord, BitVec.getLsbD_extractLsb', BitVec.getLsbD_append]
  simp [hi]

/-! ### The opcode map, row by row (R72) -/

@[simp] theorem opcodeOf_bonNorm : opcodeOf 0x10#8 = some .bonNorm := rfl
@[simp] theorem opcodeOf_bonDenorm : opcodeOf 0x11#8 = some .bonDenorm := rfl
@[simp] theorem opcodeOf_taNew : opcodeOf 0x20#8 = some .taNew := rfl
@[simp] theorem opcodeOf_taLoad : opcodeOf 0x21#8 = some .taLoad := rfl
@[simp] theorem opcodeOf_taValid : opcodeOf 0x22#8 = some .taValid := rfl
@[simp] theorem opcodeOf_taX6 : opcodeOf 0x23#8 = some .taX6 := rfl
@[simp] theorem opcodeOf_taEnc : opcodeOf 0x24#8 = some .taEnc := rfl
@[simp] theorem opcodeOf_taEncp : opcodeOf 0x25#8 = some .taEncp := rfl
@[simp] theorem opcodeOf_wcaNew : opcodeOf 0x30#8 = some .wcaNew := rfl
@[simp] theorem opcodeOf_wcaLoad : opcodeOf 0x31#8 = some .wcaLoad := rfl
@[simp] theorem opcodeOf_wcaFlush : opcodeOf 0x32#8 = some .wcaFlush := rfl
@[simp] theorem opcodeOf_w2New : opcodeOf 0x40#8 = some .w2New := rfl
@[simp] theorem opcodeOf_w2Load : opcodeOf 0x41#8 = some .w2Load := rfl
@[simp] theorem opcodeOf_b64Run : opcodeOf 0x50#8 = some .b64Run := rfl

/-- A word is put together from its four fields. -/
theorem word_eq_fields (cw : CommandWord) :
    cw = cwOpcode cw ++ cwWidth cw ++ cwReserved cw ++ cwSmall cw := by
  apply BitVec.eq_of_getLsbD_eq
  intro i hi
  simp only [cwOpcode, cwWidth, cwReserved, cwSmall, BitVec.getLsbD_extractLsb', BitVec.getLsbD_append]
  by_cases h1 : i < 2
  · simp [h1]
  · by_cases h2 : i < 4
    · simp [h1, show i - 2 < 2 by omega, show 2 + (i - 2) = i by omega]
    · by_cases h3 : i < 8
      · simp [h1, show ¬ i - 2 < 2 by omega, show i - 2 - 2 < 4 by omega,
          show 4 + (i - 2 - 2) = i by omega]
      · simp [h1, show ¬ i - 2 < 2 by omega, show ¬ i - 2 - 2 < 4 by omega,
          show i - 2 - 2 - 4 < 8 by omega, show 8 + (i - 2 - 2 - 4) = i by omega]

/-- The decoder on a word with a known row, once. -/
theorem decode_of_opcode (p : Params) (c : Command) (op : Opcode)
    (h : opcodeOf (cwOpcode c.cw) = some op) :
    decode p c =
      if cwReserved c.cw ≠ 0#2 then .error .reservedBits
      else if usesWidth op = false ∧ cwWidth c.cw ≠ 0#4 then .error .unusedWidth
      else if usesSmall op = false ∧ cwSmall c.cw ≠ 0#2 then .error .unusedSmall
      else .ok (instrOf p c op) := by
  rw [decode, h]

/-- When a word decodes: its row is known and every field the row does not use is 0. -/
theorem decode_eq_ok_iff (p : Params) (c : Command) (i : Instr) :
    decode p c = .ok i ↔ ∃ op, opcodeOf (cwOpcode c.cw) = some op ∧ cwReserved c.cw = 0 ∧
      (usesWidth op = false → cwWidth c.cw = 0) ∧ (usesSmall op = false → cwSmall c.cw = 0) ∧
      i = instrOf p c op := by
  cases h : opcodeOf (cwOpcode c.cw) with
  | none => simp [decode, h]
  | some op =>
    rw [decode_of_opcode p c op h]
    simp only [Option.some.injEq, exists_eq_left']
    constructor
    · intro hd
      split at hd
      · cases hd
      · split at hd
        · cases hd
        · split at hd
          · cases hd
          · rename_i h1 h2 h3
            injection hd with hd
            exact ⟨not_not.1 h1, fun hw => not_not.1 fun hn => h2 ⟨hw, hn⟩,
              fun hk => not_not.1 fun hn => h3 ⟨hk, hn⟩, hd.symm⟩
    · rintro ⟨h1, h2, h3, rfl⟩
      exact (if_neg (not_not.2 h1)).trans
        ((if_neg fun hw => hw.2 (h2 hw.1)).trans (if_neg fun hk => hk.2 (h3 hk.1)))

end Sys2Proof
end

