-- ==== Sys2Proof/Laws/State.lean ====
section
/-! SUPPORT. One lemma per field per update of the state, and the fields of the state after reset. -/

namespace Sys2Proof.Machine

/-! ### setTa -/

@[simp] theorem State.setTa_params (s : State) (x : TA) : (s.setTa x).params = s.params := rfl
@[simp] theorem State.setTa_ta (s : State) (x : TA) : (s.setTa x).ta = x := rfl
@[simp] theorem State.setTa_wca (s : State) (x : TA) : (s.setTa x).wca = s.wca := rfl
@[simp] theorem State.setTa_w2 (s : State) (x : TA) : (s.setTa x).w2 = s.w2 := rfl
@[simp] theorem State.setTa_sd (s : State) (x : TA) : (s.setTa x).sd = s.sd := rfl
@[simp] theorem State.setTa_fault (s : State) (x : TA) : (s.setTa x).fault = s.fault := rfl
@[simp] theorem State.setTa_cause (s : State) (x : TA) : (s.setTa x).cause = s.cause := rfl
@[simp] theorem State.setTa_mem (s : State) (x : TA) : (s.setTa x).mem = s.mem := rfl
@[simp] theorem State.setTa_pending (s : State) (x : TA) : (s.setTa x).pending = s.pending := rfl
@[simp] theorem State.setTa_rsp (s : State) (x : TA) : (s.setTa x).rsp = s.rsp := rfl

/-! ### setWca -/

@[simp] theorem State.setWca_params (s : State) (x : WCA) : (s.setWca x).params = s.params := rfl
@[simp] theorem State.setWca_ta (s : State) (x : WCA) : (s.setWca x).ta = s.ta := rfl
@[simp] theorem State.setWca_wca (s : State) (x : WCA) : (s.setWca x).wca = x := rfl
@[simp] theorem State.setWca_w2 (s : State) (x : WCA) : (s.setWca x).w2 = s.w2 := rfl
@[simp] theorem State.setWca_sd (s : State) (x : WCA) : (s.setWca x).sd = s.sd := rfl
@[simp] theorem State.setWca_fault (s : State) (x : WCA) : (s.setWca x).fault = s.fault := rfl
@[simp] theorem State.setWca_cause (s : State) (x : WCA) : (s.setWca x).cause = s.cause := rfl
@[simp] theorem State.setWca_mem (s : State) (x : WCA) : (s.setWca x).mem = s.mem := rfl
@[simp] theorem State.setWca_pending (s : State) (x : WCA) : (s.setWca x).pending = s.pending := rfl
@[simp] theorem State.setWca_rsp (s : State) (x : WCA) : (s.setWca x).rsp = s.rsp := rfl

/-! ### setW2 -/

@[simp] theorem State.setW2_params (s : State) (x : W2) : (s.setW2 x).params = s.params := rfl
@[simp] theorem State.setW2_ta (s : State) (x : W2) : (s.setW2 x).ta = s.ta := rfl
@[simp] theorem State.setW2_wca (s : State) (x : W2) : (s.setW2 x).wca = s.wca := rfl
@[simp] theorem State.setW2_w2 (s : State) (x : W2) : (s.setW2 x).w2 = x := rfl
@[simp] theorem State.setW2_sd (s : State) (x : W2) : (s.setW2 x).sd = s.sd := rfl
@[simp] theorem State.setW2_fault (s : State) (x : W2) : (s.setW2 x).fault = s.fault := rfl
@[simp] theorem State.setW2_cause (s : State) (x : W2) : (s.setW2 x).cause = s.cause := rfl
@[simp] theorem State.setW2_mem (s : State) (x : W2) : (s.setW2 x).mem = s.mem := rfl
@[simp] theorem State.setW2_pending (s : State) (x : W2) : (s.setW2 x).pending = s.pending := rfl
@[simp] theorem State.setW2_rsp (s : State) (x : W2) : (s.setW2 x).rsp = s.rsp := rfl

/-! ### setSd -/

@[simp] theorem State.setSd_params (s : State) (x : SD) : (s.setSd x).params = s.params := rfl
@[simp] theorem State.setSd_ta (s : State) (x : SD) : (s.setSd x).ta = s.ta := rfl
@[simp] theorem State.setSd_wca (s : State) (x : SD) : (s.setSd x).wca = s.wca := rfl
@[simp] theorem State.setSd_w2 (s : State) (x : SD) : (s.setSd x).w2 = s.w2 := rfl
@[simp] theorem State.setSd_sd (s : State) (x : SD) : (s.setSd x).sd = x := rfl
@[simp] theorem State.setSd_fault (s : State) (x : SD) : (s.setSd x).fault = s.fault := rfl
@[simp] theorem State.setSd_cause (s : State) (x : SD) : (s.setSd x).cause = s.cause := rfl
@[simp] theorem State.setSd_mem (s : State) (x : SD) : (s.setSd x).mem = s.mem := rfl
@[simp] theorem State.setSd_pending (s : State) (x : SD) : (s.setSd x).pending = s.pending := rfl
@[simp] theorem State.setSd_rsp (s : State) (x : SD) : (s.setSd x).rsp = s.rsp := rfl

/-! ### setFault -/

@[simp] theorem State.setFault_params (s : State) (b : Bool) (c : BitVec 3) : (s.setFault b c).params = s.params := rfl
@[simp] theorem State.setFault_ta (s : State) (b : Bool) (c : BitVec 3) : (s.setFault b c).ta = s.ta := rfl
@[simp] theorem State.setFault_wca (s : State) (b : Bool) (c : BitVec 3) : (s.setFault b c).wca = s.wca := rfl
@[simp] theorem State.setFault_w2 (s : State) (b : Bool) (c : BitVec 3) : (s.setFault b c).w2 = s.w2 := rfl
@[simp] theorem State.setFault_sd (s : State) (b : Bool) (c : BitVec 3) : (s.setFault b c).sd = s.sd := rfl
@[simp] theorem State.setFault_fault (s : State) (b : Bool) (c : BitVec 3) : (s.setFault b c).fault = b := rfl
@[simp] theorem State.setFault_cause (s : State) (b : Bool) (c : BitVec 3) : (s.setFault b c).cause = c := rfl
@[simp] theorem State.setFault_mem (s : State) (b : Bool) (c : BitVec 3) : (s.setFault b c).mem = s.mem := rfl
@[simp] theorem State.setFault_pending (s : State) (b : Bool) (c : BitVec 3) : (s.setFault b c).pending = s.pending := rfl
@[simp] theorem State.setFault_rsp (s : State) (b : Bool) (c : BitVec 3) : (s.setFault b c).rsp = s.rsp := rfl

/-! ### setMem -/

@[simp] theorem State.setMem_params (s : State) (m : Memory) : (s.setMem m).params = s.params := rfl
@[simp] theorem State.setMem_ta (s : State) (m : Memory) : (s.setMem m).ta = s.ta := rfl
@[simp] theorem State.setMem_wca (s : State) (m : Memory) : (s.setMem m).wca = s.wca := rfl
@[simp] theorem State.setMem_w2 (s : State) (m : Memory) : (s.setMem m).w2 = s.w2 := rfl
@[simp] theorem State.setMem_sd (s : State) (m : Memory) : (s.setMem m).sd = s.sd := rfl
@[simp] theorem State.setMem_fault (s : State) (m : Memory) : (s.setMem m).fault = s.fault := rfl
@[simp] theorem State.setMem_cause (s : State) (m : Memory) : (s.setMem m).cause = s.cause := rfl
@[simp] theorem State.setMem_mem (s : State) (m : Memory) : (s.setMem m).mem = m := rfl
@[simp] theorem State.setMem_pending (s : State) (m : Memory) : (s.setMem m).pending = s.pending := rfl
@[simp] theorem State.setMem_rsp (s : State) (m : Memory) : (s.setMem m).rsp = s.rsp := rfl

/-! ### setPending -/

@[simp] theorem State.setPending_params (s : State) (l : List HostEvent) : (s.setPending l).params = s.params := rfl
@[simp] theorem State.setPending_ta (s : State) (l : List HostEvent) : (s.setPending l).ta = s.ta := rfl
@[simp] theorem State.setPending_wca (s : State) (l : List HostEvent) : (s.setPending l).wca = s.wca := rfl
@[simp] theorem State.setPending_w2 (s : State) (l : List HostEvent) : (s.setPending l).w2 = s.w2 := rfl
@[simp] theorem State.setPending_sd (s : State) (l : List HostEvent) : (s.setPending l).sd = s.sd := rfl
@[simp] theorem State.setPending_fault (s : State) (l : List HostEvent) : (s.setPending l).fault = s.fault := rfl
@[simp] theorem State.setPending_cause (s : State) (l : List HostEvent) : (s.setPending l).cause = s.cause := rfl
@[simp] theorem State.setPending_mem (s : State) (l : List HostEvent) : (s.setPending l).mem = s.mem := rfl
@[simp] theorem State.setPending_pending (s : State) (l : List HostEvent) : (s.setPending l).pending = l := rfl
@[simp] theorem State.setPending_rsp (s : State) (l : List HostEvent) : (s.setPending l).rsp = s.rsp := rfl

/-! ### setRsp -/

@[simp] theorem State.setRsp_params (s : State) (r : Response) : (s.setRsp r).params = s.params := rfl
@[simp] theorem State.setRsp_ta (s : State) (r : Response) : (s.setRsp r).ta = s.ta := rfl
@[simp] theorem State.setRsp_wca (s : State) (r : Response) : (s.setRsp r).wca = s.wca := rfl
@[simp] theorem State.setRsp_w2 (s : State) (r : Response) : (s.setRsp r).w2 = s.w2 := rfl
@[simp] theorem State.setRsp_sd (s : State) (r : Response) : (s.setRsp r).sd = s.sd := rfl
@[simp] theorem State.setRsp_fault (s : State) (r : Response) : (s.setRsp r).fault = s.fault := rfl
@[simp] theorem State.setRsp_cause (s : State) (r : Response) : (s.setRsp r).cause = s.cause := rfl
@[simp] theorem State.setRsp_mem (s : State) (r : Response) : (s.setRsp r).mem = s.mem := rfl
@[simp] theorem State.setRsp_pending (s : State) (r : Response) : (s.setRsp r).pending = s.pending := rfl
@[simp] theorem State.setRsp_rsp (s : State) (r : Response) : (s.setRsp r).rsp = r := rfl

/-! ### The state after reset -/

@[simp] theorem State.resetOf_params (p : Params) : (State.resetOf p).params = p := rfl
@[simp] theorem State.resetOf_ta (p : Params) : (State.resetOf p).ta = TA.fresh := rfl
@[simp] theorem State.resetOf_wca (p : Params) : (State.resetOf p).wca = WCA.absent := rfl
@[simp] theorem State.resetOf_w2 (p : Params) : (State.resetOf p).w2 = W2.fresh := rfl
@[simp] theorem State.resetOf_sd (p : Params) : (State.resetOf p).sd = SD.idle := rfl
@[simp] theorem State.resetOf_fault (p : Params) : (State.resetOf p).fault = false := rfl
@[simp] theorem State.resetOf_cause (p : Params) : (State.resetOf p).cause = 0 := rfl
@[simp] theorem State.resetOf_mem (p : Params) : (State.resetOf p).mem = [] := rfl
@[simp] theorem State.resetOf_pending (p : Params) : (State.resetOf p).pending = [] := rfl
@[simp] theorem State.resetOf_rsp (p : Params) : (State.resetOf p).rsp = Response.quiet := rfl

end Sys2Proof.Machine
end

