-- ==== Sys2Proof/Laws/Effects.lean ====
section
/-! SUPPORT. The frame every command runs in, raising a fault, reset: what each can do, said once. -/

namespace Sys2Proof.Machine

theorem perform_faulted (s : State) (e : Effect) (h : s.fault = true) :
    perform s e = .next (answerFaulted s) := by simp [perform, h]

theorem perform_ok (s t : State) (r : Response) (h : s.fault = false) :
    perform s (.ok (t, r)) = .next (t.setRsp r) := by simp [perform, h]

theorem perform_error (s : State) (c : Cause) (h : s.fault = false) :
    perform s (.error c) = .next (raiseFault s c) := by simp [perform, h]

/-- A command always answers a next state, and it is one of three. -/
theorem perform_cases (s : State) (e : Effect) :
    (s.fault = true ∧ perform s e = .next (answerFaulted s)) ∨
    (s.fault = false ∧ ∃ c, e = .error c ∧ perform s e = .next (raiseFault s c)) ∨
    (s.fault = false ∧ ∃ t r, e = .ok (t, r) ∧ perform s e = .next (t.setRsp r)) := by
  cases h : s.fault
  · cases e with
    | error c => exact .inr (.inl ⟨rfl, c, rfl, perform_error s c h⟩)
    | ok x => exact .inr (.inr ⟨rfl, x.1, x.2, rfl, perform_ok s x.1 x.2 h⟩)
  · exact .inl ⟨rfl, perform_faulted s e h⟩

/-! ### Raising a fault changes FAULT, CAUSE and the response (60_exceptions.md R172) -/

@[simp] theorem raiseFault_params (s : State) (c : Cause) : (raiseFault s c).params = s.params := rfl
@[simp] theorem raiseFault_ta (s : State) (c : Cause) : (raiseFault s c).ta = s.ta := rfl
@[simp] theorem raiseFault_wca (s : State) (c : Cause) : (raiseFault s c).wca = s.wca := rfl
@[simp] theorem raiseFault_w2 (s : State) (c : Cause) : (raiseFault s c).w2 = s.w2 := rfl
@[simp] theorem raiseFault_sd (s : State) (c : Cause) : (raiseFault s c).sd = s.sd := rfl
@[simp] theorem raiseFault_fault (s : State) (c : Cause) : (raiseFault s c).fault = true := rfl
@[simp] theorem raiseFault_cause (s : State) (c : Cause) : (raiseFault s c).cause = c.code := rfl
@[simp] theorem raiseFault_mem (s : State) (c : Cause) : (raiseFault s c).mem = s.mem := rfl
@[simp] theorem raiseFault_pending (s : State) (c : Cause) : (raiseFault s c).pending = s.pending := rfl
@[simp] theorem raiseFault_rsp (s : State) (c : Cause) :
    (raiseFault s c).rsp = Response.faulted c.code := rfl

/-- Every cause has a code of its own, and none is 0 (R171). -/
theorem Cause.code_ne_zero (c : Cause) : c.code ≠ 0 := by cases c <;> decide

theorem Cause.code_injective (c d : Cause) (h : c.code = d.code) : c = d := by
  cases c <;> cases d <;> first | rfl | exact absurd h (by decide)

/-! ### Reset (R190) -/

@[simp] theorem applyReset_params (s : State) : (applyReset s).params = s.params := rfl
@[simp] theorem applyReset_mem (s : State) : (applyReset s).mem = s.mem := rfl
@[simp] theorem applyReset_pending (s : State) : (applyReset s).pending = s.pending := rfl
@[simp] theorem applyReset_fault (s : State) : (applyReset s).fault = false := rfl
@[simp] theorem applyReset_ta (s : State) : (applyReset s).ta = TA.fresh := rfl
@[simp] theorem applyReset_wca (s : State) : (applyReset s).wca = WCA.absent := rfl
@[simp] theorem applyReset_w2 (s : State) : (applyReset s).w2 = W2.fresh := rfl
@[simp] theorem applyReset_sd (s : State) : (applyReset s).sd = SD.idle := rfl
@[simp] theorem applyReset_cause (s : State) : (applyReset s).cause = 0 := rfl

/-! ### The invariant under the frame -/

/-- The invariant does not speak of the response or of what the host does next. -/
theorem State.Inv.setRsp {s : State} (h : s.Inv) (r : Response) : (s.setRsp r).Inv :=
  ⟨h.params_wf, h.ta, h.wca, h.sd, h.cause_zero, h.mem_wf, h.mem_within⟩

theorem State.Inv.setPending {s : State} (h : s.Inv) (l : List HostEvent) : (s.setPending l).Inv :=
  ⟨h.params_wf, h.ta, h.wca, h.sd, h.cause_zero, h.mem_wf, h.mem_within⟩

theorem State.Inv.raiseFault {s : State} (h : s.Inv) (c : Cause) : (raiseFault s c).Inv :=
  ⟨h.params_wf, h.ta, h.wca, h.sd, by simpa using c.code_ne_zero, h.mem_wf, h.mem_within⟩

/-- A command keeps the invariant if its effect does. -/
theorem perform_keeps_inv (s : State) (e : Effect) (h : s.Inv)
    (he : ∀ t r, e = .ok (t, r) → t.Inv) (t : State) (ht : perform s e = .next t) : t.Inv := by
  rcases perform_cases s e with ⟨-, hp⟩ | ⟨-, c, -, hp⟩ | ⟨-, t', r, rfl, hp⟩ <;>
    (rw [hp] at ht; cases ht)
  · exact h.setRsp _
  · exact h.raiseFault c
  · exact (he t' r rfl).setRsp r

end Sys2Proof.Machine
end

