-- ==== Sys2Proof/Laws/Memory.lean ====
section
/-! SUPPORT. The laws of the input memory: the canonical form is kept, and a read after a host access
gives what was put there. -/

namespace Sys2Proof.Machine

@[simp] theorem readByte_nil (a : Nat) : readByte [] a = none := rfl

theorem readByte_cons (c : Host.Cell) (cs : Memory) (a : Nat) :
    readByte (c :: cs) a = if c.1 = a then some c.2 else readByte cs a := rfl

theorem readByte_eq_none_of_lt (m : Memory) (a : Nat) (h : ∀ c ∈ m, a < c.1) :
    readByte m a = none := by
  induction m with
  | nil => rfl
  | cons c cs ih =>
    have hc := h c (by simp)
    rw [readByte_cons, if_neg (by omega), ih fun d hd => h d (by simp [hd])]

theorem Memory.wf_cons (c : Host.Cell) (cs : Memory) :
    Memory.wf (c :: cs) ↔ (∀ d ∈ cs, c.1 < d.1) ∧ Memory.wf cs := by
  simp [Memory.wf]

theorem Memory.wf_nil : Memory.wf [] := by simp [Memory.wf]

theorem mem_memInsert (m : Memory) (a : Nat) (b : Byte) (d : Host.Cell) :
    d ∈ memInsert m a b → d = (a, b) ∨ d ∈ m := by
  induction m with
  | nil => simp [memInsert]
  | cons c cs ih =>
    rw [memInsert]
    split
    · simp
    · split
      · rintro h
        rcases List.mem_cons.1 h with h | h
        · exact .inl h
        · exact .inr (by simp [h])
      · rintro h
        rcases List.mem_cons.1 h with h | h
        · exact .inr (by simp [h])
        · rcases ih h with h | h
          · exact .inl h
          · exact .inr (by simp [h])

theorem memInsert_wf (m : Memory) (a : Nat) (b : Byte) (h : Memory.wf m) :
    Memory.wf (memInsert m a b) := by
  induction m with
  | nil => simp [memInsert, Memory.wf]
  | cons c cs ih =>
    rw [Memory.wf_cons] at h
    rw [memInsert]
    split
    · rename_i hlt
      rw [Memory.wf_cons, Memory.wf_cons]
      refine ⟨fun d hd => ?_, h⟩
      rcases List.mem_cons.1 hd with rfl | hd
      · exact hlt
      · exact Nat.lt_trans hlt (h.1 d hd)
    · split
      · rename_i heq
        rw [Memory.wf_cons]
        exact ⟨fun d hd => by simpa [heq] using h.1 d hd, h.2⟩
      · rw [Memory.wf_cons]
        refine ⟨fun d hd => ?_, ih h.2⟩
        rcases mem_memInsert cs a b d hd with rfl | hd
        · show c.1 < a
          omega
        · exact h.1 d hd

theorem readByte_memInsert (m : Memory) (a x : Nat) (b : Byte) :
    readByte (memInsert m a b) x = if x = a then some b else readByte m x := by
  induction m with
  | nil => simp [memInsert, readByte_cons, eq_comm]
  | cons c cs ih =>
    rw [memInsert]
    split
    · rw [readByte_cons]
      by_cases hx : x = a
      · simp [hx]
      · simp [hx, Ne.symm hx]
    · split
      · rename_i heq
        rw [readByte_cons, readByte_cons]
        by_cases hx : x = a
        · simp [hx]
        · have : c.1 ≠ x := by omega
          simp [hx, Ne.symm hx, this]
      · rename_i hne
        rw [readByte_cons, readByte_cons, ih]
        by_cases hx : x = a
        · subst hx
          rw [if_neg (by omega), if_pos rfl, if_pos rfl]
        · simp [hx]

theorem memErase_wf (m : Memory) (a : Nat) (h : Memory.wf m) : Memory.wf (memErase m a) :=
  List.Pairwise.sublist (List.Sublist.map _ List.filter_sublist) h

theorem readByte_memErase (m : Memory) (a x : Nat) :
    readByte (memErase m a) x = if x = a then none else readByte m x := by
  induction m with
  | nil => simp [memErase]
  | cons c cs ih =>
    have he : memErase (c :: cs) a = if c.1 = a then memErase cs a else c :: memErase cs a := by
      by_cases h : c.1 = a <;> simp [memErase, h]
    rw [he]
    split
    · rename_i heq
      rw [ih, readByte_cons]
      by_cases hx : x = a
      · simp [hx]
      · have : c.1 ≠ x := by omega
        simp [hx, this]
    · rename_i hne
      rw [readByte_cons, ih, readByte_cons]
      by_cases hx : x = a
      · subst hx
        rw [if_neg (by omega), if_pos rfl, if_pos rfl]
      · simp [hx]

theorem memInsert_within (p : Params) (m : Memory) (a : Nat) (b : Byte) (ha : a < 2 ^ p.addrBits)
    (h : Memory.within p m) : Memory.within p (memInsert m a b) := fun d hd => by
  rcases mem_memInsert m a b d hd with rfl | hd
  · exact ha
  · exact h d hd

theorem memErase_within (p : Params) (m : Memory) (a : Nat) (h : Memory.within p m) :
    Memory.within p (memErase m a) := fun d hd => h d (List.mem_of_mem_filter hd)

theorem reset_memory_wf : Memory.wf State.reset.mem := by decide

/-! ### Ranges -/

theorem rangeReadable_iff (m : Memory) (a n : Nat) :
    rangeReadable m a n = true ↔ ∀ x, a ≤ x → x < a + n → readable m x = true := by
  induction n generalizing a with
  | zero => simp [rangeReadable]; omega
  | succ n ih =>
    rw [rangeReadable, Bool.and_eq_true, ih]
    constructor
    · rintro ⟨h0, h⟩ x hx hx'
      rcases Nat.eq_or_lt_of_le hx with rfl | hlt
      · exact h0
      · exact h x hlt (by omega)
    · exact fun h => ⟨h a le_rfl (by omega), fun x hx hx' => h x (by omega) (by omega)⟩

theorem readBytes_eq_some_iff (m : Memory) (a n : Nat) (l : List Byte) :
    readBytes m a n = some l ↔
      l.length = n ∧ ∀ k (h : k < l.length), readByte m (a + k) = some l[k] := by
  induction n generalizing a l with
  | zero =>
    rw [readBytes]
    constructor
    · rintro h; cases h; simp
    · rintro ⟨h, -⟩; rw [List.length_eq_zero_iff.1 h]
  | succ n ih =>
    rw [readBytes]
    cases hb : readByte m a with
    | none =>
      constructor
      · intro h; cases h
      · rintro ⟨h, h'⟩
        have := h' 0 (by omega)
        simp [hb] at this
    | some b =>
      simp only [Option.map_eq_some_iff, ih]
      constructor
      · rintro ⟨t, ⟨ht, h⟩, rfl⟩
        refine ⟨by simp [ht], fun k hk => ?_⟩
        cases k with
        | zero => simpa using hb
        | succ k =>
          have := h k (by simpa using hk)
          rw [List.getElem_cons_succ, ← this]
          congr 1; omega
      · rintro ⟨h, h'⟩
        cases l with
        | nil => simp at h
        | cons c t =>
          refine ⟨t, ⟨by simpa using h, fun k hk => ?_⟩, ?_⟩
          · have := h' (k + 1) (by simpa using hk)
            rw [List.getElem_cons_succ] at this
            rw [← this]; congr 1; omega
          · have := h' 0 (by simp)
            simp only [Nat.add_zero, hb, List.getElem_cons_zero, Option.some.injEq] at this
            rw [this]

theorem readBytes_isSome (m : Memory) (a n : Nat)
    (h : ∀ x, a ≤ x → x < a + n → readable m x = true) : ∃ l, readBytes m a n = some l := by
  induction n generalizing a with
  | zero => exact ⟨[], rfl⟩
  | succ n ih =>
    obtain ⟨t, ht⟩ := ih (a + 1) fun x hx hx' => h x (by omega) (by omega)
    obtain ⟨b, hb⟩ := Option.isSome_iff_exists.1 (h a le_rfl (by omega))
    exact ⟨b :: t, by simp [readBytes, hb, ht]⟩

end Sys2Proof.Machine
end

