-- ==== Sys2Proof/Laws/Windows.lean ====
section
/-! SUPPORT. The windows of a byte sequence, the complete ones first, and their text. -/

namespace Sys2Proof.Machine

@[simp] theorem windowsOf_nil : windowsOf [] = [] := rfl

theorem windowsOf_cons3 (a b c : Byte) (s : List Byte) :
    windowsOf (a :: b :: c :: s) = ⟨pack3 [a, b, c], 3⟩ :: windowsOf s := rfl

theorem fullWindows_of_short (s : List Byte) (h : s.length < 3) : fullWindows s = [] := by
  simp [fullWindows, Nat.div_eq_of_lt h]

theorem fullWindows_cons3 (a b c : Byte) (s : List Byte) :
    fullWindows (a :: b :: c :: s) = ⟨pack3 [a, b, c], 3⟩ :: fullWindows s := by
  have h : (a :: b :: c :: s).length / 3 = s.length / 3 + 1 := by simp; omega
  rw [fullWindows, h, List.range_succ_eq_map, List.map_cons, List.map_map]
  refine congrArg₂ _ rfl (List.map_congr_left fun j _ => ?_)
  simp [Function.comp, Nat.mul_succ]

theorem leftover_of_short (s : List Byte) (h : s.length < 3) : leftover s = s := by
  simp [leftover, Nat.div_eq_of_lt h]

theorem leftover_cons3 (a b c : Byte) (s : List Byte) :
    leftover (a :: b :: c :: s) = leftover s := by
  have h : 3 * ((a :: b :: c :: s).length / 3) = 3 * (s.length / 3) + 3 := by simp; omega
  rw [leftover, h]; rfl

theorem leftover_length (s : List Byte) : (leftover s).length = s.length % 3 := by
  simp only [leftover, List.length_drop]; omega

/-- Handing out the complete windows of a prefix and carrying its leftover loses no byte: the windows of
the whole are those of the prefix, then those of leftover and rest. -/
theorem windowsOf_append (q r : List Byte) :
    windowsOf (q ++ r) = fullWindows q ++ windowsOf (leftover q ++ r) := by
  match q with
  | [] => rw [fullWindows_of_short _ (by simp), leftover_of_short _ (by simp)]; rfl
  | [a] => rw [fullWindows_of_short _ (by simp), leftover_of_short _ (by simp)]; rfl
  | [a, b] => rw [fullWindows_of_short _ (by simp), leftover_of_short _ (by simp)]; rfl
  | a :: b :: c :: s =>
    rw [fullWindows_cons3, leftover_cons3]
    simp only [List.cons_append, windowsOf_cons3, windowsOf_append s r]

theorem windowsOf_length (s : List Byte) : (windowsOf s).length = (s.length + 2) / 3 := by
  match s with
  | [] => rfl
  | [a] => simp [windowsOf]
  | [a, b] => simp [windowsOf]
  | a :: b :: c :: s =>
    rw [windowsOf_cons3, List.length_cons, windowsOf_length s]
    simp only [List.length_cons]; omega

theorem windowsOf_getElem? (s : List Byte) (m : Nat) (h : 3 * m < s.length) :
    (windowsOf s)[m]? =
      some ⟨pack3 ((s.drop (3 * m)).take 3), BitVec.ofNat 2 (min 3 (s.length - 3 * m))⟩ := by
  match s, m with
  | [], _ => simp at h
  | [a], 0 => rfl
  | [a], m + 1 => simp at h
  | [a, b], 0 => rfl
  | [a, b], m + 1 => simp at h; omega
  | a :: b :: c :: s, 0 => simp [windowsOf_cons3]
  | a :: b :: c :: s, m + 1 =>
    rw [windowsOf_cons3, List.getElem?_cons_succ, windowsOf_getElem? s m (by simp at h; omega)]
    simp only [Nat.mul_succ, List.drop_succ_cons, List.length_cons]
    congr 3
    omega

/-- Every window of a byte sequence is packed from one to three bytes. -/
theorem exists_of_mem_windowsOf (s : List Byte) (win : Window) (h : win ∈ windowsOf s) :
    ∃ b : List Byte, b ≠ [] ∧ b.length ≤ 3 ∧ win = ⟨pack3 b, BitVec.ofNat 2 b.length⟩ := by
  match s with
  | [] => simp at h
  | [a] => rcases List.mem_singleton.1 h with rfl; exact ⟨[a], by simp, by simp, rfl⟩
  | [a, b] => rcases List.mem_singleton.1 h with rfl; exact ⟨[a, b], by simp, by simp, rfl⟩
  | a :: b :: c :: s =>
    rcases List.mem_cons.1 h with rfl | h
    · exact ⟨[a, b, c], by simp, by simp, rfl⟩
    · exact exists_of_mem_windowsOf s win h

end Sys2Proof.Machine
end

