-- ==== Sys2Proof/Laws/Units.lean ====
section
/-! SUPPORT. The units one by one: what TA holds after a load and the text of a window, what a carry
step of WCA and of W2 hands out and carries. -/

namespace Sys2Proof.Machine

/-! ### TA -/

/-- TA after loading the bytes of a window is that window (R101, R155). -/
theorem taLoad_pack3 (b : List Byte) (h : b.length ≤ 3) :
    taLoad (BitVec.ofNat 2 b.length) (tripletBytes (pack3 b)) =
      ⟨pack3 b, BitVec.ofNat 2 b.length⟩ := by
  rw [tripletBytes_pack3]
  match b, h with
  | [], _ => rfl
  | [x], _ => rfl
  | [x, y], _ => rfl
  | [x, y, z], _ => rfl
  | _ :: _ :: _ :: _ :: _, h => simp only [List.length_cons] at h; omega

/-- R22 holds of every loaded TA. -/
theorem taLoad_inv (n : BitVec 2) (bytes : List Byte) : (taLoad n bytes).Inv := by
  apply BitVec.eq_of_toNat_eq
  show ((pack3 (bytes.take n.toNat)) <<< (8 * n.toNat)).toNat = 0
  rw [BitVec.toNat_shiftLeft, Nat.shiftLeft_eq, pack3_toNat]
  have hn := n.isLt
  have z : ∀ l : List Byte, ∀ i, l.length ≤ i → (l.getD i 0).toNat = 0 := fun l i hl => by
    rw [List.getD_eq_default _ _ hl]; rfl
  have hl : (bytes.take n.toNat).length ≤ n.toNat := List.length_take_le _ _
  generalize bytes.take n.toNat = l at *
  rcases (show n.toNat = 0 ∨ n.toNat = 1 ∨ n.toNat = 2 ∨ n.toNat = 3 by omega) with h | h | h | h
  · rw [z l 0 (by omega), z l 1 (by omega), z l 2 (by omega)]; simp
  · rw [z l 1 (by omega), z l 2 (by omega), h]; omega
  · rw [z l 2 (by omega), h]; omega
  · rw [h]; omega

/-- The four characters `emit` writes for a window (R155). -/
def windowText (win : Window) : List Byte :=
  let t := taLoad win.count (tripletBytes win.data)
  [windowChar t 0, windowChar t 1, windowChar t 2, windowChar t 3]

@[simp] theorem windowText_length (win : Window) : (windowText win).length = 4 := rfl

theorem taEnc_pack3 (s : List Byte) (n : BitVec 2) :
    taEnc ⟨pack3 s, n⟩ 0 = symbol ((s.getD 0 0).toNat / 4) ∧
    taEnc ⟨pack3 s, n⟩ 1 = symbol ((s.getD 0 0).toNat % 4 * 16 + (s.getD 1 0).toNat / 16) ∧
    taEnc ⟨pack3 s, n⟩ 2 = symbol ((s.getD 1 0).toNat % 16 * 4 + (s.getD 2 0).toNat / 64) ∧
    taEnc ⟨pack3 s, n⟩ 3 = symbol ((s.getD 2 0).toNat % 64) := by
  obtain ⟨h0, h1, h2, h3⟩ := six_pack3 s
  simp only [taEnc, alphaCode_eq_symbol, h0, h1, h2, h3, and_self]

theorem windowText_one (a : Byte) :
    windowText ⟨pack3 [a], 1⟩ =
      [symbol (a.toNat / 4), symbol (a.toNat % 4 * 16), 0x3D, 0x3D] := by
  have ht : taLoad 1 (tripletBytes (pack3 [a])) = ⟨pack3 [a], 1⟩ := taLoad_pack3 [a] (by simp)
  obtain ⟨h0, h1, -, -⟩ := taEnc_pack3 [a] 1
  simp only [windowText, ht]
  have c0 : windowChar ⟨pack3 [a], 1⟩ 0 = taEnc ⟨pack3 [a], 1⟩ 0 := rfl
  have c1 : windowChar ⟨pack3 [a], 1⟩ 1 = taEnc ⟨pack3 [a], 1⟩ 1 := rfl
  have c2 : windowChar ⟨pack3 [a], 1⟩ 2 = padCode := rfl
  have c3 : windowChar ⟨pack3 [a], 1⟩ 3 = padCode := rfl
  rw [c0, c1, c2, c3, h0, h1]
  simp [padCode]

theorem windowText_two (a b : Byte) :
    windowText ⟨pack3 [a, b], 2⟩ =
      [symbol (a.toNat / 4), symbol (a.toNat % 4 * 16 + b.toNat / 16), symbol (b.toNat % 16 * 4),
        0x3D] := by
  have ht : taLoad 2 (tripletBytes (pack3 [a, b])) = ⟨pack3 [a, b], 2⟩ :=
    taLoad_pack3 [a, b] (by simp)
  obtain ⟨h0, h1, h2, -⟩ := taEnc_pack3 [a, b] 2
  simp only [windowText, ht]
  have c0 : windowChar ⟨pack3 [a, b], 2⟩ 0 = taEnc ⟨pack3 [a, b], 2⟩ 0 := rfl
  have c1 : windowChar ⟨pack3 [a, b], 2⟩ 1 = taEnc ⟨pack3 [a, b], 2⟩ 1 := rfl
  have c2 : windowChar ⟨pack3 [a, b], 2⟩ 2 = taEnc ⟨pack3 [a, b], 2⟩ 2 := rfl
  have c3 : windowChar ⟨pack3 [a, b], 2⟩ 3 = padCode := rfl
  rw [c0, c1, c2, c3, h0, h1, h2]
  simp [padCode]

theorem windowText_three (a b c : Byte) :
    windowText ⟨pack3 [a, b, c], 3⟩ =
      [symbol (a.toNat / 4), symbol (a.toNat % 4 * 16 + b.toNat / 16),
        symbol (b.toNat % 16 * 4 + c.toNat / 64), symbol (c.toNat % 64)] := by
  have ht : taLoad 3 (tripletBytes (pack3 [a, b, c])) = ⟨pack3 [a, b, c], 3⟩ :=
    taLoad_pack3 [a, b, c] (by simp)
  obtain ⟨h0, h1, h2, h3⟩ := taEnc_pack3 [a, b, c] 3
  simp only [windowText, ht]
  have cg : ∀ g, windowChar ⟨pack3 [a, b, c], 3⟩ g = taEnc ⟨pack3 [a, b, c], 3⟩ g := fun _ => rfl
  rw [cg, cg, cg, cg, h0, h1, h2, h3]
  simp

/-- The Base64 text of a byte sequence is the text of its windows. -/
theorem base64Text_eq_windowText (s : List Byte) :
    base64Text s = (windowsOf s).flatMap windowText := by
  match s with
  | [] => rfl
  | [a] => exact (windowText_one a).symm.trans (List.append_nil _).symm
  | [a, b] => exact (windowText_two a b).symm.trans (List.append_nil _).symm
  | a :: b :: c :: s =>
    rw [windowsOf_cons3, List.flatMap_cons, ← base64Text_eq_windowText s, windowText_three]
    rfl

theorem base64Text_length (s : List Byte) : (base64Text s).length = (s.length + 2) / 3 * 4 := by
  match s with
  | [] => rfl
  | [a] => simp [base64Text]
  | [a, b] => simp [base64Text]
  | a :: b :: c :: s =>
    rw [base64Text, List.length_append, base64Text_length s]
    simp only [List.length_cons, List.length_nil]; omega

theorem outputCode_windowChar (t : TA) (g : BitVec 2) : outputCode (windowChar t g) = true := by
  rw [windowChar]
  split
  · exact outputCode_alphaCode _
  · rw [taEncp]
    split
    · exact outputCode_alphaCode _
    · rfl

/-! ### Responses -/

theorem Response.carry_windows (ws : List Window) (c : BitVec 2) (h : ws.length ≤ 3) :
    (Response.carry ws c).windows = ws := by
  match ws, h with
  | [], _ => rfl
  | [x], _ => rfl
  | [x, y], _ => rfl
  | [x, y, z], _ => rfl
  | _ :: _ :: _ :: _ :: _, h => simp only [List.length_cons] at h; omega

@[simp] theorem Response.carry_consumed (ws : List Window) (c : BitVec 2) :
    (Response.carry ws c).consumed = c := rfl

/-! ### WCA -/

/-- The bytes not yet handed out when element `v` has been taken in (R121). -/
def wcaBytes (u : WCA) (v : Nat) : List Byte := wcaCarried u ++ bon v u.wsel.toNat

/-- WCA after a load (R122). -/
def wcaNext (u : WCA) (v : Nat) : WCA :=
  { wsel := u.wsel
    sv := padTo8 ((wcaBytes u v).take u.wsel.toNat)
    rb := padTo2 (leftover (wcaBytes u v))
    rem := BitVec.ofNat 2 ((wcaBytes u v).length % 3)
    vbc := u.wsel }

/-- The windows of the flush (R124). -/
def wcaFlushWindows (u : WCA) : List Window :=
  if u.rem = 0 then [] else [⟨pack3 (wcaCarried u), u.rem⟩]

/-- WCA after the flush (R124). -/
def wcaDrained (u : WCA) : WCA :=
  { wsel := u.wsel, sv := padTo8 (wcaCarried u), rb := padTo2 [], rem := 0, vbc := u.rem.setWidth 4 }

theorem wcaLoad_eq (u : WCA) (v : Nat) (h : u.wsel ≠ 0) :
    wcaLoad u v = .ok (wcaNext u v, Response.carry (fullWindows (wcaBytes u v)) 1) := by
  simp only [wcaLoad, if_neg h]; rfl

theorem wcaFlush_eq (u : WCA) (h : u.wsel ≠ 0) :
    wcaFlush u = .ok (wcaDrained u, Response.carry (wcaFlushWindows u) 0) := by
  simp only [wcaFlush, if_neg h]; rfl

theorem wcaCarried_length (u : WCA) (h : u.rem.toNat < 3) :
    (wcaCarried u).length = u.rem.toNat := by
  simp [wcaCarried]; omega

theorem wcaBytes_length (u : WCA) (v : Nat) (h : u.rem.toNat < 3) :
    (wcaBytes u v).length = u.rem.toNat + u.wsel.toNat := by
  simp [wcaBytes, wcaCarried_length u h]

theorem padTo2_take (l : List Byte) (h : l.length ≤ 2) : (padTo2 l).toList.take l.length = l := by
  match l, h with
  | [], _ => rfl
  | [x], _ => rfl
  | [x, y], _ => rfl
  | _ :: _ :: _ :: _, h => simp at h

theorem wcaNext_rem (u : WCA) (v : Nat) :
    (wcaNext u v).rem.toNat = (wcaBytes u v).length % 3 := by
  simp only [wcaNext, BitVec.toNat_ofNat]; omega

/-- What is carried after a load is what the complete windows left over. -/
theorem wcaCarried_wcaNext (u : WCA) (v : Nat) :
    wcaCarried (wcaNext u v) = leftover (wcaBytes u v) := by
  rw [wcaCarried, wcaNext_rem, ← leftover_length]
  exact padTo2_take _ (by rw [leftover_length]; omega)

theorem fullWindows_length (s : List Byte) : (fullWindows s).length = s.length / 3 := by
  simp [fullWindows]

theorem wcaLoad_windows_le (u : WCA) (v : Nat) (hr : u.rem.toNat < 3) (hw : u.wsel.toNat ≤ 8) :
    (fullWindows (wcaBytes u v)).length ≤ 3 := by
  rw [fullWindows_length, wcaBytes_length u v hr]; omega

theorem wcaFlushWindows_length (u : WCA) : (wcaFlushWindows u).length ≤ 3 := by
  rw [wcaFlushWindows]; split <;> simp

/-- The flush hands out the windows of the carried bytes. -/
theorem wcaFlushWindows_eq (u : WCA) (h : u.rem.toNat < 3) :
    wcaFlushWindows u = windowsOf (wcaCarried u) := by
  have hl := wcaCarried_length u h
  rw [wcaFlushWindows]
  rcases (show u.rem.toNat = 0 ∨ u.rem.toNat = 1 ∨ u.rem.toNat = 2 by omega) with h0 | h0 | h0
  · rw [if_pos (BitVec.eq_of_toNat_eq h0)]
    rw [h0] at hl
    rw [List.length_eq_zero_iff.1 hl]; rfl
  · have hr : u.rem = 1 := BitVec.eq_of_toNat_eq h0
    rw [hr, if_neg (by decide)]
    rw [h0] at hl
    obtain ⟨a, ha⟩ := List.length_eq_one_iff.1 hl
    rw [ha]; rfl
  · have hr : u.rem = 2 := BitVec.eq_of_toNat_eq h0
    rw [hr, if_neg (by decide)]
    rw [h0] at hl
    obtain ⟨a, b, hab⟩ := List.length_eq_two.1 hl
    rw [hab]; rfl

/-- WCA fed with elements: the unit after, and the windows of the loads in order. -/
def wcaFeed (u : WCA) : List Nat → WCA × List Window
  | [] => (u, [])
  | v :: vs =>
    ((wcaFeed (wcaNext u v) vs).1, fullWindows (wcaBytes u v) ++ (wcaFeed (wcaNext u v) vs).2)

@[simp] theorem wcaNext_wsel (u : WCA) (v : Nat) : (wcaNext u v).wsel = u.wsel := rfl

theorem wcaFeed_wsel (u : WCA) (vs : List Nat) : (wcaFeed u vs).1.wsel = u.wsel := by
  induction vs generalizing u with
  | nil => rfl
  | cons v vs ih => exact ih _

theorem wcaNext_rem_lt (u : WCA) (v : Nat) : (wcaNext u v).rem.toNat < 3 := by
  rw [wcaNext_rem]; omega

theorem wcaFeed_rem_lt (u : WCA) (vs : List Nat) (h : u.rem.toNat < 3) :
    (wcaFeed u vs).1.rem.toNat < 3 := by
  induction vs generalizing u with
  | nil => exact h
  | cons v vs ih => exact ih _ (wcaNext_rem_lt u v)

/-- Zero gaps, in the unit: loads and flush hand out the windows of carry and stream (R126). -/
theorem wcaFeed_windows (u : WCA) (vs : List Nat) (h : u.rem.toNat < 3) :
    (wcaFeed u vs).2 ++ wcaFlushWindows (wcaFeed u vs).1 =
      windowsOf (wcaCarried u ++ byteStream u.wsel.toNat vs) := by
  induction vs generalizing u with
  | nil => simp [wcaFeed, byteStream, wcaFlushWindows_eq u h]
  | cons v vs ih =>
    have hs : wcaCarried u ++ byteStream u.wsel.toNat (v :: vs) =
        wcaBytes u v ++ byteStream u.wsel.toNat vs := by simp [byteStream, wcaBytes]
    rw [hs, windowsOf_append, ← wcaCarried_wcaNext, ← wcaNext_wsel u v,
      ← ih (wcaNext u v) (wcaNext_rem_lt u v)]
    simp [wcaFeed]

/-! ### W2 -/

/-- The leftover byte of W2, if any (R32). -/
def w2Carried (u : W2) : List Byte := if u.has then [loByte u.second] else []

theorem bon_two (x : BitVec 16) : bon x.toNat 2 = [hiByte x, loByte x] := by
  rw [bon_succ, bon_succ, bon_zero]
  simp only [List.cons.injEq, and_true]
  constructor <;> apply BitVec.eq_of_toNat_eq <;> simp [hiByte, loByte, BitVec.extractLsb'_toNat]

/-- One W2.LOAD of a well-driven host, in one equation: the windows of the leftover and the elements
taken are those handed out, then those of the new leftover (R141, R145). -/
theorem w2Load_driven (u : W2) (es : List (BitVec 16)) :
    ∃ u' r, w2Load u (BitVec.ofNat 2 (min 2 es.length)) (es.getD 0 0) (es.getD 1 0) = .ok (u', r) ∧
      r.windows.length ≤ 1 ∧ r.consumed.toNat ≤ es.length ∧ (es ≠ [] → 0 < r.consumed.toNat) ∧
      windowsOf (w2Carried u ++ byteStream 2 (es.map BitVec.toNat)) =
        r.windows ++
          windowsOf (w2Carried u' ++ byteStream 2 ((es.drop r.consumed.toNat).map BitVec.toNat)) ∧
      (es = [] → u'.has = false) := by
  obtain ⟨f, s, has⟩ := u
  match es with
  | [] =>
    cases has
    · exact ⟨_, _, rfl, Nat.zero_le _, Nat.le_refl 0, fun h => absurd rfl h, rfl, fun _ => rfl⟩
    · exact ⟨_, _, rfl, Nat.le_refl 1, Nat.le_refl 0, fun h => absurd rfl h, rfl, fun _ => rfl⟩
  | [a] =>
    have one : (1 : BitVec 2).toNat = 1 := rfl
    cases has
    · refine ⟨_, _, rfl, Nat.le_refl 1, Nat.le_refl 1, fun _ => Nat.one_pos, ?_, fun h => by cases h⟩
      rw [Response.carry_windows _ _ (by simp), Response.carry_consumed, one]
      simp [w2Carried, byteStream, bon_two, windowsOf]
    · refine ⟨_, _, rfl, Nat.le_refl 1, Nat.le_refl 1, fun _ => Nat.one_pos, ?_, fun h => by cases h⟩
      rw [Response.carry_windows _ _ (by simp), Response.carry_consumed, one]
      simp [w2Carried, byteStream, bon_two, windowsOf]
  | a :: b :: es =>
    have one : (1 : BitVec 2).toNat = 1 := rfl
    have two : (2 : BitVec 2).toNat = 2 := rfl
    have hm : min 2 (a :: b :: es).length = 2 := by simp
    rw [hm]
    cases has
    · refine ⟨_, _, rfl, Nat.le_refl 1, ?_, fun _ => Nat.two_pos, ?_, fun h => by cases h⟩
      · rw [Response.carry_consumed, two]; simp
      · rw [Response.carry_windows _ _ (by simp), Response.carry_consumed, two]
        simp [w2Carried, byteStream, bon_two, windowsOf_cons3]
    · refine ⟨_, _, rfl, Nat.le_refl 1, ?_, fun _ => Nat.one_pos, ?_, fun h => by cases h⟩
      · rw [Response.carry_consumed, one]; simp
      · rw [Response.carry_windows _ _ (by simp), Response.carry_consumed, one]
        simp [w2Carried, byteStream, bon_two, windowsOf_cons3]

end Sys2Proof.Machine
end

