-- ==== Sys2Proof/Laws/Sequencer.lean ====
section
/-! SUPPORT. The sequencer: emitting windows in closed form, each loop in closed form over the elements
the run reads, and the whole run from its set-up. -/

namespace Sys2Proof.Machine

/-! ### Writing characters and emitting windows (R155) -/

/-- `putChar` over a text. -/
def writeAll (d : SD) (cs : List Byte) : SD := cs.foldl putChar d

/-- TA after emitting windows: the last of them, or as it was. -/
def lastTa (t : TA) (ws : List Window) : TA :=
  ws.foldl (fun _ win => taLoad win.count (tripletBytes win.data)) t

@[simp] theorem writeAll_nil (d : SD) : writeAll d [] = d := rfl
@[simp] theorem lastTa_nil (t : TA) : lastTa t [] = t := rfl

theorem writeAll_append (d : SD) (a b : List Byte) :
    writeAll d (a ++ b) = writeAll (writeAll d a) b := List.foldl_append

theorem lastTa_append (t : TA) (a b : List Window) : lastTa t (a ++ b) = lastTa (lastTa t a) b :=
  List.foldl_append

theorem putChar_eq (d : SD) (ch : Byte) :
    putChar d ch =
      { d with ob := if d.opos < d.oblen then d.ob.set d.opos ch else d.ob, opos := d.opos + 1 } := by
  rw [putChar, memWrite]; split <;> rfl

theorem putChar_cur (d : SD) (ch : Byte) (n : Nat) :
    putChar { d with cur := n } ch = { putChar d ch with cur := n } := by
  rw [putChar_eq, putChar_eq]

/-- Writing characters does not look at the input cursor. -/
theorem writeAll_setCur (d : SD) (cs : List Byte) (n : Nat) :
    writeAll { d with cur := n } cs = { writeAll d cs with cur := n } := by
  induction cs generalizing d with
  | nil => rfl
  | cons c cs ih => rw [writeAll, List.foldl_cons, putChar_cur]; exact ih (putChar d c)

/-- The registers that writing characters leaves alone. -/
theorem writeAll_frame (d : SD) (cs : List Byte) :
    (writeAll d cs).w = d.w ∧ (writeAll d cs).data = d.data ∧ (writeAll d cs).count = d.count ∧
      (writeAll d cs).cur = d.cur ∧ (writeAll d cs).oblen = d.oblen := by
  induction cs generalizing d with
  | nil => simp
  | cons c cs ih =>
    have h := ih (putChar d c)
    have hp : (putChar d c).w = d.w ∧ (putChar d c).data = d.data ∧ (putChar d c).count = d.count ∧
        (putChar d c).cur = d.cur ∧ (putChar d c).oblen = d.oblen := by rw [putChar_eq]; simp
    rw [writeAll, List.foldl_cons]
    exact ⟨h.1.trans hp.1, h.2.1.trans hp.2.1, h.2.2.1.trans hp.2.2.1, h.2.2.2.1.trans hp.2.2.2.1,
      h.2.2.2.2.trans hp.2.2.2.2⟩

/-- Writing a text that fits, from position `a.length` on: OB holds it, the rest is as it was. -/
theorem writeAll_fill (d : SD) (a cs z : List Byte) (hob : d.ob = a ++ z) (ho : d.opos = a.length)
    (hn : d.oblen = d.ob.length) (hc : cs.length ≤ z.length) :
    writeAll d cs = { d with ob := a ++ cs ++ z.drop cs.length, opos := a.length + cs.length } := by
  induction cs generalizing d a z with
  | nil => simp [← hob, ← ho]
  | cons c cs ih =>
    cases z with
    | nil => simp at hc
    | cons y z =>
      have hlt : d.opos < d.oblen := by rw [hn, hob, ho]; simp
      have hset : d.ob.set d.opos c = (a ++ [c]) ++ z := by
        rw [hob, ho]; simp
      rw [writeAll, List.foldl_cons, putChar_eq, if_pos hlt]
      have := ih { d with ob := d.ob.set d.opos c, opos := d.opos + 1 } (a ++ [c]) z hset
        (by simp [ho]) (by simp [hn]) (by simpa using hc)
      rw [writeAll] at this
      rw [this]
      simp [Nat.add_assoc, Nat.add_comm 1]

theorem emit_eq (s : State) (win : Window) :
    emit s win =
      (s.setTa (taLoad win.count (tripletBytes win.data))).setSd (writeAll s.sd (windowText win)) := rfl

theorem emitAll_eq (s : State) (ws : List Window) :
    emitAll s ws = (s.setTa (lastTa s.ta ws)).setSd (writeAll s.sd (ws.flatMap windowText)) := by
  induction ws generalizing s with
  | nil => rfl
  | cons win ws ih =>
    have : emitAll s (win :: ws) = emitAll (emit s win) ws := rfl
    rw [this, ih, emit_eq, List.flatMap_cons, writeAll_append]
    rfl

/-- TA after the windows of a byte sequence: the last of them. -/
theorem lastTa_windowsOf (t : TA) (s : List Byte) (win : Window)
    (h : (windowsOf s).getLast? = some win) :
    lastTa t (windowsOf s) = { data := win.data, valid := win.count } := by
  obtain ⟨ys, hs⟩ := List.getLast?_eq_some_iff.1 h
  rw [hs, lastTa_append]
  obtain ⟨b, -, hb, rfl⟩ :=
    exists_of_mem_windowsOf s win (by rw [hs]; simp)
  exact taLoad_pack3 b hb

/-! ### Reading elements -/

theorem memRead_congr (s t : State) (a n : Nat) (hm : t.mem = s.mem)
    (he : t.params.hostEndian = s.params.hostEndian) : memRead t a n = memRead s a n := by
  rw [memRead, memRead, hm, he]

theorem memRead_lt (s : State) (a n v : Nat) (h : memRead s a n = .ok v) : v < 2 ^ (8 * n) := by
  rw [memRead] at h
  split at h
  · cases h
  · rename_i m hm
    injection h with h
    have := nativeValue_lt s.params.hostEndian m
    rw [((readBytes_eq_some_iff _ _ _ _).1 hm).1, h] at this
    exact this

theorem memRead_isOk (s : State) (a n : Nat)
    (h : ∀ x, a ≤ x → x < a + n → readable s.mem x = true) : ∃ v, memRead s a n = .ok v := by
  obtain ⟨m, hm⟩ := readBytes_isSome s.mem a n h
  exact ⟨_, by rw [memRead, hm]⟩

/-- The elements still to be read by a run whose cursor stands at `CUR`. -/
def Reads (s : State) (w : Nat) (rs : List Nat) : Prop :=
  s.sd.cur + rs.length = s.sd.count ∧
    ∀ i (h : i < rs.length), readElement s w (s.sd.cur + i) = .ok rs[i]

theorem Reads.head {s : State} {w v : Nat} {rs : List Nat} (h : Reads s w (v :: rs)) :
    readElement s w s.sd.cur = .ok v := h.2 0 (by simp)

theorem Reads.drop {s t : State} {w : Nat} {rs : List Nat} (k : Nat) (h : Reads s w rs)
    (hk : k ≤ rs.length) (hm : t.mem = s.mem) (he : t.params = s.params)
    (hd : t.sd.data = s.sd.data) (hn : t.sd.count = s.sd.count) (hc : t.sd.cur = s.sd.cur + k) :
    Reads t w (rs.drop k) := by
  refine ⟨by rw [List.length_drop, hn, ← h.1, hc]; omega, fun i hi => ?_⟩
  have hi' : i + k < rs.length := by rw [List.length_drop] at hi; omega
  have := h.2 (k + i) (by omega)
  rw [readElement, memRead_congr s t _ _ hm (by rw [he]), hd, hc, Nat.add_assoc]
  rw [readElement] at this
  rw [this, List.getElem_drop]

/-! ### The loops in closed form -/

/-- The state of a run that has emitted `ws` and has read everything. -/
def afterWindows (s : State) (ws : List Window) : State :=
  (s.setTa (lastTa s.ta ws)).setSd
    { writeAll s.sd (ws.flatMap windowText) with cur := s.sd.count }

theorem afterWindows_nil (s : State) (h : s.sd.cur = s.sd.count) : afterWindows s [] = s := by
  have : ({ writeAll s.sd ([].flatMap windowText) with cur := s.sd.count } : SD) = s.sd := by
    rw [← h]; rfl
  rw [afterWindows, this]; rfl

/-- Emitting and advancing, then going on from there, is emitting in one go. -/
theorem afterWindows_step (s : State) (us ws : List Window) (k : Nat) :
    afterWindows (advance (emitAll s us) k) ws = afterWindows s (us ++ ws) := by
  have hc := (writeAll_frame s.sd (us.flatMap windowText)).2.2.1
  have hw := writeAll_setCur (writeAll s.sd (us.flatMap windowText)) (ws.flatMap windowText)
    ((writeAll s.sd (us.flatMap windowText)).cur + k)
  rw [emitAll_eq, afterWindows, afterWindows, lastTa_append, List.flatMap_append, writeAll_append]
  show State.setSd _ { writeAll { writeAll s.sd (us.flatMap windowText) with
      cur := (writeAll s.sd (us.flatMap windowText)).cur + k } (ws.flatMap windowText) with
    cur := (writeAll s.sd (us.flatMap windowText)).count } = _
  rw [hw, hc]; rfl

/-- Emitting the last windows and advancing to the end. -/
theorem advance_emitAll (s : State) (us : List Window) (k : Nat) (h : s.sd.cur + k = s.sd.count) :
    advance (emitAll s us) k = afterWindows s us := by
  have hf := writeAll_frame s.sd (us.flatMap windowText)
  rw [← List.append_nil us, ← afterWindows_step s us [] k, List.append_nil]
  refine (afterWindows_nil _ ?_).symm
  rw [emitAll_eq]
  show (writeAll s.sd _).cur + k = (writeAll s.sd _).count
  rw [hf.2.2.2.1, hf.2.2.1, h]

/-- What emitting and advancing leaves for the rest of the run to read. -/
theorem Reads.next {s : State} {w : Nat} {rs : List Nat} (h : Reads s w rs) (us : List Window)
    (k : Nat) (hk : k ≤ rs.length) : Reads (advance (emitAll s us) k) w (rs.drop k) := by
  have hf := writeAll_frame s.sd (us.flatMap windowText)
  rw [emitAll_eq]
  exact h.drop k hk rfl rfl hf.2.1 hf.2.2.1
    (show (writeAll s.sd _).cur + k = _ by rw [hf.2.2.2.1])

theorem Reads.setWca {s : State} {w : Nat} {rs : List Nat} (h : Reads s w rs) (u : WCA) :
    Reads (s.setWca u) w rs := h

theorem Reads.setW2 {s : State} {w : Nat} {rs : List Nat} (h : Reads s w rs) (u : W2) :
    Reads (s.setW2 u) w rs := h

theorem readByte1_eq (s : State) (i v : Nat) (h : readElement s 1 i = .ok v) :
    readByte1 s i = .ok (BitVec.ofNat 8 v) := by
  rw [readByte1, h]; rfl

/-- Width 1 (R152): over the bytes still to be read, the run emits their windows. -/
theorem run1Loop_eq (rs : List Nat) (fuel : Nat) (s : State) (hf : rs.length ≤ fuel)
    (h : Reads s 1 rs) :
    (do let t ← run1Loop fuel s; run1Tail t) =
      .ok (afterWindows s (windowsOf (rs.map (BitVec.ofNat 8)))) := by
  have hrem : s.sd.count - s.sd.cur = rs.length := by have := h.1; omega
  have tail : rs.length < 3 → run1Loop fuel s = .ok s := fun hl => by
    cases fuel with
    | zero => rfl
    | succ fuel => rw [run1Loop, hrem, if_neg (by omega)]
  match rs, fuel with
  | [], fuel =>
    rw [tail (by simp)]
    show run1Tail s = _
    rw [run1Tail, hrem]
    exact congrArg Except.ok (advance_emitAll s [] 0 h.1)
  | [a], fuel =>
    rw [tail (by simp)]
    show run1Tail s = _
    rw [run1Tail, hrem]
    simp only [List.length_singleton, if_true]
    rw [readByte1_eq s _ a h.head]
    exact congrArg Except.ok (advance_emitAll s [⟨pack3 [BitVec.ofNat 8 a], 1⟩] 1 h.1)
  | [a, b], fuel =>
    rw [tail (by simp)]
    show run1Tail s = _
    rw [run1Tail, hrem]
    rw [if_neg (by simp), if_pos (by simp), readByte1_eq s _ a h.head,
      readByte1_eq s _ b (h.2 1 (by simp))]
    exact congrArg Except.ok
      (advance_emitAll s [⟨pack3 [BitVec.ofNat 8 a, BitVec.ofNat 8 b], 2⟩] 2 h.1)
  | a :: b :: c :: rs, fuel + 1 =>
    rw [run1Loop, hrem, if_pos (by simp), readByte1_eq s _ a h.head,
      readByte1_eq s _ b (h.2 1 (by simp)), readByte1_eq s _ c (h.2 2 (by simp))]
    exact (run1Loop_eq rs fuel _ (by simp only [List.length_cons] at hf; omega)
      (h.next [⟨pack3 [BitVec.ofNat 8 a, BitVec.ofNat 8 b, BitVec.ofNat 8 c], 3⟩] 3 (by simp))).trans
      (congrArg Except.ok (afterWindows_step s
        [⟨pack3 [BitVec.ofNat 8 a, BitVec.ofNat 8 b, BitVec.ofNat 8 c], 3⟩] _ 3))

/-- Widths 4 and 8 (R154): over the elements still to be read, the run feeds WCA and emits what it hands
out. -/
theorem runCarryLoop_eq (w : Nat) (rs : List Nat) (fuel : Nat) (s : State) (hf : rs.length ≤ fuel)
    (h : Reads s w rs) (hw0 : s.wca.wsel ≠ 0) (hw8 : s.wca.wsel.toNat ≤ 8)
    (hrem : s.wca.rem.toNat < 3) :
    runCarryLoop w fuel s =
      .ok (afterWindows (s.setWca (wcaFeed s.wca rs).1) (wcaFeed s.wca rs).2) := by
  match rs, fuel with
  | [], fuel =>
    have hc : s.sd.cur + 0 = s.sd.count := h.1
    have : runCarryLoop w fuel s = .ok s := by
      cases fuel with
      | zero => rfl
      | succ fuel => rw [runCarryLoop, if_neg (by omega)]
    rw [this]
    exact congrArg Except.ok (afterWindows_nil s hc).symm
  | v :: rs, fuel + 1 =>
    have hc : s.sd.cur + (rs.length + 1) = s.sd.count := h.1
    rw [runCarryLoop, if_pos (by omega), h.head]
    simp only [bind, Except.bind]
    rw [wcaLoad_eq _ _ hw0]
    simp only
    rw [Response.carry_windows _ _ (wcaLoad_windows_le _ _ hrem hw8), Response.carry_consumed,
      show (1 : BitVec 2).toNat = 1 from rfl]
    have hr := (h.setWca (wcaNext s.wca v)).next (fullWindows (wcaBytes s.wca v)) 1 (by simp)
    have hu : (advance (emitAll (s.setWca (wcaNext s.wca v)) (fullWindows (wcaBytes s.wca v))) 1).wca =
        wcaNext s.wca v := by rw [emitAll_eq]; rfl
    rw [runCarryLoop_eq w rs fuel _ (by simp only [List.length_cons] at hf; omega) hr
      (by rw [hu]; exact hw0) (by rw [hu]; exact hw8) (by rw [hu]; exact wcaNext_rem_lt s.wca v), hu]
    have := afterWindows_step (s.setWca (wcaFeed (wcaNext s.wca v) rs).1)
      (fullWindows (wcaBytes s.wca v)) (wcaFeed (wcaNext s.wca v) rs).2 1
    rw [emitAll_eq] at this
    rw [emitAll_eq]
    exact congrArg Except.ok this

/-! ### Width 2 -/

/-- One W2.LOAD of a well-driven host: the unit after, and the response. -/
def w2Next (u : W2) (es : List (BitVec 16)) : W2 × Response :=
  match w2Load u (BitVec.ofNat 2 (min 2 es.length)) (es.getD 0 0) (es.getD 1 0) with
  | .ok x => x
  | .error _ => (u, Response.quiet)

/-- W2 driven over elements, without the flush: the unit after, and the windows in order. -/
def w2Feed : Nat → W2 → List (BitVec 16) → W2 × List Window
  | 0, u, _ => (u, [])
  | fuel + 1, u, es =>
    if es = [] then (u, [])
    else
      let (u', r) := w2Next u es
      let (v, ws) := w2Feed fuel u' (es.drop r.consumed.toNat)
      (v, r.windows ++ ws)

/-- What one W2.LOAD of a well-driven host does. -/
theorem w2Next_spec (u : W2) (es : List (BitVec 16)) :
    w2Load u (BitVec.ofNat 2 (min 2 es.length)) (es.getD 0 0) (es.getD 1 0) = .ok (w2Next u es) ∧
      (w2Next u es).2.consumed.toNat ≤ es.length ∧
      (es ≠ [] → 0 < (w2Next u es).2.consumed.toNat) ∧
      windowsOf (w2Carried u ++ byteStream 2 (es.map BitVec.toNat)) =
        (w2Next u es).2.windows ++ windowsOf (w2Carried (w2Next u es).1 ++
          byteStream 2 ((es.drop (w2Next u es).2.consumed.toNat).map BitVec.toNat)) ∧
      (es = [] → (w2Next u es).1.has = false) := by
  obtain ⟨u', r, hl, -, hle, hpos, hwin, hhas⟩ := w2Load_driven u es
  have hn : w2Next u es = (u', r) := by rw [w2Next, hl]
  rw [hn]
  exact ⟨hl, hle, hpos, hwin, hhas⟩

/-- Zero gaps, in the unit (R146). -/
theorem w2Feed_windows (fuel : Nat) (u : W2) (es : List (BitVec 16)) (hf : es.length ≤ fuel) :
    (w2Feed fuel u es).2 ++ (w2Next (w2Feed fuel u es).1 []).2.windows =
      windowsOf (w2Carried u ++ byteStream 2 (es.map BitVec.toNat)) := by
  induction fuel generalizing u es with
  | zero =>
    have : es = [] := List.length_eq_zero_iff.1 (by omega)
    subst this
    obtain ⟨-, -, -, hw, hh⟩ := w2Next_spec u []
    rw [hw]
    simp [w2Feed, w2Carried, hh rfl, byteStream]
  | succ fuel ih =>
    rw [w2Feed]
    by_cases he : es = []
    · subst he
      obtain ⟨-, -, -, hw, hh⟩ := w2Next_spec u []
      rw [hw, if_pos rfl]
      simp [w2Carried, hh rfl, byteStream]
    · obtain ⟨-, hle, hpos, hw, -⟩ := w2Next_spec u es
      rw [if_neg he, hw, ← ih (w2Next u es).1 (es.drop (w2Next u es).2.consumed.toNat)
        (by rw [List.length_drop]; have := hpos he; omega)]
      simp

/-- Width 2 (R153): over the elements still to be read, the run drives W2 and emits what it hands
out. -/
theorem run2Loop_eq (rs : List Nat) (fuel : Nat) (s : State) (hf : rs.length ≤ fuel)
    (h : Reads s 2 rs) :
    run2Loop fuel s =
      .ok (afterWindows (s.setW2 (w2Feed fuel s.w2 (rs.map (BitVec.ofNat 16))).1)
        (w2Feed fuel s.w2 (rs.map (BitVec.ofNat 16))).2) := by
  induction fuel generalizing s rs with
  | zero =>
    have hr : rs = [] := List.length_eq_zero_iff.1 (by omega)
    subst hr
    exact congrArg Except.ok (afterWindows_nil s h.1).symm
  | succ fuel ih =>
    by_cases he : rs = []
    · subst he
      have hc : s.sd.cur + 0 = s.sd.count := h.1
      rw [run2Loop, if_neg (by omega)]
      exact congrArg Except.ok (afterWindows_nil s hc).symm
    · have hlen : 0 < rs.length := List.length_pos_iff.2 he
      have hc := h.1
      have he' : rs.map (BitVec.ofNat 16) ≠ [] := by simpa using he
      obtain ⟨hl, hle, hpos, -, -⟩ := w2Next_spec s.w2 (rs.map (BitVec.ofNat 16))
      have hmin : min 2 (s.sd.count - s.sd.cur) = min 2 (rs.map (BitVec.ofNat 16)).length := by
        rw [List.length_map]; omega
      have h0 : readElement s 2 s.sd.cur = .ok (rs.getD 0 0) := by
        rw [List.getD_eq_getElem _ _ hlen]
        exact h.2 0 hlen
      have h1 : readSecond s (min 2 (s.sd.count - s.sd.cur)) = .ok (rs.getD 1 0) := by
        rw [readSecond]
        split
        · have hl2 : 1 < rs.length := by omega
          rw [h.2 1 hl2, List.getD_eq_getElem _ _ hl2]
        · rw [List.getD_eq_default _ _ (by omega)]
      have g : ∀ i, (rs.map (BitVec.ofNat 16)).getD i 0 = BitVec.ofNat 16 (rs.getD i 0) := fun i => by
        rw [List.getD_eq_getElem?_getD, List.getD_eq_getElem?_getD, List.getElem?_map]
        cases rs[i]? <;> rfl
      rw [run2Loop, if_pos (by omega), w2Feed, if_neg he', h0]
      simp only [bind, Except.bind]
      rw [h1]
      simp only
      rw [hmin, ← g 0, ← g 1, run2Load, hl]
      simp only [bind, Except.bind]
      have hr := (h.setW2 (w2Next s.w2 (rs.map (BitVec.ofNat 16))).1).next
        (w2Next s.w2 (rs.map (BitVec.ofNat 16))).2.windows
        (w2Next s.w2 (rs.map (BitVec.ofNat 16))).2.consumed.toNat (by simpa using hle)
      rw [ih _ _ (by rw [List.length_drop]; have := hpos he'; omega) hr, List.map_drop]
      generalize w2Next s.w2 (rs.map (BitVec.ofNat 16)) = n
      have hu : (advance (emitAll (s.setW2 n.1) n.2.windows) n.2.consumed.toNat).w2 = n.1 := by
        rw [emitAll_eq]; rfl
      rw [hu]
      generalize w2Feed fuel n.1 ((rs.map (BitVec.ofNat 16)).drop n.2.consumed.toNat) = f
      have := afterWindows_step (s.setW2 f.1) n.2.windows f.2 n.2.consumed.toNat
      rw [emitAll_eq] at this
      rw [emitAll_eq]
      exact congrArg Except.ok this

end Sys2Proof.Machine
end

