-- ==== Sys2Proof/Laws/Run.lean ====
section
/-! SUPPORT. The whole of B64.RUN in closed form: a run that passes its checks, over the elements it
reads, and when its checks pass. -/

namespace Sys2Proof.Machine

/-! ### The checks (R151) -/

theorem legalWidth_iff (w : BitVec 4) : legalWidth w = true ↔ w ∈ [1#4, 2#4, 4#4, 8#4] := by
  revert w; decide

theorem legalCarryWidth_iff (w : BitVec 4) : legalCarryWidth w = true ↔ w ∈ [2#4, 4#4, 8#4] := by
  revert w; decide

theorem sizeTooBig_iff (p : Params) (w data count : Nat) :
    sizeTooBig p w data count = true ↔
      2 ^ p.cntBits ≤ count * w ∨ 2 ^ p.cntBits ≤ (count * w + 2) / 3 * 4 ∨
        2 ^ p.addrBits < data + count * w := by
  rw [sizeTooBig, Bool.or_eq_true, Bool.or_eq_true, decide_eq_true_iff, decide_eq_true_iff,
    decide_eq_true_iff, or_assoc]
  rfl

/-- The checks pass exactly for the runs that fit. -/
theorem runChecks_ok_iff (s : State) (w : BitVec 4) (data count : Nat) :
    runChecks s w data count = .ok () ↔ RunFits s w data count := by
  constructor
  · intro h
    rw [runChecks] at h
    split at h
    · cases h
    · split at h
      · cases h
      · split at h
        · cases h
        · split at h
          · cases h
          · rename_i h1 h2 h3 h4
            rw [sizeTooBig_iff] at h3
            have h5 := (rangeReadable_iff _ _ _).1 (by simpa using h4)
            exact ⟨(legalWidth_iff w).1 (by simpa using h1),
              fun h0 => not_not.1 fun hn => h2 ⟨h0, hn⟩,
              by omega, by omega, by omega, fun a ha hb => h5 a ha hb⟩
  · rintro ⟨h1, h2, h3, h4, h5, h6⟩
    have hs : ¬ sizeTooBig s.params w.toNat data count = true := by
      rw [sizeTooBig_iff]; omega
    have hr : rangeReadable s.mem data (runTotal w.toNat count) = true :=
      (rangeReadable_iff _ _ _).2 h6
    rw [runChecks, (legalWidth_iff w).2 h1, if_neg (by simp), if_neg (fun h => h.2 (h2 h.1)), if_neg hs,
      hr]
    rfl

/-- A run that fits has elements to read. -/
theorem RunFits.elements {s : State} {w : BitVec 4} {data count : Nat} (h : RunFits s w data count) :
    ∃ vs, HoldsElements s w.toNat data count vs := by
  have hr : ∀ i, i < count → ∃ v, memRead s (data + i * w.toNat) w.toNat = .ok v := fun i hi => by
    refine memRead_isOk s _ _ fun x hx hx' => h.readable x (by omega) ?_
    have : (i + 1) * w.toNat ≤ count * w.toNat := Nat.mul_le_mul_right _ hi
    rw [Nat.succ_mul] at this
    omega
  have hw : ∀ i, ∃ v, i < count → memRead s (data + i * w.toNat) w.toNat = .ok v := fun i => by
    by_cases hi : i < count
    · obtain ⟨v, hv⟩ := hr i hi; exact ⟨v, fun _ => hv⟩
    · exact ⟨0, fun h => absurd h hi⟩
  choose f hf using hw
  refine ⟨(List.range count).map f, by simp, fun i hi => ?_⟩
  rw [hf i hi, List.getD_eq_getElem _ _ (by simpa using hi)]
  simp

/-! ### The loops from the set-up -/

theorem emitAll_afterWindows (s : State) (ws us : List Window) :
    emitAll (afterWindows s ws) us = afterWindows s (ws ++ us) := by
  have hw := writeAll_setCur (writeAll s.sd (ws.flatMap windowText)) (us.flatMap windowText) s.sd.count
  rw [emitAll_eq, afterWindows, afterWindows, lastTa_append, List.flatMap_append, writeAll_append]
  exact (congrArg (State.setSd _) hw).trans rfl

theorem byteStream_one (vs : List Nat) : byteStream 1 vs = vs.map (BitVec.ofNat 8) := by
  induction vs with
  | nil => rfl
  | cons v vs ih =>
    rw [byteStream, List.flatMap_cons, ← byteStream, ih, bon_succ, bon_zero]; rfl

/-- Elements cut to their width give the same stream. -/
theorem byteStream_mod (w : Nat) (vs : List Nat) :
    byteStream w (vs.map (· % 2 ^ (8 * w))) = byteStream w vs := by
  induction vs with
  | nil => rfl
  | cons v vs ih =>
    simp only [byteStream, List.map_cons, List.flatMap_cons, bon_mod] at ih ⊢
    rw [ih]

theorem byteStream_length (w : Nat) (vs : List Nat) : (byteStream w vs).length = vs.length * w := by
  induction vs with
  | nil => simp [byteStream]
  | cons v vs ih =>
    rw [byteStream, List.flatMap_cons, ← byteStream, List.length_append, bon_length, ih,
      List.length_cons, Nat.succ_mul, Nat.add_comm]

theorem byteStream_two (vs : List Nat) :
    byteStream 2 ((vs.map (BitVec.ofNat 16)).map BitVec.toNat) = byteStream 2 vs := by
  rw [← byteStream_mod 2 vs, List.map_map]
  rfl

/-- WCA after a run (R154, R158). -/
def wcaAfterRun (w : BitVec 4) (vs : List Nat) (u : WCA) : WCA :=
  if w = 1 ∨ w = 2 then u else wcaDrained (wcaFeed (wcaNew w) vs).1

/-- W2 after a run (R153, R158). -/
def w2AfterRun (w : BitVec 4) (vs : List Nat) (u : W2) : W2 :=
  if w = 2 then (w2Next (w2Feed vs.length W2.fresh (vs.map (BitVec.ofNat 16))).1 []).1 else u

/-- The loop of the width in closed form, from a state whose elements are still to be read. -/
theorem runStream_eq (w : BitVec 4) (s : State) (vs : List Nat) (hw : w ∈ [1#4, 2#4, 4#4, 8#4])
    (h : Reads s w.toNat vs) (h0 : s.sd.cur = 0) :
    runStream w s =
      .ok (afterWindows ((s.setWca (wcaAfterRun w vs s.wca)).setW2 (w2AfterRun w vs s.w2))
        (windowsOf (byteStream w.toNat vs))) := by
  have hlen : s.sd.count = vs.length := by have := h.1; omega
  have carry : ∀ w : BitVec 4, w = 4 ∨ w = 8 → Reads s w.toNat vs →
      runCarry w s = .ok (afterWindows (s.setWca (wcaDrained (wcaFeed (wcaNew w) vs).1))
        (windowsOf (byteStream w.toNat vs))) := fun w hw h => by
    have hne : (wcaNew w).wsel ≠ 0 := by rcases hw with rfl | rfl <;> decide
    have hle : (wcaNew w).wsel.toNat ≤ 8 := by rcases hw with rfl | rfl <;> decide
    have hz : (wcaNew w).rem.toNat < 3 := by show (0 : BitVec 2).toNat < 3; decide
    have hc : wcaCarried (wcaNew w) = [] := rfl
    rw [runCarry, runCarryLoop_eq w.toNat vs s.sd.count (s.setWca (wcaNew w)) (by omega) (h.setWca _)
      hne hle hz]
    simp only [bind, Except.bind]
    rw [show (afterWindows ((s.setWca (wcaNew w)).setWca (wcaFeed (s.setWca (wcaNew w)).wca vs).1)
        (wcaFeed (s.setWca (wcaNew w)).wca vs).2).wca = (wcaFeed (wcaNew w) vs).1 from rfl,
      wcaFlush_eq _ (by rw [wcaFeed_wsel]; exact hne)]
    have hwin := wcaFeed_windows (wcaNew w) vs hz
    rw [hc, List.nil_append] at hwin
    simp only
    rw [Response.carry_windows _ _ (wcaFlushWindows_length _)]
    show Except.ok (emitAll (afterWindows (s.setWca (wcaDrained (wcaFeed (wcaNew w) vs).1))
      (wcaFeed (wcaNew w) vs).2) _) = _
    rw [emitAll_afterWindows, hwin]
    rfl
  simp only [List.mem_cons, List.not_mem_nil, or_false] at hw
  rcases hw with rfl | rfl | rfl | rfl
  · show run1 s = _
    rw [run1, run1Loop_eq vs _ s (by omega) h]
    show _ = Except.ok (afterWindows s (windowsOf (byteStream 1 vs)))
    rw [byteStream_one]
  · show run2 s = _
    rw [run2, run2Loop_eq vs _ (s.setW2 W2.fresh) (by omega) (h.setW2 _), hlen]
    simp only [bind, Except.bind]
    obtain ⟨hl, -⟩ := w2Next_spec (w2Feed vs.length W2.fresh (vs.map (BitVec.ofNat 16))).1 []
    have hl' : w2Load (w2Feed vs.length W2.fresh (vs.map (BitVec.ofNat 16))).1 0 0 0 = _ := hl
    have hwin := w2Feed_windows vs.length W2.fresh (vs.map (BitVec.ofNat 16)) (by simp)
    rw [byteStream_two, show w2Carried W2.fresh = [] from rfl, List.nil_append] at hwin
    rw [run2Load]
    simp only [bind, Except.bind]
    rw [show ((afterWindows ((s.setW2 W2.fresh).setW2 (w2Feed vs.length (s.setW2 W2.fresh).w2
          (vs.map (BitVec.ofNat 16))).1) (w2Feed vs.length (s.setW2 W2.fresh).w2
          (vs.map (BitVec.ofNat 16))).2)).w2 =
        (w2Feed vs.length W2.fresh (vs.map (BitVec.ofNat 16))).1 from rfl, hl']
    simp only
    show Except.ok (emitAll (afterWindows
        (s.setW2 (w2Next (w2Feed vs.length W2.fresh (vs.map (BitVec.ofNat 16))).1 []).1)
        (w2Feed vs.length W2.fresh (vs.map (BitVec.ofNat 16))).2) _) = _
    rw [emitAll_afterWindows, hwin]
    rfl
  · exact carry 4 (.inl rfl) h
  · exact carry 8 (.inr rfl) h

/-! ### The command -/

/-- The sequencer after a run over the byte stream `S` (R157). -/
def sdAfterRun (w : BitVec 4) (data count : Nat) (S : List Byte) : SD :=
  { w := w, data := data, count := count, cur := count, opos := runLength w.toNat count,
    oblen := runLength w.toNat count, ob := base64Text S }

/-- The state a run leaves, but for its response. -/
def stateAfterRun (w : BitVec 4) (data count : Nat) (vs : List Nat) (s : State) : State :=
  { s with
    ta := lastTa TA.fresh (windowsOf (byteStream w.toNat vs))
    wca := wcaAfterRun w vs s.wca
    w2 := w2AfterRun w vs s.w2
    sd := sdAfterRun w data count (byteStream w.toNat vs) }

theorem Reads.of_setup {s : State} {w : BitVec 4} {data count : Nat} {vs : List Nat}
    (h : HoldsElements s w.toNat data count vs) : Reads (runSetup s w data count) w.toNat vs := by
  refine ⟨by show 0 + vs.length = count; rw [h.1]; omega, fun i hi => ?_⟩
  have := h.2 i (by rw [← h.1]; exact hi)
  show memRead s (data + w.toNat * (0 + i)) w.toNat = _
  rw [Nat.zero_add, Nat.mul_comm, this, List.getD_eq_getElem _ _ hi]

/-- A run that passes its checks, in closed form. -/
theorem runEffect_eq {s : State} {w : BitVec 4} {data count : Nat} {vs : List Nat}
    (hfit : RunFits s w data count) (h : HoldsElements s w.toNat data count vs) :
    runEffect w data count s =
      .ok (stateAfterRun w data count vs s,
        Response.scalar (lengthAnswer (runLength w.toNat count))) := by
  have hlen : (base64Text (byteStream w.toNat vs)).length = runLength w.toNat count := by
    rw [base64Text_length, byteStream_length, h.1]; rfl
  have hfill : writeAll (runSetup s w data count).sd (base64Text (byteStream w.toNat vs)) =
      { (runSetup s w data count).sd with
        ob := base64Text (byteStream w.toNat vs), opos := runLength w.toNat count } := by
    rw [writeAll_fill _ [] (base64Text (byteStream w.toNat vs))
      (List.replicate (runLength w.toNat count) 0) rfl rfl
      (by show _ = (List.replicate _ _).length; rw [List.length_replicate]; rfl)
      (by rw [hlen, List.length_replicate])]
    simp [hlen]
  have ht : afterWindows (((runSetup s w data count).setWca (wcaAfterRun w vs s.wca)).setW2
      (w2AfterRun w vs s.w2)) (windowsOf (byteStream w.toNat vs)) = stateAfterRun w data count vs s := by
    rw [afterWindows, ← base64Text_eq_windowText]
    show State.setSd _ { writeAll (runSetup s w data count).sd _ with cur := count } = _
    rw [hfill]; rfl
  rw [runEffect, (runChecks_ok_iff s w data count).2 hfit]
  simp only [bind, Except.bind]
  rw [runStream_eq w _ vs hfit.width (Reads.of_setup h) rfl]
  have hu : afterWindows (((runSetup s w data count).setWca (wcaAfterRun w vs
      (runSetup s w data count).wca)).setW2 (w2AfterRun w vs (runSetup s w data count).w2))
      (windowsOf (byteStream w.toNat vs)) = stateAfterRun w data count vs s := ht
  simp only [hu]; rfl

/-- The effect of B64.RUN, one of two: a check fails, or the run completes over the elements it reads. -/
theorem runEffect_cases (w : BitVec 4) (data count : Nat) (s : State) :
    (¬ RunFits s w data count ∧ ∃ c, runChecks s w data count = .error c ∧
      runEffect w data count s = .error c) ∨
    (RunFits s w data count ∧ ∃ vs, HoldsElements s w.toNat data count vs ∧
      runEffect w data count s = .ok (stateAfterRun w data count vs s,
        Response.scalar (lengthAnswer (runLength w.toNat count)))) := by
  by_cases hfit : RunFits s w data count
  · obtain ⟨vs, hvs⟩ := hfit.elements
    exact .inr ⟨hfit, vs, hvs, runEffect_eq hfit hvs⟩
  · cases hc : runChecks s w data count with
    | ok u => exact absurd ((runChecks_ok_iff _ _ _ _).1 hc) hfit
    | error c => exact .inl ⟨hfit, c, rfl, by rw [runEffect, hc]; rfl⟩

/-- B64.RUN, one of three: the block was faulted, a check failed, or the run completed over the elements
it read. -/
theorem execB64Run_cases (w : BitVec 4) (data count : Nat) (s : State) :
    (s.fault = true ∧ execB64Run w data count s = .next (answerFaulted s)) ∨
    (s.fault = false ∧ ¬ RunFits s w data count ∧ ∃ c, runChecks s w data count = .error c ∧
      execB64Run w data count s = .next (raiseFault s c)) ∨
    (s.fault = false ∧ RunFits s w data count ∧ ∃ vs, HoldsElements s w.toNat data count vs ∧
      execB64Run w data count s = .next ((stateAfterRun w data count vs s).setRsp
        (Response.scalar (lengthAnswer (runLength w.toNat count))))) := by
  cases hf : s.fault
  · right
    rcases runEffect_cases w data count s with ⟨hfit, c, hc, he⟩ | ⟨hfit, vs, hvs, he⟩
    · exact .inl ⟨rfl, hfit, c, hc, by rw [execB64Run, he, perform_error s c hf]⟩
    · exact .inr ⟨rfl, hfit, vs, hvs, by rw [execB64Run, he, perform_ok s _ _ hf]⟩
  · exact .inl ⟨rfl, perform_faulted s _ hf⟩

/-- A run over given elements, as a next state. -/
theorem execB64Run_eq {s : State} {w : BitVec 4} {data count : Nat} {vs : List Nat}
    (hf : s.fault = false) (hfit : RunFits s w data count)
    (h : HoldsElements s w.toNat data count vs) :
    execB64Run w data count s = .next ((stateAfterRun w data count vs s).setRsp
      (Response.scalar (lengthAnswer (runLength w.toNat count)))) := by
  rw [execB64Run, runEffect_eq hfit h, perform_ok s _ _ hf]

end Sys2Proof.Machine
end

