-- ==== Sys2Proof/Laws/Exec.lean ====
section
/-! SUPPORT. Every command as an effect in the shared frame, and what no effect changes. -/

namespace Sys2Proof.Machine

/-- What each command works out on the state before it. -/
def effectOf (i : Instr) (s : State) : Effect :=
  match i with
  | .bonNorm w opd =>
    if legalWidth w then .ok (s, Response.scalar (busOf (bon (opdElement opd w.toNat) w.toNat)))
    else .error .width
  | .bonDenorm w opd =>
    if legalWidth w then .ok (s, Response.scalar (BitVec.ofNat 64 (den (opdBytes opd w.toNat))))
    else .error .width
  | .taNew => .ok (s.setTa TA.fresh, Response.quiet)
  | .taLoad n opd => .ok (s.setTa (taLoad n (opdWindow opd)), Response.quiet)
  | .taValid k => .ok (s, Response.scalar (if byteValid s.ta k then 1 else 0))
  | .taX6 g => .ok (s, Response.scalar ((six s.ta.data g).setWidth 64))
  | .taEnc g => .ok (s, Response.scalar ((taEnc s.ta g).setWidth 64))
  | .taEncp g => .ok (s, Response.scalar ((taEncp s.ta g).setWidth 64))
  | .wcaNew w =>
    if legalCarryWidth w then .ok (s.setWca (wcaNew w), Response.quiet) else .error .width
  | .wcaLoad opd => (wcaLoad s.wca (opdElement opd s.wca.wsel.toNat)).map fun x => (s.setWca x.1, x.2)
  | .wcaFlush => (wcaFlush s.wca).map fun x => (s.setWca x.1, x.2)
  | .w2New => .ok (s.setW2 W2.fresh, Response.quiet)
  | .w2Load c opd => (w2Load s.w2 c (opdE0 opd) (opdE1 opd)).map fun x => (s.setW2 x.1, x.2)
  | .b64Run w opa opc => runEffect w opa opc s

/-- Every command runs in the shared frame. -/
theorem exec_eq_perform (i : Instr) (s : State) : exec i s = perform s (effectOf i s) := by
  cases i <;> rfl

theorem exec_faulted (i : Instr) (s : State) (h : s.fault = true) :
    exec i s = .next (answerFaulted s) := by
  rw [exec_eq_perform, perform_faulted s _ h]

/-- A command that answers, one of three: the block was faulted, the command raised a fault, or its effect
took place. -/
theorem exec_cases (i : Instr) (s t : State) (h : exec i s = .next t) :
    (s.fault = true ∧ t = answerFaulted s) ∨
    (s.fault = false ∧ ∃ c, effectOf i s = .error c ∧ t = raiseFault s c) ∨
    (s.fault = false ∧ ∃ u r, effectOf i s = .ok (u, r) ∧ t = u.setRsp r) := by
  rw [exec_eq_perform] at h
  rcases perform_cases s (effectOf i s) with ⟨hf, hp⟩ | ⟨hf, c, hc, hp⟩ | ⟨hf, u, r, hr, hp⟩ <;>
    rw [hp] at h <;> injection h with h
  · exact .inl ⟨hf, h.symm⟩
  · exact .inr (.inl ⟨hf, c, hc, h.symm⟩)
  · exact .inr (.inr ⟨hf, u, r, hr, h.symm⟩)

/-- The carry units' effects write their unit and nothing else (10_state.md R45). -/
theorem map_setWca {s t : State} {r : Response} {x : Except Cause (WCA × Response)}
    (h : x.map (fun y => (s.setWca y.1, y.2)) = .ok (t, r)) : ∃ u, x = .ok (u, r) ∧ t = s.setWca u := by
  cases x with
  | error c => cases h
  | ok y => cases h; exact ⟨y.1, rfl, rfl⟩

theorem map_setW2 {s t : State} {r : Response} {x : Except Cause (W2 × Response)}
    (h : x.map (fun y => (s.setW2 y.1, y.2)) = .ok (t, r)) : ∃ u, x = .ok (u, r) ∧ t = s.setW2 u := by
  cases x with
  | error c => cases h
  | ok y => cases h; exact ⟨y.1, rfl, rfl⟩

/-- No effect changes the parameters, the input memory, the host's list, FAULT or CAUSE; and no effect
answers a fault. -/
theorem effectOf_frame (i : Instr) (s t : State) (r : Response) (h : effectOf i s = .ok (t, r)) :
    t.params = s.params ∧ t.mem = s.mem ∧ t.pending = s.pending ∧ t.fault = s.fault ∧
      t.cause = s.cause := by
  cases i with
  | bonNorm w opd => rw [effectOf] at h; split at h <;> cases h; simp
  | bonDenorm w opd => rw [effectOf] at h; split at h <;> cases h; simp
  | wcaNew w => rw [effectOf] at h; split at h <;> cases h; simp
  | wcaLoad opd => obtain ⟨u, -, rfl⟩ := map_setWca h; simp
  | wcaFlush => obtain ⟨u, -, rfl⟩ := map_setWca h; simp
  | w2Load c opd => obtain ⟨u, -, rfl⟩ := map_setW2 h; simp
  | b64Run w data count =>
    rcases runEffect_cases w data count s with ⟨-, c, -, he⟩ | ⟨-, vs, -, he⟩
    · rw [effectOf, he] at h; cases h
    · rw [effectOf, he] at h; cases h; exact ⟨rfl, rfl, rfl, rfl, rfl⟩
  | _ => cases h; simp

end Sys2Proof.Machine
end

