-- ==== Sys2Proof/Laws/PerInstr.lean ====
section
/-! SUPPORT. Statements about every instruction, one lemma per constructor. -/

namespace Sys2Proof.Laws.FormatC

/-- The word of an instruction is of format C (30_encoding.md R70, R72): its opcode has a row of the map,
its reserved field is 0, and so is each of the fields `w` and `k` that the row does not use. -/
def Statement (i : Instr) : Prop :=
  ∃ op, opcodeOf (cwOpcode (encode i).cw) = some op ∧ cwReserved (encode i).cw = 0 ∧
    (usesWidth op = false → cwWidth (encode i).cw = 0) ∧
    (usesSmall op = false → cwSmall (encode i).cw = 0)

theorem bonNorm (w : BitVec 4) (opd : DataWord) : Statement (.bonNorm w opd) :=
  ⟨.bonNorm, congrArg opcodeOf (cwOpcode_commandWord ..), cwReserved_commandWord ..,
    Bool.noConfusion, fun _ => cwSmall_commandWord ..⟩

theorem bonDenorm (w : BitVec 4) (opd : DataWord) : Statement (.bonDenorm w opd) :=
  ⟨.bonDenorm, congrArg opcodeOf (cwOpcode_commandWord ..), cwReserved_commandWord ..,
    Bool.noConfusion, fun _ => cwSmall_commandWord ..⟩

theorem taNew : Statement .taNew := ⟨.taNew, by decide⟩

theorem taLoad (n : BitVec 2) (opd : DataWord) : Statement (.taLoad n opd) :=
  ⟨.taLoad, congrArg opcodeOf (cwOpcode_commandWord ..), cwReserved_commandWord ..,
    fun _ => cwWidth_commandWord .., Bool.noConfusion⟩

theorem taValid (i : BitVec 2) : Statement (.taValid i) :=
  ⟨.taValid, congrArg opcodeOf (cwOpcode_commandWord ..), cwReserved_commandWord ..,
    fun _ => cwWidth_commandWord .., Bool.noConfusion⟩

theorem taX6 (g : BitVec 2) : Statement (.taX6 g) :=
  ⟨.taX6, congrArg opcodeOf (cwOpcode_commandWord ..), cwReserved_commandWord ..,
    fun _ => cwWidth_commandWord .., Bool.noConfusion⟩

theorem taEnc (g : BitVec 2) : Statement (.taEnc g) :=
  ⟨.taEnc, congrArg opcodeOf (cwOpcode_commandWord ..), cwReserved_commandWord ..,
    fun _ => cwWidth_commandWord .., Bool.noConfusion⟩

theorem taEncp (g : BitVec 2) : Statement (.taEncp g) :=
  ⟨.taEncp, congrArg opcodeOf (cwOpcode_commandWord ..), cwReserved_commandWord ..,
    fun _ => cwWidth_commandWord .., Bool.noConfusion⟩

theorem wcaNew (w : BitVec 4) : Statement (.wcaNew w) :=
  ⟨.wcaNew, congrArg opcodeOf (cwOpcode_commandWord ..), cwReserved_commandWord ..,
    Bool.noConfusion, fun _ => cwSmall_commandWord ..⟩

theorem wcaLoad (opd : DataWord) : Statement (.wcaLoad opd) :=
  ⟨.wcaLoad, congrArg opcodeOf (cwOpcode_commandWord ..), cwReserved_commandWord ..,
    fun _ => cwWidth_commandWord .., fun _ => cwSmall_commandWord ..⟩

theorem wcaFlush : Statement .wcaFlush := ⟨.wcaFlush, by decide⟩

theorem w2New : Statement .w2New := ⟨.w2New, by decide⟩

theorem w2Load (c : BitVec 2) (opd : DataWord) : Statement (.w2Load c opd) :=
  ⟨.w2Load, congrArg opcodeOf (cwOpcode_commandWord ..), cwReserved_commandWord ..,
    fun _ => cwWidth_commandWord .., Bool.noConfusion⟩

theorem b64Run (w : BitVec 4) (opa opc : Nat) : Statement (.b64Run w opa opc) :=
  ⟨.b64Run, congrArg opcodeOf (cwOpcode_commandWord ..), cwReserved_commandWord ..,
    Bool.noConfusion, fun _ => cwSmall_commandWord ..⟩

end Sys2Proof.Laws.FormatC
end

