-- ==== Sys2Proof/Tests/Slice0.lean ====
section
/-! SUPPORT. The model's own tests: words written out from the encodings of the spec, the vectors of
95_test_vectors.md one step at a time, and for every statement with hypotheses a concrete state and
operands that meet them. -/

namespace Sys2Proof.Tests

open Sys2Proof.Machine

/-! ### Helpers -/

/-- The bytes `bs` from address `a` on. -/
def cells (a : Nat) : List Byte → Memory
  | [] => []
  | b :: bs => (a, b) :: cells (a + 1) bs

/-- The reset state with a strap and an input memory. -/
def host (e : Endian) (a : Nat) (bs : List Byte) : State :=
  { State.reset with params := { Params.standard with hostEndian := e }, mem := cells a bs }

/-- A command presented next. -/
def offer (c : Command) (s : State) : State := s.setPending [.command c]

/-- One field of the next state, if there is one. -/
def got {α : Type} (f : State → α) (o : Host.Outcome State Fault Refusal) : Option α :=
  match o with
  | .next t => some (f t)
  | .fault _ => none
  | .refused _ => none

/-- FAULT and CAUSE. -/
def status (s : State) : Bool × BitVec 3 := (s.fault, s.cause)

/-- The reset state with a loaded window. -/
def loaded (n : BitVec 2) (d : Triplet) : State := State.reset.setTa ⟨d, n⟩

/-- The reset state with a WCA instance that carries `rem` bytes of `rb`. -/
def carrying (w : BitVec 4) (rem : BitVec 2) (b0 b1 : Byte) : State :=
  State.reset.setWca { WCA.absent with wsel := w, rem := rem, rb := #v[b0, b1] }

/-- The reset state with a W2 that holds a leftover, as after case C of V41. -/
def heldW2 : State := State.reset.setW2 ⟨0x4D61, 0x6E20, true⟩

/-- A faulted block with no zero register (for reset and the sticky fault). -/
def dirty : State :=
  { State.reset with
    ta := ⟨0x4D616E, 3⟩, wca := ⟨4, #v[1, 2, 3, 4, 0, 0, 0, 0], #v[5, 0], 1, 4⟩, w2 := ⟨1, 2, true⟩,
    sd := { w := 1, data := 0x100, count := 1, cur := 1, opos := 4, oblen := 4,
            ob := [0x41, 0x51, 0x3D, 0x3D] },
    fault := true, cause := 4, mem := cells 0x100 [1] }

/-! ### WellFormed and legal: an ill-formed term for each check -/

theorem test_wellFormed_refuses_address :
    (Instr.b64Run 1 (2 ^ 64) 0).wellFormed Params.standard = false := by decide
theorem test_wellFormed_refuses_count :
    (Instr.b64Run 1 0 (2 ^ 64)).wellFormed Params.standard = false := by decide
theorem test_wellFormed_accepts_greatest :
    (Instr.b64Run 15 (2 ^ 64 - 1) (2 ^ 64 - 1)).wellFormed Params.standard = true := by decide
theorem test_legal_refuses_bonNorm : (Instr.bonNorm 3 5).legal = false := by decide
theorem test_legal_refuses_bonDenorm : (Instr.bonDenorm 0 5).legal = false := by decide
theorem test_legal_refuses_wcaNew : (Instr.wcaNew 1).legal = false := by decide
theorem test_legal_refuses_b64Run : (Instr.b64Run 5 1 1).legal = false := by decide
theorem test_legal_refuses_w2Load : (Instr.w2Load 3 0).legal = false := by decide

/-! ### Decoding: each row's word, written out from format C (R70, R72) -/

/-- 00010000 0100 00 00: opcode 0x10, w = 4 (V12). -/
theorem test_decode_bonNorm :
    decode Params.standard ⟨0b0001000001000000, 0xFFFFF9, 0, 0⟩ = .ok (.bonNorm 4 0xFFFFF9) := by
  decide
theorem test_decode_bonDenorm :
    decode Params.standard ⟨0b0001000101000000, 0xFFFFF9, 0, 0⟩ = .ok (.bonDenorm 4 0xFFFFF9) := by
  decide
theorem test_decode_taNew : decode Params.standard ⟨0b0010000000000000, 7, 0, 0⟩ = .ok .taNew := by
  decide
theorem test_decode_taLoad :
    decode Params.standard ⟨0b0010000100000010, 0x4D61FF, 0, 0⟩ = .ok (.taLoad 2 0x4D61FF) := by decide
theorem test_decode_taValid :
    decode Params.standard ⟨0b0010001000000001, 0, 0, 0⟩ = .ok (.taValid 1) := by decide
theorem test_decode_taX6 :
    decode Params.standard ⟨0b0010001100000011, 0, 0, 0⟩ = .ok (.taX6 3) := by decide
theorem test_decode_taEnc :
    decode Params.standard ⟨0b0010010000000010, 0, 0, 0⟩ = .ok (.taEnc 2) := by decide
theorem test_decode_taEncp :
    decode Params.standard ⟨0b0010010100000011, 0, 0, 0⟩ = .ok (.taEncp 3) := by decide
theorem test_decode_wcaNew :
    decode Params.standard ⟨0b0011000010000000, 0, 0, 0⟩ = .ok (.wcaNew 8) := by decide
theorem test_decode_wcaLoad :
    decode Params.standard ⟨0b0011000100000000, 0xDEADBEEF, 0, 0⟩ = .ok (.wcaLoad 0xDEADBEEF) := by
  decide
theorem test_decode_wcaFlush :
    decode Params.standard ⟨0b0011001000000000, 0, 0, 0⟩ = .ok .wcaFlush := by decide
theorem test_decode_w2New : decode Params.standard ⟨0b0100000000000000, 0, 0, 0⟩ = .ok .w2New := by
  decide
theorem test_decode_w2Load :
    decode Params.standard ⟨0b0100000100000010, 0x6E204D61, 0, 0⟩ = .ok (.w2Load 2 0x6E204D61) := by
  decide
theorem test_decode_b64Run :
    decode Params.standard ⟨0b0101000010000000, 0, 0x2000, 1⟩ = .ok (.b64Run 8 0x2000 1) := by decide

/-- A width the row's command calls illegal still selects the row (R74). -/
theorem test_decode_keeps_illegal_width :
    decode Params.standard ⟨0x5030, 0, 0, 5⟩ = .ok (.b64Run 3 0 5) := by decide
/-- Address and count are read from as many wires as the parameters give (R43). -/
theorem test_decode_signals_have_their_width :
    decode ⟨.little, 16, 8⟩ ⟨0x5010, 0, 0x12345, 0x1FF⟩ = .ok (.b64Run 1 0x2345 0xFF) := by decide

/-- V60: the opcodes that are not in the map. -/
theorem test_decode_unknown_opcodes :
    ([0x0000, 0x0F00, 0x1200, 0x2600, 0x3300, 0x4200, 0x5100, 0xFFFF].all fun cw =>
      decode Params.standard ⟨cw, 0, 0, 0⟩ == .error .unknownOpcode) = true := by decide
/-- V60: TA.NEW with rsv = 1. -/
theorem test_decode_reserved :
    decode Params.standard ⟨0x2004, 0, 0, 0⟩ = .error .reservedBits := by decide
/-- V60: WCA.LOAD with w = 1. -/
theorem test_decode_unused_width :
    decode Params.standard ⟨0x3110, 0, 0, 0⟩ = .error .unusedWidth := by decide
/-- V60: B64.RUN with k = 1, TA.NEW with k = 1. -/
theorem test_decode_unused_small :
    decode Params.standard ⟨0x5041, 0, 0, 0⟩ = .error .unusedSmall ∧
      decode Params.standard ⟨0x2001, 0, 0, 0⟩ = .error .unusedSmall := by decide

/-- R79: the words of the written forms with an operand put together (V41, P1). -/
theorem test_assembled_operands :
    encode (asmW2Load 2 0x4D61 0x6E20) = ⟨0x4102, 0x6E204D61, 0, 0⟩ ∧
      encode (asmTaLoad 3 0xDEADBE) = ⟨0x2103, 0xDEADBE, 0, 0⟩ := by decide
/-- R80: W2.FLUSH is the word 0x4100 with operand 0 (P2). -/
theorem test_expand_w2Flush : (expand .w2Flush).map encode = [⟨0x4100, 0, 0, 0⟩] := by decide

/-- The opcode table's row of B64.RUN, operands 0. -/
theorem test_decodeTableWord : decodeTableWord 16 0x5000 = some (.b64Run 0 0 0) := by decide
/-- The all-zero word is illegal (R73). -/
theorem test_decodeTableWord_zero : decodeTableWord 16 0 = none := by decide
/-- The table word runs as the next step, as the first command after reset (R190). -/
theorem test_withFetchWord :
    got (·.rsp.val) (step (State.reset.withFetchWord 16 0x2501)) = some 0x3D := by decide

/-! ### The alphabet (R105) -/

/-- The formula of R105 against its table. -/
theorem test_alphabet : ((List.range 64).all fun i =>
    alphaCode (BitVec.ofNat 6 i) == base64Table.getD i 0) = true := by decide

/-! ### BON (V10 to V19) -/

/-- V12 and V14. -/
theorem test_bonNorm :
    got (·.rsp.val) (exec (.bonNorm 4 0xFFFFF9) State.reset) = some 0xFFFFF9 ∧
      got (·.rsp.val) (exec (.bonNorm 2 0xDEADBEEF) State.reset) = some 0xBEEF := by decide
/-- V12, V13: the byte sequences. -/
theorem test_bon_bytes :
    bon 0xFFFFF9 4 = [0x00, 0xFF, 0xFF, 0xF9] ∧
      bon 0x0102030405060708 8 = [1, 2, 3, 4, 5, 6, 7, 8] := by decide
/-- V17. -/
theorem test_bonDenorm :
    got (·.rsp.val) (exec (.bonDenorm 4 0xFFFFF9) State.reset) = some 16777209 := by decide
/-- V18. -/
theorem test_bon_width : got status (exec (.bonNorm 3 5) State.reset) = some (true, 2) := by decide

/-! ### TA (V20 to V29) -/

/-- V28. -/
theorem test_taNew : got (·.ta) (exec .taNew (loaded 3 0x4D616E)) = some ⟨0, 0⟩ := by decide
/-- V21, V22. -/
theorem test_taLoad :
    got (·.ta) (exec (.taLoad 2 0x4D61FF) State.reset) = some ⟨0x4D6100, 2⟩ ∧
      got (·.ta) (exec (.taLoad 1 0x4DFFFF) State.reset) = some ⟨0x4D0000, 1⟩ := by decide
/-- V23, V27. -/
theorem test_taLoad_ends :
    got (·.ta) (exec (.taLoad 0 0xFFFFFF) (loaded 3 0x4D616E)) = some ⟨0, 0⟩ ∧
      got (·.ta) (exec (.taLoad 3 0xAB4D616E) State.reset) = some ⟨0x4D616E, 3⟩ := by decide
/-- V21: VALID 0..3 gives 1, 1, 0, 0. -/
theorem test_taValid : [0, 1, 2, 3].map (fun i =>
    got (·.rsp.val) (exec (.taValid i) (loaded 2 0x4D6100))) = [some 1, some 1, some 0, some 0] := by
  decide
/-- V20: X6 0..3 gives 19, 22, 5, 46. -/
theorem test_taX6 : [0, 1, 2, 3].map (fun g =>
    got (·.rsp.val) (exec (.taX6 g) (loaded 3 0x4D616E))) = [some 19, some 22, some 5, some 46] := by
  decide
/-- V21: ENC4 gives T W E A. -/
theorem test_taEnc : [0, 1, 2, 3].map (fun g =>
    got (·.rsp.val) (exec (.taEnc g) (loaded 2 0x4D6100))) =
      [some 0x54, some 0x57, some 0x45, some 0x41] := by decide
/-- V21: ENCP4 gives T W E =. -/
theorem test_taEncp : [0, 1, 2, 3].map (fun g =>
    got (·.rsp.val) (exec (.taEncp g) (loaded 2 0x4D6100))) =
      [some 0x54, some 0x57, some 0x45, some 0x3D] := by decide
/-- V22: ENCP4 gives T Q = =. -/
theorem test_taEncp_one : [0, 1, 2, 3].map (fun g =>
    got (·.rsp.val) (exec (.taEncp g) (loaded 1 0x4D0000))) =
      [some 0x54, some 0x51, some 0x3D, some 0x3D] := by decide

/-! ### WCA (V30 to V36) -/

/-- V36, V35. -/
theorem test_wcaNew :
    got (fun t => (t.wca.wsel, t.wca.rem, t.wca.rb.toList)) (exec (.wcaNew 8) (carrying 4 2 7 8)) =
        some (8, 0, [0, 0]) ∧
      got status (exec (.wcaNew 1) State.reset) = some (true, 2) := by decide
/-- V30 step 3: carry 04, element 05060708. -/
theorem test_wcaLoad :
    got (fun t => (t.rsp.windows, t.rsp.consumed, t.wca))
        (exec (.wcaLoad 0x05060708) (carrying 4 1 4 0)) =
      some ([⟨0x040506, 3⟩], 1, ⟨4, #v[4, 5, 6, 7, 0, 0, 0, 0], #v[7, 8], 2, 4⟩) := by decide
/-- V31 step 3: three windows. -/
theorem test_wcaLoad_three :
    got (fun t => (t.rsp.windows, t.wca.rb.toList, t.wca.rem))
        (exec (.wcaLoad 0x090A0B0C0D0E0F10) (carrying 8 2 7 8)) =
      some ([⟨0x070809, 3⟩, ⟨0x0A0B0C, 3⟩, ⟨0x0D0E0F, 3⟩], [0x10, 0], 1) := by decide
/-- V33: the flush of one carried byte. -/
theorem test_wcaFlush :
    got (fun t => (t.rsp.windows, t.rsp.consumed, t.wca)) (exec .wcaFlush (carrying 4 1 4 0)) =
      some ([⟨0x040000, 1⟩], 0, ⟨4, #v[4, 0, 0, 0, 0, 0, 0, 0], #v[0, 0], 0, 1⟩) := by decide
/-- V35. -/
theorem test_wca_noinst : got status (exec .wcaFlush State.reset) = some (true, 4) := by decide

/-! ### W2 (V41, V42) -/

theorem test_w2New : got (·.w2) (exec .w2New heldW2) = some ⟨0, 0, false⟩ := by decide
/-- Case C, then case A. -/
theorem test_w2Load_data :
    got (fun t => (t.rsp.windows, t.rsp.consumed, t.w2)) (exec (.w2Load 2 0x6E204D61) State.reset) =
        some ([⟨0x4D616E, 3⟩], 2, ⟨0x4D61, 0x6E20, true⟩) ∧
      got (fun t => (t.rsp.windows, t.rsp.consumed, t.w2)) (exec (.w2Load 2 0x20616973) heldW2) =
        some ([⟨0x206973, 3⟩], 1, ⟨0x6973, 0x6E20, false⟩) := by decide
/-- Cases B, D and E, and V42. -/
theorem test_w2Load_end :
    got (fun t => (t.rsp.windows, t.rsp.consumed, t.w2)) (exec (.w2Load 0 0) heldW2) =
        some ([⟨0x200000, 1⟩], 0, ⟨0x4D61, 0x6E20, false⟩) ∧
      got (fun t => (t.rsp.windows, t.rsp.consumed, t.w2)) (exec (.w2Load 1 0x2061) State.reset) =
        some ([⟨0x206100, 2⟩], 1, ⟨0x2061, 0, false⟩) ∧
      got (fun t => (t.rsp.windows, t.rsp.consumed, t.w2)) (exec (.w2Load 0 0) State.reset) =
        some ([], 0, ⟨0, 0, false⟩) ∧
      got status (exec (.w2Load 3 0) heldW2) = some (true, 3) := by decide

/-! ### B64.RUN (V1, V5, P3, V55 to V58) -/

/-- P3: width 8 over a little-endian image; P5: width 1, five bytes. -/
theorem test_b64Run :
    got (fun t => (t.sd.ob, t.rsp.val, t.wca.sv.toList, t.ta))
        (exec (.b64Run 8 0x2000 1)
          (host .little 0x2000 [0xF9, 0xFF, 0xFF, 0xFF, 0xFF, 0, 0, 0])) =
      some ([0x41, 0x41, 0x41, 0x41, 0x2F, 0x2F, 0x2F, 0x2F, 0x2F, 0x2F, 0x6B, 0x3D], 12,
        [0xFF, 0xF9, 0, 0, 0, 0, 0, 0], ⟨0xFFF900, 2⟩) ∧
      got (fun t => (t.sd.ob, t.sd.cur, t.ta))
        (exec (.b64Run 1 0x100 5) (host .big 0x100 [2, 3, 3, 2, 3])) =
      some ([0x41, 0x67, 0x4D, 0x44, 0x41, 0x67, 0x4D, 0x3D], 5, ⟨0x020300, 2⟩) := by decide

/-! ### Witnesses: for every statement with hypotheses, a concrete case that meets them together -/

theorem witness_ResetClearsEveryRegister :
    (dirty.setPending [.reset]).pending = .reset :: [] ∧ dirty.ta.data ≠ 0 ∧ dirty.fault = true := by
  decide

theorem witness_ResetMeetsInvariant : Params.standard.wf := by decide

/-- V50: an empty run on a reset block; the memory is empty. -/
theorem fits_empty : RunFits { State.resetOf Params.standard with mem := [] } 4 0 0 :=
  (runChecks_ok_iff _ _ _ _).1 (by decide)

theorem witness_AfterReset :
    2#4 ∈ [2#4, 4#4, 8#4] ∧ 8#4 ∈ [2#4, 4#4, 8#4] ∧
      RunFits { State.resetOf Params.standard with mem := cells 0x100 [1, 2] } 2 0x100 1 :=
  ⟨by decide, by decide, (runChecks_ok_iff _ _ _ _).1 (by decide)⟩

/-- A block in the middle of a hand-driven stream meets the invariant. -/
theorem inv_midstream : (offer ⟨0x3100, 5, 0, 0⟩ (carrying 4 1 4 0)).Inv :=
  { params_wf := by decide, ta := by decide
    wca := ⟨by decide, by decide, by decide, by decide, by decide⟩
    sd := ⟨by decide, by decide, by decide, by decide, by decide, by decide, rfl, rfl, rfl, rfl,
      by decide⟩
    cause_zero := by decide, mem_wf := by decide, mem_within := by decide }

theorem witness_StepKeepsInvariant :
    ∃ t, (offer ⟨0x3100, 5, 0, 0⟩ (carrying 4 1 4 0)).Inv ∧
      step (offer ⟨0x3100, 5, 0, 0⟩ (carrying 4 1 4 0)) = .next t := ⟨_, inv_midstream, rfl⟩

theorem witness_StepRunsDecodedCommand :
    (offer ⟨0x5010, 0, 0x100, 5⟩ State.reset).pending = .command ⟨0x5010, 0, 0x100, 5⟩ :: [] ∧
      decode Params.standard ⟨0x5010, 0, 0x100, 5⟩ = .ok (.b64Run 1 0x100 5) := by decide

theorem witness_EveryCommandAnswers :
    (offer ⟨0xFFFF, 0, 0, 0⟩ State.reset).pending = .command ⟨0xFFFF, 0, 0, 0⟩ :: [] := by decide

/-- The last address and the first that does not exist. -/
theorem witness_HostWriteSetsOneByte :
    Memory.wf (cells 0x100 [1, 2]) ∧
      2 ^ 64 - 1 < 2 ^ State.reset.params.addrBits ∧ 2 ^ State.reset.params.addrBits ≤ 2 ^ 64 ∧
      (State.reset.setPending [.write (2 ^ 64) (some 7)]).pending = .write (2 ^ 64) (some 7) :: [] := by
  decide

theorem witness_DecodeEncodeRoundTrip :
    (Instr.b64Run 15 (2 ^ 64 - 1) (2 ^ 64 - 1)).wellFormed Params.standard = true := by decide

theorem witness_DecodeAcceptsExactlyTheRows :
    (0x1000#16, 0xFF0F#16) ∈ Claims.rows ∧ Claims.Selects 0x10F0 (0x1000, 0xFF0F) := by decide

theorem witness_DecodedWordReencodes :
    decode ⟨.big, 16, 8⟩ ⟨0x5010, 9, 0x12345, 0x1FF⟩ = .ok (.b64Run 1 0x2345 0xFF) := by decide

theorem witness_IllegalWordFaults :
    State.reset.Running ∧
      (offer ⟨0x2004, 0, 0, 0⟩ State.reset).pending = .command ⟨0x2004, 0, 0, 0⟩ :: [] ∧
      ∀ row ∈ Claims.rows, ¬ Claims.Selects 0x2004 row := by
  refine ⟨rfl, rfl, ?_⟩
  simp only [Claims.rows, List.forall_mem_cons, List.not_mem_nil, false_imp_iff, implies_true]
  decide

/-- A word that raises a fault (V60), and a faulted block that is presented a command, no reset. -/
theorem witness_FaultedBlockOnlyAnswers :
    (∃ t, State.reset.Running ∧ step (offer ⟨0x0F00, 0, 0, 0⟩ State.reset) = .next t ∧ t.fault = true) ∧
      dirty.fault = true ∧
      (offer ⟨0xFFFF, 0, 0, 0⟩ dirty).pending = .command ⟨0xFFFF, 0, 0, 0⟩ :: [] ∧
      (∀ rest, (offer ⟨0xFFFF, 0, 0, 0⟩ dirty).pending ≠ .reset :: rest) :=
  ⟨⟨_, rfl, rfl, rfl⟩, rfl, rfl, fun _ h => by cases h⟩

theorem witness_FaultsArePrecise :
    ∃ t, State.reset.Running ∧ exec (.wcaLoad 5) State.reset = .next t ∧ t.fault = true :=
  ⟨_, rfl, rfl, rfl⟩

/-- Widths 0 and 15, and width 1 of WCA.NEW. -/
theorem witness_IllegalWidthFaults :
    State.reset.Running ∧ 0#4 ∉ [1#4, 2#4, 4#4, 8#4] ∧ 15#4 ∉ [1#4, 2#4, 4#4, 8#4] ∧
      1#4 ∉ [2#4, 4#4, 8#4] := by decide

theorem witness_CountThreeFaults : heldW2.Running := by decide

theorem witness_NoInstanceFaults : State.reset.Running ∧ State.reset.wca.wsel = 0 := by decide

/-- The end of the address space: eight readable bytes below 2^64. -/
def topHost : State := host .big (2 ^ 64 - 8) [1, 2, 3, 4, 5, 6, 7, 8]

/-- V57 (d): a run that ends exactly at the end of the address space passes its checks. -/
theorem fits_top : RunFits topHost 4 (2 ^ 64 - 8) 2 := (runChecks_ok_iff _ _ _ _).1 (by decide)

/-- V56; V57 (a), (b), (c); V58; V57 (d). -/
theorem witness_RunFaultsInOrder :
    topHost.Running ∧ 4#4 ∈ [1#4, 2#4, 4#4, 8#4] ∧ ((0 : Nat) = 0 ∧ (1 : Nat) ≠ 0) ∧
      ¬ ((0x1000 : Nat) = 0 ∧ (0x2000000000000000 : Nat) ≠ 0) ∧
      2 ^ topHost.params.cntBits ≤ 0x2000000000000000 * (8#4).toNat ∧
      (0xFFFFFFFFFFFFFFFF * (1#4).toNat < 2 ^ topHost.params.cntBits ∧
        2 ^ topHost.params.cntBits ≤ (0xFFFFFFFFFFFFFFFF * (1#4).toNat + 2) / 3 * 4) ∧
      2 ^ topHost.params.addrBits < 0xFFFFFFFFFFFFFFFC + 2 * (4#4).toNat ∧
      (0x1004 + 2 * (4#4).toNat ≤ 2 ^ topHost.params.addrBits ∧
        readByte (cells 0x1000 [1, 2, 3, 4, 5, 6, 7, 8]) 0x1008 = none) ∧
      RunFits topHost 4 (2 ^ 64 - 8) 2 :=
  ⟨by decide, by decide, by decide, by decide, by decide, by decide, by decide, by decide, fits_top⟩

/-- V58: the fault comes at the first byte that is not readable, and not one element earlier; V55, V56,
V57 (a), (b), (c). -/
theorem test_b64Run_faults :
    got status (exec (.b64Run 4 0x1004 2) (host .big 0x1000 [1, 2, 3, 4, 5, 6, 7, 8])) =
        some (true, 7) ∧
      got status (exec (.b64Run 4 0x1000 2) (host .big 0x1000 [1, 2, 3, 4, 5, 6, 7, 8])) =
        some (false, 0) ∧
      got status (exec (.b64Run 3 0 5) State.reset) = some (true, 2) ∧
      got status (exec (.b64Run 4 0 1) State.reset) = some (true, 5) ∧
      got status (exec (.b64Run 8 0x1000 0x2000000000000000) State.reset) = some (true, 6) ∧
      got status (exec (.b64Run 1 0x1000 0xFFFFFFFFFFFFFFFF) State.reset) = some (true, 6) ∧
      got status (exec (.b64Run 4 0xFFFFFFFFFFFFFFFC 2) State.reset) = some (true, 6) := by decide

theorem witness_BonIsBijective :
    2 ^ 64 - 1 < 2 ^ (8 * 8) ∧ 3 < (bon 0xFFFFF9 4).length ∧ 255 < 256 := by decide

/-- A word of the opcode with `bad` for each command that states its illegal words. -/
theorem witness_IllegalWhen :
    State.reset.Running ∧
      (offer ⟨0x1041, 0, 0, 0⟩ State.reset).pending = .command ⟨0x1041, 0, 0, 0⟩ :: [] ∧
      (cwOpcode 0x1041 = 0x10 ∧ cwSmall 0x1041 ≠ 0) ∧ (cwOpcode 0x1148 = 0x11 ∧ cwReserved 0x1148 ≠ 0) ∧
      (cwOpcode 0x2001 = 0x20 ∧ cwSmall 0x2001 ≠ 0) ∧ (cwOpcode 0x2110 = 0x21 ∧ cwWidth 0x2110 ≠ 0) ∧
      (cwOpcode 0x2210 = 0x22 ∧ cwWidth 0x2210 ≠ 0) ∧ (cwOpcode 0x2304 = 0x23 ∧ cwReserved 0x2304 ≠ 0) ∧
      (cwOpcode 0x24F0 = 0x24 ∧ cwWidth 0x24F0 ≠ 0) ∧ (cwOpcode 0x2508 = 0x25 ∧ cwReserved 0x2508 ≠ 0) ∧
      (cwOpcode 0x3043 = 0x30 ∧ cwSmall 0x3043 ≠ 0) ∧ (cwOpcode 0x3101 = 0x31 ∧ cwSmall 0x3101 ≠ 0) ∧
      (cwOpcode 0x3210 = 0x32 ∧ cwWidth 0x3210 ≠ 0) ∧ (cwOpcode 0x4001 = 0x40 ∧ cwSmall 0x4001 ≠ 0) ∧
      (cwOpcode 0x4110 = 0x41 ∧ cwWidth 0x4110 ≠ 0) := by decide

theorem witness_BonNormResult :
    State.reset.Running ∧ 1#4 ∈ [1#4, 2#4, 4#4, 8#4] ∧ 8#4 ∈ [1#4, 2#4, 4#4, 8#4] ∧
      9#4 ∉ [1#4, 2#4, 4#4, 8#4] := by decide
theorem witness_BonDenormResult : carrying 4 1 4 0 |>.Running := by decide
theorem witness_BonMovesNoBit : State.reset.Running ∧ 8#4 ∈ [1#4, 2#4, 4#4, 8#4] := by decide

theorem witness_TaNewMakesFresh : (loaded 3 0x4D616E).Running := by decide
theorem witness_TaLoadStoresWindow : (loaded 3 0x4D616E).Running := by decide
theorem witness_TaValidTestsByte : (loaded 2 0x4D6100).Running := by decide
theorem witness_TaX6ExtractsField : (loaded 1 0x4D0000).Running := by decide
theorem witness_TaEncMapsField : (loaded 0 0).Running ∧ 63 < 64 := by decide
theorem witness_TaEncpPads : (loaded 1 0x4D0000).Running := by decide
/-- One state for each value of `TA.valid`, with a group for each clause. -/
theorem witness_PadsFollowValidCount :
    ((loaded 0 0).Running ∧ (loaded 0 0).ta.valid = 0) ∧
      ((loaded 1 0x4D0000).ta.valid = 1 ∧ 2#2 ∈ [2#2, 3#2] ∧ 1#2 ∈ [0#2, 1#2]) ∧
      ((loaded 2 0x4D6100).ta.valid = 2 ∧ (2#2 : BitVec 2) ≠ 3) ∧ (loaded 3 0x4D616E).ta.valid = 3 := by
  decide

theorem witness_WcaNewMakesInstance :
    (carrying 4 2 7 8).Running ∧ 2#4 ∈ [2#4, 4#4, 8#4] ∧ 1#4 ∉ [2#4, 4#4, 8#4] := by decide

theorem wca_inv_carrying : (carrying 8 2 7 8).wca.Inv :=
  ⟨by decide, by decide, by decide, by decide, by decide⟩

theorem witness_WcaLoadCarries :
    (carrying 8 2 7 8).Running ∧ (carrying 8 2 7 8).wca.Inv ∧ (carrying 8 2 7 8).wca.wsel ≠ 0 ∧
      State.reset.wca.wsel = 0 := ⟨by decide, wca_inv_carrying, by decide, by decide⟩

/-- The nine rows of R123, and a fresh accumulator of each width. -/
theorem witness_CarryStepByWidth :
    ([2#4, 4#4, 8#4].all fun w => [0#2, 1#2, 2#2].all fun r =>
      !(carrying w r 7 8).fault && (carrying w r 7 8).wca.wsel == w && (carrying w r 7 8).wca.rem == r) =
        true ∧
      (carrying 4 0 0 0).wca.rem = 0 ∧ (carrying 4 0 0 0).wca.wsel ∈ [2#4, 4#4, 8#4] := by decide

theorem witness_WcaFlushDrains :
    (carrying 4 2 7 8).Running ∧ (carrying 4 2 7 8).wca.wsel ≠ 0 ∧ State.reset.wca.wsel = 0 := by decide

theorem witness_ConsumptionSignal :
    ∃ t u v, (carrying 4 1 4 0).Running ∧ exec (.wcaLoad 5) (carrying 4 1 4 0) = .next t ∧
      exec .wcaFlush (carrying 4 1 4 0) = .next u ∧
      exec (.w2Load 3 0) (carrying 4 1 4 0) = .next v ∧ v.fault = true :=
  ⟨_, _, _, rfl, rfl, rfl, rfl, rfl⟩

theorem witness_WcaStreamHasNoGaps :
    (carrying 8 0 0 0).Running ∧ (carrying 8 0 0 0).wca.wsel ∈ [2#4, 4#4, 8#4] ∧
      (carrying 8 0 0 0).wca.rem = 0 ∧
      0 < (windowsOf (byteStream 8 ([0x0102030405060708].map fun v : DataWord => v.toNat % 2 ^ 64))).length := by
  decide

theorem witness_W2NewMakesFresh : heldW2.Running := by decide
/-- The five cases A to E and the fault. -/
theorem witness_W2LoadCases :
    heldW2.Running ∧ heldW2.w2.has = true ∧ State.reset.Running ∧ State.reset.w2.has = false ∧
      ((2#2 : BitVec 2) = 1 ∨ (2#2 : BitVec 2) = 2) := by decide

/-- V43, n = 5. -/
theorem witness_W2StreamHasNoGaps :
    State.reset.Running ∧ State.reset.w2.has = false ∧
      windowsOf (byteStream 2 ([0x4D61, 0x6E20, 0x6973, 0x2061, 0x2062].map
        fun e : BitVec 16 => e.toNat)) =
        [⟨0x4D616E, 3⟩, ⟨0x206973, 3⟩, ⟨0x206120, 3⟩, ⟨0x620000, 1⟩] := by decide

theorem witness_W2AgreesWithWca :
    State.reset.Running ∧ (carrying 2 0 0 0).Running ∧ State.reset.w2.has = false ∧
      (carrying 2 0 0 0).wca.wsel = 2 ∧ (carrying 2 0 0 0).wca.rem = 0 := by decide

/-- V40: the bytes of "Man is a" at 0x1000. -/
def manHost (e : Endian) : State :=
  host e 0x1000 [0x4D, 0x61, 0x6E, 0x20, 0x69, 0x73, 0x20, 0x61]

theorem fits_man (e : Endian) : RunFits (manHost e) 4 0x1000 2 :=
  (runChecks_ok_iff _ _ _ _).1 (by cases e <;> decide)
theorem fits_man_bytes : RunFits (manHost .big) 1 0x1000 8 := (runChecks_ok_iff _ _ _ _).1 (by decide)
theorem holds_man : HoldsElements (manHost .big) 4 0x1000 2 [0x4D616E20, 0x69732061] :=
  ⟨rfl, by decide⟩
theorem holds_man_little : HoldsElements (manHost .little) 4 0x1000 2 [0x206E614D, 0x61207369] :=
  ⟨rfl, by decide⟩
theorem holds_man_bytes :
    HoldsElements (manHost .big) 1 0x1000 8 [0x4D, 0x61, 0x6E, 0x20, 0x69, 0x73, 0x20, 0x61] :=
  ⟨rfl, by decide⟩
theorem fits_man_two : RunFits (manHost .little) 2 0x1000 4 :=
  (runChecks_ok_iff _ _ _ _).1 (by decide)

theorem witness_RunEncodesElements :
    (manHost .little).Running ∧ RunFits (manHost .little) 4 0x1000 2 := ⟨rfl, fits_man _⟩

theorem witness_RunIsItsCommandSequence :
    (manHost .little).Running ∧ RunFits (manHost .little) 4 0x1000 2 ∧
      HoldsElements (manHost .little) 4 0x1000 2 [0x206E614D, 0x61207369] :=
  ⟨rfl, fits_man _, holds_man_little⟩

/-- A run with a last window, and an empty one. -/
theorem witness_RunLeavesUnitsDrained :
    (RunFits (manHost .big) 4 0x1000 2 ∧
      HoldsElements (manHost .big) 4 0x1000 2 [0x4D616E20, 0x69732061] ∧
      (windowsOf (byteStream 4 [0x4D616E20, 0x69732061])).getLast? = some ⟨0x206100, 2⟩) ∧
      RunFits { State.resetOf Params.standard with mem := [] } 4 0 0 ∧
      HoldsElements { State.resetOf Params.standard with mem := [] } 4 0 0 [] :=
  ⟨⟨fits_man _, holds_man, by decide⟩, fits_empty, rfl, by decide⟩

/-- V40: 8 bytes, remainder 2. -/
theorem witness_PaddingLaw :
    (manHost .big).Running ∧ RunFits (manHost .big) 4 0x1000 2 ∧ 2 * (4#4).toNat % 3 = 2 :=
  ⟨rfl, fits_man _, by decide⟩

theorem witness_EmptyRun :
    State.reset.Running ∧ 8#4 ∈ [1#4, 2#4, 4#4, 8#4] ∧ 2 ^ 64 - 1 < 2 ^ State.reset.params.addrBits := by
  decide

/-- V40, big: the width-4 and the width-1 view of the same bytes. -/
theorem witness_WidthInvariance :
    (manHost .big).Running ∧ RunFits (manHost .big) 4 0x1000 2 ∧ RunFits (manHost .big) 1 0x1000 8 ∧
      HoldsElements (manHost .big) 4 0x1000 2 [0x4D616E20, 0x69732061] ∧
      HoldsElements (manHost .big) 1 0x1000 8 [0x4D, 0x61, 0x6E, 0x20, 0x69, 0x73, 0x20, 0x61] :=
  ⟨rfl, fits_man _, fits_man_bytes, holds_man, holds_man_bytes⟩

theorem witness_BigEndianViewsAgree :
    (manHost .big).Running ∧ (manHost .big).params.hostEndian = .big ∧
      RunFits (manHost .big) 4 0x1000 2 := ⟨rfl, rfl, fits_man _⟩

/-- Three elements and one of a width-2 run: 6 bytes, then 2. -/
theorem witness_SplitOnlyAtTriplets :
    (manHost .little).Running ∧ RunFits (manHost .little) 2 0x1000 (3 + 1) := ⟨rfl, fits_man_two⟩

/-- V51, both straps, and the byte after the image. -/
theorem witness_MemReadValue :
    (∀ k, k < 4 → readByte (host .little 0x2000 [0xF9, 0xFF, 0xFF, 0x00]).mem (0x2000 + k) =
        some ([0xF9, 0xFF, 0xFF, 0x00].getD k 0)) ∧
      (host .little 0x2000 []).params.hostEndian = .little ∧
      (host .big 0x2000 []).params.hostEndian = .big ∧
      (∃ k, k < 8 ∧ readByte (host .little 0x2000 [0xF9, 0xFF, 0xFF, 0x00]).mem (0x2000 + k) = none) := by
  decide

/-- V51, both straps. -/
theorem witness_CanonicalBytesOfImage :
    readBytes (cells 0x2000 [0xF9, 0xFF, 0xFF, 0x00]) 0x2000 4 = some [0xF9, 0xFF, 0xFF, 0x00] ∧
      memRead (host .little 0x2000 [0xF9, 0xFF, 0xFF, 0x00]) 0x2000 4 = .ok 0x00FFFFF9 ∧
      memRead (host .big 0x2000 [0xF9, 0xFF, 0xFF, 0x00]) 0x2000 4 = .ok 0xF9FFFF00 := by decide

/-- BON.NORM writes no unit's register; a width-1 run writes no carry unit. -/
theorem witness_CommandsWriteOnlyTheirRow :
    ∃ t, exec (.bonNorm 2 7) (carrying 4 1 4 0) = .next t ∧ t.fault = false ∧
      Claims.writesTa (.bonNorm 2 7) = false ∧ Claims.writesWca (.b64Run 1 0x100 1) = false ∧
      Claims.writesW2 (.b64Run 4 0x100 1) = false ∧ Claims.writesSd (.bonNorm 2 7) = false ∧
      Claims.writesWsel (.wcaLoad 7) = false :=
  ⟨_, rfl, rfl, rfl, rfl, rfl, rfl, rfl⟩

/-- WCA.LOAD on two states that differ in every register its row does not mark `r`. -/
theorem witness_CommandsReadOnlyTheirRow :
    ∃ t t', exec (.wcaLoad 7) (carrying 4 1 4 0) = .next t ∧
      exec (.wcaLoad 7) ((carrying 4 1 4 0).setTa ⟨0x4D616E, 3⟩ |>.setW2 ⟨1, 2, true⟩) = .next t' :=
  ⟨_, _, rfl, rfl⟩

/-- Operands that differ only in bits their layouts do not list. -/
theorem witness_UnlistedOperandBitsIgnored :
    (0xDEADBEEF#64).toNat % 2 ^ (8 * (2#4).toNat) = (0xBEEF#64).toNat % 2 ^ (8 * (2#4).toNat) ∧
      (∀ k, k < (1#2).toNat → (0x4DFFFF#64).extractLsb' (16 - 8 * k) 8 =
        (0x4D0000#64).extractLsb' (16 - 8 * k) 8) ∧
      (0xDEADBEEF01020304#64).toNat % 2 ^ (8 * (carrying 4 0 0 0).wca.wsel.toNat) =
        (0x01020304#64).toNat % 2 ^ (8 * (carrying 4 0 0 0).wca.wsel.toNat) ∧
      ((0x20616973#64).extractLsb' 0 16 = (0x6973#64).extractLsb' 0 16 ∧ heldW2.w2.has = true) ∧
      decode Params.standard ⟨0x2000, 7, 0, 0⟩ = .ok .taNew := by decide

/-- V30 step 2 and a block that carries the same byte with other scratch registers. -/
theorem witness_UnreadRegistersDoNotMatter :
    Claims.forgetUnread (carrying 4 1 4 0) =
        Claims.forgetUnread ((carrying 4 1 4 0).setWca ⟨4, #v[1, 2, 3, 4, 0, 0, 0, 0], #v[4, 0], 1, 4⟩) ∧
      Claims.forgetUnread heldW2 = Claims.forgetUnread (State.reset.setW2 ⟨7, 0xFF20, true⟩) := by decide

theorem witness_StrapReadByWideRunsOnly :
    ∀ w data count, Instr.b64Run 1 0x100 5 = .b64Run w data count → w ∉ [2#4, 4#4, 8#4] := by
  intro w data count h
  cases h
  decide

/-- Memories that agree on 0x100, 0x101 and nowhere else. -/
theorem witness_RunReadsOnlyItsRange :
    (∀ a, 0x100 ≤ a → a < 0x100 + 2 * (1#4).toNat →
      readByte (cells 0x100 [1, 2, 3]) a = readByte (cells 0x100 [1, 2]) a) ∧
      readByte (cells 0x100 [1, 2, 3]) 0x102 ≠ readByte (cells 0x100 [1, 2]) 0x102 := by
  refine ⟨fun a h₁ h₂ => ?_, by decide⟩
  have h₃ : a = 0x100 ∨ a = 0x101 := by simp at h₂; omega
  rcases h₃ with rfl | rfl <;> rfl

theorem witness_CharactersAreOutputCodes :
    ∃ t, (host .little 0x100 [3]).Running ∧ exec (.b64Run 1 0x100 1) (host .little 0x100 [3]) = .next t ∧
      t.fault = false ∧ t.sd.ob = [0x41, 0x77, 0x3D, 0x3D] := ⟨_, rfl, rfl, rfl, rfl⟩

end Sys2Proof.Tests
end

section
/-! PROOFS. The port: what a step does with the next thing the host presents, and that every command is
answered (00_scope.md R8, R9, R10). -/

namespace Sys2Proof.Machine

/-! ### One step takes the first event -/

theorem step_of_pending {s : State} {e : HostEvent} {rest : List HostEvent}
    (h : s.pending = e :: rest) : step s = runEvent e (s.setPending rest) := by
  rw [step, h]

theorem step_command {s : State} {c : Command} {rest : List HostEvent}
    (h : s.pending = .command c :: rest) : step s = runCommand c (s.setPending rest) :=
  step_of_pending h

theorem step_write {s : State} {a : Nat} {v : Option Byte} {rest : List HostEvent}
    (h : s.pending = .write a v :: rest) : step s = hostWrite (s.setPending rest) a v :=
  step_of_pending h

/-! ### A presented word is its instruction, or `ILLEGAL` (30_encoding.md R77, R78) -/

/-- A faulted block decodes nothing, but every instruction answers the same there, so this needs no
premise on `FAULT` (R172). -/
theorem runCommand_of_decode {s : State} {c : Command} {i : Instr}
    (h : decode s.params c = .ok i) : runCommand c s = exec i s := by
  cases hf : s.fault
  · simp [runCommand, hf, h]
  · simp [runCommand, hf, exec_faulted]

theorem runCommand_of_decode_error {s : State} {c : Command} {e : DecodeError}
    (h : decode s.params c = .error e) : runCommand c s = perform s (.error .illegal) := by
  rw [runCommand, h, perform]

/-! ### Every command is answered, and takes no further event of the host (R9) -/

theorem perform_answers (s : State) (e : Effect)
    (he : ∀ t r, e = .ok (t, r) → t.pending = s.pending) :
    ∃ t, perform s e = .next t ∧ t.pending = s.pending := by
  rcases perform_cases s e with ⟨-, hp⟩ | ⟨-, c, -, hp⟩ | ⟨-, t, r, hr, hp⟩
  · exact ⟨_, hp, rfl⟩
  · exact ⟨_, hp, rfl⟩
  · exact ⟨_, hp, he t r hr⟩

theorem exec_answers (i : Instr) (s : State) : ∃ t, exec i s = .next t ∧ t.pending = s.pending := by
  rw [exec_eq_perform]
  refine perform_answers s _ fun t r h => ?_
  obtain ⟨-, -, hpending, -, -⟩ := effectOf_frame i s t r h
  exact hpending

theorem runCommand_answers (c : Command) (s : State) :
    ∃ t, runCommand c s = .next t ∧ t.pending = s.pending := by
  cases h : decode s.params c with
  | ok i => rw [runCommand_of_decode h]; exact exec_answers i s
  | error e => rw [runCommand_of_decode_error h]; exact perform_answers s _ nofun

/-- Settles O6: every command runs in the frame `perform`, which always answers, and no effect touches
what the host presents next. -/
theorem everyCommandAnswers : Obligations.EveryCommandAnswers := by
  refine ⟨fun i s => ?_, fun s c rest hs => ?_⟩
  · obtain ⟨t, ht, -⟩ := exec_answers i s
    exact ⟨t, ht⟩
  · rw [step_command hs]
    exact runCommand_answers c (s.setPending rest)

/-- Settles O5: a step takes the command and runs it, on a faulted block too. -/
theorem stepRunsDecodedCommand : Obligations.StepRunsDecodedCommand := by
  intro s c rest i hs hi
  rw [step_command hs]
  exact runCommand_of_decode hi

end Sys2Proof.Machine
end

section
/-! PROOFS. The host's accesses to its input memory (00_scope.md R10, 20_memory.md R50, R51). -/

namespace Sys2Proof.Machine

/-- The input memory after the host has made the byte at `a` readable with a value, or unreadable. -/
def memAfterWrite (m : Memory) (a : Nat) : Option Byte → Memory
  | some b => memInsert m a b
  | none => memErase m a

theorem hostWrite_of_lt (s : State) {a : Nat} (h : a < 2 ^ s.params.addrBits) (v : Option Byte) :
    hostWrite s a v = .next (s.setMem (memAfterWrite s.mem a v)) := by
  cases v with
  | some b => simp [hostWrite, h, memAfterWrite]
  | none => simp [hostWrite, h, memAfterWrite]

theorem hostWrite_of_le (s : State) {a : Nat} (h : 2 ^ s.params.addrBits ≤ a) (v : Option Byte) :
    hostWrite s a v = .fault .noSuchAddress := by
  unfold hostWrite
  exact if_neg (Nat.not_lt.2 h)

theorem memAfterWrite_wf {m : Memory} (h : Memory.wf m) (a : Nat) (v : Option Byte) :
    Memory.wf (memAfterWrite m a v) := by
  cases v with
  | some b => exact memInsert_wf m a b h
  | none => exact memErase_wf m a h

theorem readByte_memAfterWrite (m : Memory) (a x : Nat) (v : Option Byte) :
    readByte (memAfterWrite m a v) x = if x = a then v else readByte m x := by
  cases v with
  | some b => exact readByte_memInsert m a x b
  | none => exact readByte_memErase m a x

/-- Settles O7: below `2^ADDR_BITS` the step leaves `memAfterWrite`, which is canonical and reads `v` at
`a` alone; from there on it stops. -/
theorem hostWriteSetsOneByte : Obligations.HostWriteSetsOneByte := by
  intro s a v rest hwf hs
  rw [step_write hs]
  refine ⟨fun ha => ⟨memAfterWrite s.mem a v, hostWrite_of_lt (s.setPending rest) ha v,
    memAfterWrite_wf hwf a v, ?_, ?_⟩, fun ha => hostWrite_of_le (s.setPending rest) ha v⟩
  · rw [readByte_memAfterWrite, if_pos rfl]
  · intro b hb
    rw [readByte_memAfterWrite, if_neg hb]

end Sys2Proof.Machine
end

section
/-! PROOFS. The invariant of the block (10_state.md): it holds after reset and every step keeps it. -/

namespace Sys2Proof.Machine

/-! ### The units after reset (R46) -/

theorem TA.fresh_inv : TA.fresh.Inv := by decide

theorem WCA.absent_inv : WCA.absent.Inv :=
  ⟨by decide, by decide, by decide, by decide, by decide⟩

theorem SD.idle_inv (p : Params) : SD.idle.Inv p where
  w_legal := by decide
  data_fits := Nat.two_pow_pos _
  count_fits := Nat.two_pow_pos _
  oblen_fits := Nat.two_pow_pos _
  end_fits := Nat.zero_le _
  null_empty := fun _ => rfl
  cur_end := rfl
  opos_end := rfl
  ob_length := rfl
  oblen_eq := rfl
  ob_codes := nofun

/-! ### The invariant under the updates of the state -/

theorem State.Inv.setTa {s : State} (h : s.Inv) {x : TA} (hx : x.Inv) : (s.setTa x).Inv :=
  { h with ta := hx }

theorem State.Inv.setWca {s : State} (h : s.Inv) {x : WCA} (hx : x.Inv) : (s.setWca x).Inv :=
  { h with wca := hx }

theorem State.Inv.setW2 {s : State} (h : s.Inv) (x : W2) : (s.setW2 x).Inv :=
  { h with }

theorem State.Inv.setSd {s : State} (h : s.Inv) {x : SD} (hx : x.Inv s.params) : (s.setSd x).Inv :=
  { h with sd := hx }

theorem State.Inv.setMem {s : State} (h : s.Inv) {m : Memory} (hwf : Memory.wf m)
    (hin : Memory.within s.params m) : (s.setMem m).Inv :=
  { h with mem_wf := hwf, mem_within := hin }

theorem State.Inv.applyReset {s : State} (h : s.Inv) : (applyReset s).Inv where
  params_wf := h.params_wf
  ta := TA.fresh_inv
  wca := WCA.absent_inv
  sd := SD.idle_inv _
  cause_zero := by simp
  mem_wf := h.mem_wf
  mem_within := h.mem_within

/-! ### The host's writes to its memory (R50, R51) -/

theorem memAfterWrite_within {p : Params} {m : Memory} (h : Memory.within p m) {a : Nat}
    (ha : a < 2 ^ p.addrBits) (v : Option Byte) : Memory.within p (memAfterWrite m a v) := by
  cases v with
  | some b => exact memInsert_within p m a b ha h
  | none => exact memErase_within p m a h

theorem hostWrite_keeps_inv {s t : State} (h : s.Inv) {a : Nat} {v : Option Byte}
    (ht : hostWrite s a v = .next t) : t.Inv := by
  rcases Nat.lt_or_ge a (2 ^ s.params.addrBits) with ha | ha
  · rw [hostWrite_of_lt s ha] at ht
    cases ht
    exact h.setMem (memAfterWrite_wf h.mem_wf a v) (memAfterWrite_within h.mem_within ha v)
  · rw [hostWrite_of_le s ha] at ht
    cases ht

/-! ### TA (R22) -/

theorem lastTa_inv {t : TA} (h : t.Inv) (ws : List Window) : (lastTa t ws).Inv := by
  induction ws generalizing t with
  | nil => exact h
  | cons win ws ih => exact ih (taLoad_inv win.count (tripletBytes win.data))

/-! ### WCA (R24, R25, R28, R29) -/

theorem padTo2_zero (l : List Byte) (k : Fin 2) (h : l.length ≤ k.val) : (padTo2 l)[k] = 0 := by
  have hk : (padTo2 l)[k] = l.getD k.val 0 := by
    match k with
    | 0 | 1 => rfl
  rw [hk, List.getD_eq_default _ _ h]

theorem padTo8_zero (l : List Byte) (k : Fin 8) (h : l.length ≤ k.val) : (padTo8 l)[k] = 0 := by
  have hk : (padTo8 l)[k] = l.getD k.val 0 := by
    match k with
    | 0 | 1 | 2 | 3 | 4 | 5 | 6 | 7 => rfl
  rw [hk, List.getD_eq_default _ _ h]

theorem wcaNew_inv {w : BitVec 4} (h : w ∈ [2#4, 4#4, 8#4]) : (wcaNew w).Inv where
  wsel_legal := List.mem_cons_of_mem _ h
  rem_lt := Nat.zero_lt_succ 2
  rb_zero := fun k _ => WCA.absent_inv.rb_zero k (Nat.zero_le _)
  sv_zero := fun k _ => WCA.absent_inv.sv_zero k (Nat.zero_le _)
  vbc_le := Nat.zero_le _

theorem WCA.Inv.wsel_le {u : WCA} (h : u.Inv) : u.wsel.toNat ≤ 8 := by
  have hw : ∀ w ∈ [0#4, 2#4, 4#4, 8#4], w.toNat ≤ 8 := by decide
  exact hw _ h.wsel_legal

theorem wcaNext_inv {u : WCA} (h : u.Inv) (v : Nat) : (wcaNext u v).Inv where
  wsel_legal := h.wsel_legal
  rem_lt := wcaNext_rem_lt u v
  rb_zero := fun k hk => padTo2_zero _ k (by
    rw [leftover_length, ← wcaNext_rem]; exact hk)
  sv_zero := fun k hk => padTo8_zero _ k ((List.length_take_le _ _).trans hk)
  vbc_le := h.wsel_le

/-- The carried bytes, at most two, must fit `sv[0 .. WSEL-1]`; they do where `WSEL` is a width, and
`rem < 3` alone would not do for a `WSEL` of 0 (R25). -/
theorem wcaDrained_inv {u : WCA} (h : u.Inv) (hw : u.wsel ≠ 0) : (wcaDrained u).Inv where
  wsel_legal := h.wsel_legal
  rem_lt := Nat.zero_lt_succ 2
  rb_zero := fun k _ => padTo2_zero _ k (Nat.zero_le _)
  sv_zero := fun k hk => padTo8_zero _ k (by
    have hsel : ∀ w ∈ [0#4, 2#4, 4#4, 8#4], w ≠ 0 → 2 ≤ w.toNat := by decide
    have := hsel _ h.wsel_legal hw
    have hrem := h.rem_lt
    have : u.wsel.toNat ≤ k.val := hk
    rw [wcaCarried_length u hrem]; omega)
  vbc_le := by
    have := u.rem.isLt
    show (u.rem.setWidth 4).toNat ≤ 8
    rw [BitVec.toNat_setWidth]; omega

theorem wcaFeed_inv {u : WCA} (h : u.Inv) (vs : List Nat) : (wcaFeed u vs).1.Inv := by
  induction vs generalizing u with
  | nil => exact h
  | cons v vs ih => exact ih (wcaNext_inv h v)

/-- What WCA.LOAD can do, said once: with `WSEL` set, the unit takes the element in. -/
theorem wcaLoad_ok {u u' : WCA} {v : Nat} {r : Response} (h : wcaLoad u v = .ok (u', r)) :
    u.wsel ≠ 0 ∧ u' = wcaNext u v ∧ r = Response.carry (fullWindows (wcaBytes u v)) 1 := by
  by_cases hw : u.wsel = 0
  · rw [wcaLoad, if_pos hw] at h; cases h
  · rw [wcaLoad_eq u v hw] at h
    cases h
    exact ⟨hw, rfl, rfl⟩

/-- What WCA.FLUSH can do, said once: with `WSEL` set, the unit hands out what it carries. -/
theorem wcaFlush_ok {u u' : WCA} {r : Response} (h : wcaFlush u = .ok (u', r)) :
    u.wsel ≠ 0 ∧ u' = wcaDrained u ∧ r = Response.carry (wcaFlushWindows u) 0 := by
  by_cases hw : u.wsel = 0
  · rw [wcaFlush, if_pos hw] at h; cases h
  · rw [wcaFlush_eq u hw] at h
    cases h
    exact ⟨hw, rfl, rfl⟩

/-! ### The state a run leaves (R151 to R157) -/

theorem wcaAfterRun_inv {w : BitVec 4} (hw : w ∈ [1#4, 2#4, 4#4, 8#4]) {u : WCA} (h : u.Inv)
    (vs : List Nat) : (wcaAfterRun w vs u).Inv := by
  rw [wcaAfterRun]
  split
  · exact h
  · rename_i hn
    have hsel : ∀ w ∈ [1#4, 2#4, 4#4, 8#4], ¬ (w = 1 ∨ w = 2) → w ∈ [2#4, 4#4, 8#4] ∧ w ≠ 0 := by
      decide
    obtain ⟨hcarry, hne⟩ := hsel w hw hn
    refine wcaDrained_inv (wcaFeed_inv (wcaNew_inv hcarry) vs) ?_
    rw [wcaFeed_wsel]
    exact hne

/-- Every character of a Base64 text is one of the 65 (R106). -/
theorem outputCode_of_mem_base64Text {S : List Byte} {ch : Byte} (h : ch ∈ base64Text S) :
    outputCode ch = true := by
  rw [base64Text_eq_windowText, List.mem_flatMap] at h
  obtain ⟨win, -, hch⟩ := h
  simp only [windowText, List.mem_cons, List.not_mem_nil, or_false] at hch
  rcases hch with rfl | rfl | rfl | rfl <;> exact outputCode_windowChar _ _

theorem sdAfterRun_inv {s : State} {w : BitVec 4} {data count : Nat} (hfit : RunFits s w data count)
    (hdata : data < 2 ^ s.params.addrBits) {S : List Byte} (hS : S.length = count * w.toNat) :
    (sdAfterRun w data count S).Inv s.params where
  w_legal := List.mem_cons_of_mem _ hfit.width
  data_fits := hdata
  count_fits := by
    have hw : ∀ w ∈ [1#4, 2#4, 4#4, 8#4], 0 < w.toNat := by decide
    exact (Nat.le_mul_of_pos_right count (hw w hfit.width)).trans_lt hfit.total
  oblen_fits := hfit.length
  end_fits := hfit.endAddr
  null_empty := hfit.null
  cur_end := rfl
  opos_end := rfl
  ob_length := by
    show (base64Text S).length = _
    rw [base64Text_length, hS]; rfl
  oblen_eq := rfl
  ob_codes := fun _ hch => outputCode_of_mem_base64Text hch

theorem stateAfterRun_eq_sets (w : BitVec 4) (data count : Nat) (vs : List Nat) (s : State) :
    stateAfterRun w data count vs s =
      (((s.setTa (lastTa TA.fresh (windowsOf (byteStream w.toNat vs)))).setWca
        (wcaAfterRun w vs s.wca)).setW2 (w2AfterRun w vs s.w2)).setSd
          (sdAfterRun w data count (byteStream w.toNat vs)) := rfl

theorem stateAfterRun_inv {s : State} (h : s.Inv) {w : BitVec 4} {data count : Nat} {vs : List Nat}
    (hfit : RunFits s w data count) (hvs : HoldsElements s w.toNat data count vs)
    (hdata : data < 2 ^ s.params.addrBits) : (stateAfterRun w data count vs s).Inv := by
  rw [stateAfterRun_eq_sets]
  refine (((h.setTa (lastTa_inv TA.fresh_inv _)).setWca
    (wcaAfterRun_inv hfit.width h.wca vs)).setW2 _).setSd (sdAfterRun_inv hfit hdata ?_)
  rw [byteStream_length, hvs.1]

/-! ### Every effect, every command, every step -/

/-- The premise is R43's: an address wider than `ADDR_BITS` cannot be presented, and a run over none of
its bytes would store it. -/
theorem effectOf_keeps_inv {i : Instr} {s t : State} {r : Response} (h : s.Inv)
    (hi : i.wellFormed s.params = true) (he : effectOf i s = .ok (t, r)) : t.Inv := by
  cases i with
  | taNew => cases he; exact h.setTa TA.fresh_inv
  | taLoad n opd => cases he; exact h.setTa (taLoad_inv _ _)
  | bonNorm w opd => rw [effectOf] at he; split at he <;> cases he; exact h
  | bonDenorm w opd => rw [effectOf] at he; split at he <;> cases he; exact h
  | wcaNew w =>
    rw [effectOf] at he
    split at he
    · rename_i hw
      cases he
      exact h.setWca (wcaNew_inv ((legalCarryWidth_iff w).1 hw))
    · cases he
  | wcaLoad opd =>
    obtain ⟨u, hu, rfl⟩ := map_setWca he
    obtain ⟨-, rfl, -⟩ := wcaLoad_ok hu
    exact h.setWca (wcaNext_inv h.wca _)
  | wcaFlush =>
    obtain ⟨u, hu, rfl⟩ := map_setWca he
    obtain ⟨hw, rfl, -⟩ := wcaFlush_ok hu
    exact h.setWca (wcaDrained_inv h.wca hw)
  | w2New => cases he; exact h.setW2 _
  | w2Load c opd => obtain ⟨u, -, rfl⟩ := map_setW2 he; exact h.setW2 u
  | b64Run w data count =>
    have hdata : data < 2 ^ s.params.addrBits := by
      simp only [Instr.wellFormed, Bool.and_eq_true, decide_eq_true_iff] at hi
      exact hi.1
    rcases runEffect_cases w data count s with ⟨-, c, -, hc⟩ | ⟨hfit, vs, hvs, hok⟩
    · rw [effectOf, hc] at he; cases he
    · rw [effectOf, hok] at he
      cases he
      exact stateAfterRun_inv h hfit hvs hdata
  | taValid _ | taX6 _ | taEnc _ | taEncp _ => cases he; exact h

/-- The decoder cuts the operands to their signals (R43). -/
theorem wellFormed_of_decode {p : Params} {c : Command} {i : Instr} (h : decode p c = .ok i) :
    i.wellFormed p = true := by
  obtain ⟨op, -, -, -, -, rfl⟩ := (decode_eq_ok_iff p c i).1 h
  cases op with
  | b64Run =>
    have ha : opaSignal p c < 2 ^ p.addrBits := Nat.mod_lt _ (Nat.two_pow_pos _)
    have hc : opcSignal p c < 2 ^ p.cntBits := Nat.mod_lt _ (Nat.two_pow_pos _)
    simp [instrOf, Instr.wellFormed, ha, hc]
  | _ => rfl

theorem runCommand_keeps_inv {s t : State} (h : s.Inv) {c : Command}
    (ht : runCommand c s = .next t) : t.Inv := by
  cases hd : decode s.params c with
  | error e =>
    rw [runCommand_of_decode_error hd] at ht
    exact perform_keeps_inv s _ h (fun _ _ he => by cases he) t ht
  | ok i =>
    rw [runCommand_of_decode hd, exec_eq_perform] at ht
    exact perform_keeps_inv s _ h
      (fun _ _ he => effectOf_keeps_inv h (wellFormed_of_decode hd) he) t ht

theorem runEvent_keeps_inv {s t : State} (h : s.Inv) {e : HostEvent}
    (ht : runEvent e s = .next t) : t.Inv := by
  cases e with
  | command c => exact runCommand_keeps_inv h ht
  | reset => cases ht; exact h.applyReset
  | write a v => exact hostWrite_keeps_inv h ht

/-- Settles O4, by cases on what the host presents: nothing, a command, a reset or a write to its
memory. A command keeps the invariant because each effect does; for B64.RUN that is read off the
closed form of the state it leaves. -/
theorem stepKeepsInvariant : Obligations.StepKeepsInvariant := by
  intro s t h ht
  cases hp : s.pending with
  | nil =>
    rw [step, hp] at ht
    cases ht
    exact h
  | cons e rest =>
    rw [step_of_pending hp] at ht
    exact runEvent_keeps_inv (h.setPending rest) ht

/-- Settles O3: every unit is fresh, no byte is readable and `CAUSE` is 0. -/
theorem resetMeetsInvariant : Obligations.ResetMeetsInvariant := by
  intro p hp
  exact {
    params_wf := hp
    ta := TA.fresh_inv
    wca := WCA.absent_inv
    sd := SD.idle_inv p
    cause_zero := by simp
    mem_wf := Memory.wf_nil
    mem_within := nofun }

/-- Settles O1: the step takes the reset event and leaves `applyReset` of the state, whose units are the
fresh ones. -/
theorem resetClearsEveryRegister : Obligations.ResetClearsEveryRegister := by
  intro s rest hs
  have hsv : ∀ k : Fin 8, WCA.absent.sv[k] = 0 := by decide
  have hrb : ∀ k : Fin 2, WCA.absent.rb[k] = 0 := by decide
  exact ⟨applyReset (s.setPending rest), step_of_pending hs, rfl, rfl, rfl, hsv, hrb, rfl, rfl, rfl, rfl,
    rfl, rfl, rfl, rfl, rfl, rfl, rfl, rfl, rfl, rfl, rfl, rfl, rfl⟩

end Sys2Proof.Machine
end

section
/-! PROOFS. What a run leaves (44_stream_driver.md R157), and the frame of every command (10_state.md
R47, the writes). -/

namespace Sys2Proof.Machine

/-! ### A run encodes its elements (R156, R157) -/

/-- A length that fits `RSP.val` is answered as it is; beyond that the answer is free (log entry 2). -/
theorem lengthAnswer_of_lt {n : Nat} (h : n < 2 ^ 64) : lengthAnswer n = BitVec.ofNat 64 n :=
  if_pos h

/-- Settles O41: a run that fits has elements to read, and its closed form over them is
`stateAfterRun`, whose OB is their text. -/
theorem runEncodesElements : Obligations.RunEncodesElements := by
  intro s w data count hs hfit
  obtain ⟨vs, hvs⟩ := hfit.elements
  have hob : (base64Text (byteStream w.toNat vs)).length = runLength w.toNat count := by
    rw [base64Text_length, byteStream_length, hvs.1]; rfl
  refine ⟨vs, _, hvs, execB64Run_eq hs hfit hvs, rfl, hob, fun hlen => ?_, hs, rfl, rfl, rfl, rfl⟩
  exact congrArg Response.scalar (lengthAnswer_of_lt hlen)

/-! ### The frame of the effects -/

theorem wcaAfterRun_of_not_writes {w : BitVec 4} (hw : w ∈ [1#4, 2#4, 4#4, 8#4])
    (h : (w == 4 || w == 8) = false) (vs : List Nat) (u : WCA) : wcaAfterRun w vs u = u := by
  have hsel : ∀ w ∈ [1#4, 2#4, 4#4, 8#4], (w == 4 || w == 8) = false → w = 1 ∨ w = 2 := by decide
  exact if_pos (hsel w hw h)

theorem w2AfterRun_of_not_writes {w : BitVec 4} (h : (w == 2) = false) (vs : List Nat) (u : W2) :
    w2AfterRun w vs u = u :=
  if_neg (beq_eq_false_iff_ne.1 h)

/-- The registers a command's row of R47 does not mark `w` are in `t` as they were in `s`. -/
structure KeepsUnmarked (i : Instr) (s t : State) : Prop where
  ta   : Claims.writesTa i = false → t.ta = s.ta
  wsel : Claims.writesWsel i = false → t.wca.wsel = s.wca.wsel
  wca  : Claims.writesWca i = false → t.wca = s.wca
  w2   : Claims.writesW2 i = false → t.w2 = s.w2
  sd   : Claims.writesSd i = false → t.sd = s.sd

theorem KeepsUnmarked.refl (i : Instr) (s : State) : KeepsUnmarked i s s :=
  ⟨fun _ => rfl, fun _ => rfl, fun _ => rfl, fun _ => rfl, fun _ => rfl⟩

theorem effectOf_keepsUnmarked {i : Instr} {s t : State} {r : Response}
    (h : effectOf i s = .ok (t, r)) : KeepsUnmarked i s t := by
  cases i with
  | taNew => cases h; exact { KeepsUnmarked.refl _ s with ta := nofun }
  | taLoad n opd => cases h; exact { KeepsUnmarked.refl _ s with ta := nofun }
  | bonNorm w opd => rw [effectOf] at h; split at h <;> cases h; exact .refl _ _
  | bonDenorm w opd => rw [effectOf] at h; split at h <;> cases h; exact .refl _ _
  | wcaNew w =>
    rw [effectOf] at h
    split at h <;> cases h
    exact { KeepsUnmarked.refl _ s with wsel := nofun, wca := nofun }
  | wcaLoad opd =>
    obtain ⟨u, hu, rfl⟩ := map_setWca h
    obtain ⟨-, rfl, -⟩ := wcaLoad_ok hu
    exact { KeepsUnmarked.refl _ s with wca := nofun }
  | wcaFlush =>
    obtain ⟨u, hu, rfl⟩ := map_setWca h
    obtain ⟨-, rfl, -⟩ := wcaFlush_ok hu
    exact { KeepsUnmarked.refl _ s with wca := nofun }
  | w2New => cases h; exact { KeepsUnmarked.refl _ s with w2 := nofun }
  | w2Load c opd =>
    obtain ⟨u, -, rfl⟩ := map_setW2 h
    exact { KeepsUnmarked.refl _ s with w2 := nofun }
  | b64Run w data count =>
    rcases runEffect_cases w data count s with ⟨-, c, -, hc⟩ | ⟨hfit, vs, -, hok⟩
    · rw [effectOf, hc] at h; cases h
    · rw [effectOf, hok] at h
      cases h
      have hwca : Claims.writesWca (.b64Run w data count) = false → wcaAfterRun w vs s.wca = s.wca :=
        fun hw => wcaAfterRun_of_not_writes hfit.width hw vs s.wca
      exact {
        ta := nofun
        wsel := fun hw => congrArg WCA.wsel (hwca hw)
        wca := hwca
        w2 := fun hw => w2AfterRun_of_not_writes hw vs s.w2
        sd := nofun }
  | taValid _ | taX6 _ | taEnc _ | taEncp _ => cases h; exact .refl _ _

/-- Settles O51: an answer of a faulted block and a raised fault write no register of a unit, and an
effect writes what its row marks. -/
theorem commandsWriteOnlyTheirRow : Obligations.CommandsWriteOnlyTheirRow := by
  intro i s t h
  rcases exec_cases i s t h with ⟨hs, rfl⟩ | ⟨-, c, -, rfl⟩ | ⟨hs, u, r, hu, rfl⟩
  · obtain ⟨hta, hwsel, hwca, hw2, hsd⟩ := KeepsUnmarked.refl i s
    exact ⟨hta, hwsel, hwca, hw2, hsd, rfl, rfl, rfl, fun _ => rfl,
      fun hf => absurd hf (by simp [answerFaulted, hs])⟩
  · obtain ⟨hta, hwsel, hwca, hw2, hsd⟩ := KeepsUnmarked.refl i s
    exact ⟨hta, hwsel, hwca, hw2, hsd, rfl, rfl, rfl, fun _ => rfl, nofun⟩
  · obtain ⟨hta, hwsel, hwca, hw2, hsd⟩ := effectOf_keepsUnmarked hu
    obtain ⟨hparams, hmem, hpending, -, hcause⟩ := effectOf_frame i s u r hu
    exact ⟨hta, hwsel, hwca, hw2, hsd, hparams, hpending, hmem,
      fun a => congrArg (readByte · a) hmem, fun _ => ⟨hcause, hs⟩⟩

end Sys2Proof.Machine
end

section
/-! PROOFS. What a command reads (10_state.md R25, R28, R42, R45, R47, R143; 20_memory.md R35, R52): a
command run on two states that agree on what it reads does the same on both. -/

namespace Sys2Proof.Machine

/-! ### Two effects that agree -/

/-- Two outcomes of an operation on two states or units: the same fault, or the same response and
results in the relation `R`. -/
inductive Agree {α : Type} (R : α → α → Prop) :
    Except Cause (α × Response) → Except Cause (α × Response) → Prop
  | error (c : Cause) : Agree R (.error c) (.error c)
  | ok (r : Response) {a b : α} (h : R a b) : Agree R (.ok (a, r)) (.ok (b, r))

theorem Agree.of_eq {α : Type} {R : α → α → Prop} {x y : Except Cause (α × Response)} (h : x = y)
    (hR : ∀ a, R a a) : Agree R x y := by
  subst h
  cases x with
  | error c => exact .error c
  | ok a => exact .ok a.2 (hR a.1)

/-- A unit's operation in the state it belongs to: `f` and `g` put the unit back. -/
theorem Agree.map {α β : Type} {R : α → α → Prop} {Q : β → β → Prop}
    {x y : Except Cause (α × Response)} (h : Agree R x y) {f g : α → β}
    (hfg : ∀ a b, R a b → Q (f a) (g b)) :
    Agree Q (x.map fun a => (f a.1, a.2)) (y.map fun b => (g b.1, b.2)) := by
  cases h with
  | error c => exact .error c
  | ok r h => exact .ok r (hfg _ _ h)

/-! ### What the operations of the units read -/

theorem byteValid_congr {t u : TA} (h : t.valid = u.valid) (k : BitVec 2) :
    byteValid t k = byteValid u k := by
  rw [byteValid, byteValid, h]

theorem taEnc_congr {t u : TA} (h : t.data = u.data) (g : BitVec 2) : taEnc t g = taEnc u g := by
  rw [taEnc, taEnc, h]

theorem taEncp_congr {t u : TA} (hd : t.data = u.data) (hv : t.valid = u.valid) (g : BitVec 2) :
    taEncp t g = taEncp u g := by
  rw [taEncp, taEncp, groupValid, groupValid, byteValid_congr hv, taEnc_congr hd]

theorem wcaCarried_congr {u v : WCA} (hb : u.rb = v.rb) (hr : u.rem = v.rem) :
    wcaCarried u = wcaCarried v := by
  rw [wcaCarried, wcaCarried, hb, hr]

/-- WCA.LOAD writes every register of the unit from `WSEL`, `rb` and `rem` alone (R122). -/
theorem wcaLoad_congr {u v : WCA} (hw : u.wsel = v.wsel) (hb : u.rb = v.rb) (hr : u.rem = v.rem)
    (x : Nat) : wcaLoad u x = wcaLoad v x := by
  simp only [wcaLoad, wcaCarried_congr hb hr, hw]

/-- WCA.FLUSH writes every register of the unit from `WSEL`, `rb` and `rem` alone (R124). -/
theorem wcaFlush_congr {u v : WCA} (hw : u.wsel = v.wsel) (hb : u.rb = v.rb) (hr : u.rem = v.rem) :
    wcaFlush u = wcaFlush v := by
  simp only [wcaFlush, wcaCarried_congr hb hr, hw, hr]

/-- What W2.LOAD leaves in two units that agree on the leftover byte: `has` is the same; `first` and
`second` are left alone in both or written the same, and a `second` left alone holds no leftover. -/
structure W2SameLoad (u v u' v' : W2) : Prop where
  has    : u'.has = v'.has
  first  : (u'.first = u.first ∧ v'.first = v.first) ∨ u'.first = v'.first
  second : (u'.second = u.second ∧ v'.second = v.second ∧ u'.has = false) ∨ u'.second = v'.second

theorem w2Load_agree {u v : W2} (hhas : u.has = v.has)
    (hlo : u.has = true → loByte u.second = loByte v.second) (c : BitVec 2) (e0 e1 : BitVec 16) :
    Agree (W2SameLoad u v) (w2Load u c e0 e1) (w2Load v c e0 e1) := by
  rw [w2Load, w2Load, ← hhas]
  split
  · exact .error _
  split
  · rename_i hu
    rw [hlo hu]
    split
    · exact .ok _ ⟨rfl, .inr rfl, .inl ⟨rfl, rfl, rfl⟩⟩
    · exact .ok _ ⟨rfl, .inl ⟨rfl, rfl⟩, .inl ⟨rfl, rfl, rfl⟩⟩
  rename_i hu
  split
  · exact .ok _ ⟨rfl, .inr rfl, .inr rfl⟩
  split
  · exact .ok _ ⟨rfl, .inr rfl, .inr rfl⟩
  · exact .ok _ ⟨hhas, .inl ⟨rfl, rfl⟩, .inl ⟨rfl, rfl, Bool.eq_false_of_not_eq_true hu⟩⟩

/-! ### What a run reads -/

/-- A run with these operands makes the same checks in both states, and if they pass it reads the same
elements. -/
structure SameInput (s s' : State) (w : BitVec 4) (data count : Nat) : Prop where
  checks : runChecks s w data count = runChecks s' w data count
  reads  : RunFits s w data count → ∀ k, k < count →
    memRead s (data + k * w.toNat) w.toNat = memRead s' (data + k * w.toNat) w.toNat

theorem SameInput.of_eq {s s' : State} (hp : s.params = s'.params) (hm : s.mem = s'.mem)
    (w : BitVec 4) (data count : Nat) : SameInput s s' w data count where
  checks := by rw [runChecks, runChecks, hp, hm]
  reads := fun _ _ _ => memRead_congr s' s _ _ hm (by rw [hp])

/-- Two runs over the same input: both raise the same fault, or both complete over the same elements. -/
theorem runEffect_agree {R : State → State → Prop} {s s' : State} {w : BitVec 4} {data count : Nat}
    (h : SameInput s s' w data count)
    (hR : ∀ vs, R (stateAfterRun w data count vs s) (stateAfterRun w data count vs s')) :
    Agree R (runEffect w data count s) (runEffect w data count s') := by
  rcases runEffect_cases w data count s with ⟨-, c, hc, he⟩ | ⟨hfit, vs, hvs, he⟩
  · have he' : runEffect w data count s' = .error c := by rw [runEffect, ← h.checks, hc]; rfl
    rw [he, he']
    exact .error c
  · have hfit' : RunFits s' w data count := by
      rw [← runChecks_ok_iff, ← h.checks, runChecks_ok_iff]
      exact hfit
    have hvs' : HoldsElements s' w.toNat data count vs :=
      ⟨hvs.1, fun k hk => (h.reads hfit k hk).symm.trans (hvs.2 k hk)⟩
    rw [he, runEffect_eq hfit' hvs']
    exact .ok _ (hR vs)

/-! ### What every command reads, said once -/

/-- What the command `i` reads is the same in both states: the registers its row of R47 marks `r`, of W2
the leftover byte only, and a run's input. -/
structure SameReads (i : Instr) (s s' : State) : Prop where
  taData  : Claims.readsTaData i = true → s.ta.data = s'.ta.data
  taValid : Claims.readsTaValid i = true → s.ta.valid = s'.ta.valid
  wsel    : Claims.readsWsel i = true → s.wca.wsel = s'.wca.wsel
  carry   : Claims.readsCarry i = true → s.wca.rb = s'.wca.rb ∧ s.wca.rem = s'.wca.rem
  w2      : Claims.readsW2 i = true →
    s.w2.has = s'.w2.has ∧ (s.w2.has = true → loByte s.w2.second = loByte s'.w2.second)
  input   : ∀ w data count, i = .b64Run w data count → SameInput s s' w data count

/-- What an effect can do to two states on which it reads the same: it leaves both, it writes the same
into one unit of both, or it is the same run on both. -/
inductive SameEffect (s s' : State) : State → State → Prop
  | kept : SameEffect s s' s s'
  | ta (x : TA) : SameEffect s s' (s.setTa x) (s'.setTa x)
  | wca (u : WCA) : SameEffect s s' (s.setWca u) (s'.setWca u)
  | w2 (u u' : W2) (h : W2SameLoad s.w2 s'.w2 u u') : SameEffect s s' (s.setW2 u) (s'.setW2 u')
  | run (w : BitVec 4) (data count : Nat) (vs : List Nat) :
      SameEffect s s' (stateAfterRun w data count vs s) (stateAfterRun w data count vs s')

/-- WCA.LOAD and WCA.FLUSH, put back into their states. -/
theorem sameEffect_of_wca (s s' : State) {x y : Except Cause (WCA × Response)} (h : x = y) :
    Agree (SameEffect s s') (x.map fun a => (s.setWca a.1, a.2))
      (y.map fun b => (s'.setWca b.1, b.2)) :=
  (Agree.of_eq h Eq.refl).map fun u _ e => e ▸ .wca u

theorem effectOf_sameEffect {i : Instr} {s s' : State} (h : SameReads i s s') :
    Agree (SameEffect s s') (effectOf i s) (effectOf i s') := by
  cases i with
  | bonNorm w opd =>
    rw [effectOf, effectOf]
    split
    · exact .ok _ .kept
    · exact .error _
  | bonDenorm w opd =>
    rw [effectOf, effectOf]
    split
    · exact .ok _ .kept
    · exact .error _
  | taNew => exact .ok _ (.ta _)
  | taLoad n opd => exact .ok _ (.ta _)
  | taValid k =>
    rw [effectOf, effectOf, byteValid_congr (h.taValid rfl)]
    exact .ok _ .kept
  | taX6 g =>
    rw [effectOf, effectOf, h.taData rfl]
    exact .ok _ .kept
  | taEnc g =>
    rw [effectOf, effectOf, taEnc_congr (h.taData rfl)]
    exact .ok _ .kept
  | taEncp g =>
    rw [effectOf, effectOf, taEncp_congr (h.taData rfl) (h.taValid rfl)]
    exact .ok _ .kept
  | wcaNew w =>
    rw [effectOf, effectOf]
    split
    · exact .ok _ (.wca _)
    · exact .error _
  | wcaLoad opd =>
    obtain ⟨hrb, hrem⟩ := h.carry rfl
    rw [effectOf, effectOf, ← h.wsel rfl]
    exact sameEffect_of_wca s s' (wcaLoad_congr (h.wsel rfl) hrb hrem _)
  | wcaFlush =>
    obtain ⟨hrb, hrem⟩ := h.carry rfl
    exact sameEffect_of_wca s s' (wcaFlush_congr (h.wsel rfl) hrb hrem)
  | w2New => exact .ok _ (.w2 _ _ ⟨rfl, .inr rfl, .inr rfl⟩)
  | w2Load c opd =>
    obtain ⟨hhas, hlo⟩ := h.w2 rfl
    exact (w2Load_agree hhas hlo c _ _).map fun u u' e => .w2 u u' e
  | b64Run w data count => exact runEffect_agree (h.input w data count rfl) (.run w data count)

/-- A command on two states on which it reads the same, in the shared frame: it answers that both blocks
are faulted, raises the same fault on both, or has the same effect and response. -/
theorem exec_cases_of_sameReads {i : Instr} {s s' : State} (h : SameReads i s s')
    (hf : s.fault = s'.fault) :
    (exec i s = .next (answerFaulted s) ∧ exec i s' = .next (answerFaulted s')) ∨
    (∃ c, exec i s = .next (raiseFault s c) ∧ exec i s' = .next (raiseFault s' c)) ∨
    (∃ t t' r, SameEffect s s' t t' ∧ exec i s = .next (t.setRsp r) ∧
      exec i s' = .next (t'.setRsp r)) := by
  have hagree := effectOf_sameEffect h
  rw [exec_eq_perform, exec_eq_perform]
  cases hs : s.fault
  · have hs' : s'.fault = false := hf ▸ hs
    generalize effectOf i s = e at hagree
    generalize effectOf i s' = e' at hagree
    cases hagree with
    | error c => exact .inr (.inl ⟨c, perform_error s c hs, perform_error s' c hs'⟩)
    | ok r he => exact .inr (.inr ⟨_, _, r, he, perform_ok s _ r hs, perform_ok s' _ r hs'⟩)
  · exact .inl ⟨perform_faulted s _ hs, perform_faulted s' _ (hf ▸ hs)⟩

/-! ### Reads by R47 -/

theorem sameWrite_kept {α : Type} (f : State → α) (s s' : State) : Claims.SameWrite f s s s' s' :=
  .inl ⟨rfl, rfl⟩

theorem sameWrite_comp {α β : Type} {f : State → α} {s t s' t' : State}
    (h : Claims.SameWrite f s t s' t') (g : α → β) :
    Claims.SameWrite (fun x => g (f x)) s t s' t' :=
  h.imp (fun hk => ⟨congrArg g hk.1, congrArg g hk.2⟩) (congrArg g)

/-- The executions from `s` to `t` and from `s'` to `t'` write the same: TA, WCA and the sequencer as a
whole, W2 register by register. -/
structure SameWrites (s t s' t' : State) : Prop where
  ta     : Claims.SameWrite (·.ta) s t s' t'
  wca    : Claims.SameWrite (·.wca) s t s' t'
  first  : Claims.SameWrite (·.w2.first) s t s' t'
  second : Claims.SameWrite (·.w2.second) s t s' t'
  has    : Claims.SameWrite (·.w2.has) s t s' t'
  sd     : Claims.SameWrite (·.sd) s t s' t'

theorem SameWrites.kept (s s' : State) : SameWrites s s s' s' :=
  ⟨sameWrite_kept _ s s', sameWrite_kept _ s s', sameWrite_kept _ s s', sameWrite_kept _ s s',
    sameWrite_kept _ s s', sameWrite_kept _ s s'⟩

theorem stateAfterRun_sameWrites (w : BitVec 4) (data count : Nat) (vs : List Nat) (s s' : State) :
    SameWrites s (stateAfterRun w data count vs s) s' (stateAfterRun w data count vs s') := by
  have hwca : Claims.SameWrite (·.wca) s (stateAfterRun w data count vs s)
      s' (stateAfterRun w data count vs s') := by
    by_cases hw : w = 1 ∨ w = 2
    · exact .inl ⟨if_pos hw, if_pos hw⟩
    · exact .inr ((if_neg hw).trans (if_neg hw).symm)
  have hw2 : Claims.SameWrite (·.w2) s (stateAfterRun w data count vs s)
      s' (stateAfterRun w data count vs s') := by
    by_cases hw : w = 2
    · exact .inr ((if_pos hw).trans (if_pos hw).symm)
    · exact .inl ⟨if_neg hw, if_neg hw⟩
  exact ⟨.inr rfl, hwca, sameWrite_comp hw2 W2.first, sameWrite_comp hw2 W2.second,
    sameWrite_comp hw2 W2.has, .inr rfl⟩

theorem SameEffect.sameWrites {s s' t t' : State} (h : SameEffect s s' t t') :
    SameWrites s t s' t' := by
  cases h with
  | kept => exact .kept s s'
  | ta x => exact { SameWrites.kept s s' with ta := .inr rfl }
  | wca u => exact { SameWrites.kept s s' with wca := .inr rfl }
  | w2 u u' h =>
    exact { SameWrites.kept s s' with
      first := h.first
      second := h.second.imp_left fun ⟨hu, hu', _⟩ => ⟨hu, hu'⟩
      has := .inr h.has }
  | run w data count vs => exact stateAfterRun_sameWrites w data count vs s s'

/-- FAULT and CAUSE are not written by an effect. -/
theorem SameEffect.faultCause {s s' t t' : State} (h : SameEffect s s' t t') :
    t.fault = s.fault ∧ t'.fault = s'.fault ∧ t.cause = s.cause ∧ t'.cause = s'.cause := by
  cases h <;> exact ⟨rfl, rfl, rfl, rfl⟩

/-- Settles O52: on two states on which it reads the same, a command answers a faulted block, raises the
same fault, or has the same effect, which writes the same. -/
theorem commandsReadOnlyTheirRow : Obligations.CommandsReadOnlyTheirRow := by
  intro i s t s' t' hf hc hp hm hdata hvalid hwsel hcarry hw2 ht ht'
  have hreads : SameReads i s s' := {
    taData := hdata
    taValid := hvalid
    wsel := hwsel
    carry := hcarry
    w2 := fun hi => ⟨(hw2 hi).2, fun _ => congrArg loByte (hw2 hi).1⟩
    input := fun w data count _ => .of_eq hp hm w data count }
  have hw : t.rsp = t'.rsp ∧ t.fault = t'.fault ∧ t.cause = t'.cause ∧ SameWrites s t s' t' := by
    rcases exec_cases_of_sameReads hreads hf with
      ⟨h, h'⟩ | ⟨c, h, h'⟩ | ⟨u, u', r, hu, h, h'⟩ <;>
      (rw [h] at ht; rw [h'] at ht'; cases ht; cases ht')
    · exact ⟨congrArg Response.faulted hc, hf, hc, { SameWrites.kept s s' with }⟩
    · exact ⟨rfl, rfl, rfl, { SameWrites.kept s s' with }⟩
    · obtain ⟨huf, huf', huc, huc'⟩ := hu.faultCause
      exact ⟨rfl, huf.trans (hf.trans huf'.symm), huc.trans (hc.trans huc'.symm),
        { hu.sameWrites with }⟩
  obtain ⟨hrsp, hfault, hcause, hta, hwca, hfirst, hsecond, hhas, hsd⟩ := hw
  exact ⟨hrsp, hfault, hcause, hta, sameWrite_comp hwca WCA.wsel, sameWrite_comp hwca WCA.sv,
    sameWrite_comp hwca WCA.rb, sameWrite_comp hwca WCA.rem, sameWrite_comp hwca WCA.vbc, hfirst,
    hsecond, hhas, hsd⟩

/-! ### Registers no command reads (R25, R28, R143) -/

/-- `Claims.forgetUnread` on WCA. -/
def forgetWca (u : WCA) : WCA := { u with sv := #v[0, 0, 0, 0, 0, 0, 0, 0], vbc := 0 }

/-- `Claims.forgetUnread` on W2: of `second`, the leftover byte stays. -/
def forgetW2 (u : W2) : W2 :=
  { u with first := 0, second := bif u.has then u.second &&& 0x00FF else 0 }

section
variable (s : State)

theorem forgetUnread_setTa (x : TA) :
    Claims.forgetUnread (s.setTa x) = (Claims.forgetUnread s).setTa x := rfl

theorem forgetUnread_setWca (u : WCA) :
    Claims.forgetUnread (s.setWca u) = (Claims.forgetUnread s).setWca (forgetWca u) := rfl

theorem forgetUnread_setW2 (u : W2) :
    Claims.forgetUnread (s.setW2 u) = (Claims.forgetUnread s).setW2 (forgetW2 u) := rfl

theorem forgetUnread_setSd (x : SD) :
    Claims.forgetUnread (s.setSd x) = (Claims.forgetUnread s).setSd x := rfl

theorem forgetUnread_setRsp (r : Response) :
    Claims.forgetUnread (s.setRsp r) = (Claims.forgetUnread s).setRsp r := rfl

theorem forgetUnread_raiseFault (c : Cause) :
    Claims.forgetUnread (raiseFault s c) = raiseFault (Claims.forgetUnread s) c := rfl

theorem forgetUnread_answerFaulted :
    Claims.forgetUnread (answerFaulted s) = answerFaulted (Claims.forgetUnread s) := rfl

end

theorem loByte_and_low (x : BitVec 16) : loByte (x &&& 0x00FF) = loByte x := by
  apply BitVec.eq_of_getLsbD_eq
  intro k hk
  have hmask : ∀ k < 8, (0x00FF#16).getLsbD k = true := by decide
  simp [loByte, hk, hmask k hk]

theorem loByte_of_forgetW2 {u v : W2} (h : forgetW2 u = forgetW2 v) (hu : u.has = true) :
    loByte u.second = loByte v.second := by
  have hv : v.has = true := (congrArg W2.has h).symm.trans hu
  have hs : (forgetW2 u).second = (forgetW2 v).second := congrArg W2.second h
  simp only [forgetW2, hu, hv, cond_true] at hs
  rw [← loByte_and_low u.second, hs, loByte_and_low]

theorem forgetW2_of_sameLoad {u v u' v' : W2} (h : W2SameLoad u v u' v') :
    forgetW2 u' = forgetW2 v' := by
  have hhas := h.has
  rcases h.second with ⟨-, -, hn⟩ | hs
  · have hn' : v'.has = false := hhas ▸ hn
    simp [forgetW2, hn, hn']
  · simp [forgetW2, hhas, hs]

theorem forgetUnread_stateAfterRun {s t : State}
    (h : Claims.forgetUnread s = Claims.forgetUnread t) (w : BitVec 4) (data count : Nat)
    (vs : List Nat) :
    Claims.forgetUnread (stateAfterRun w data count vs s) =
      Claims.forgetUnread (stateAfterRun w data count vs t) := by
  have hwca : forgetWca s.wca = forgetWca t.wca := congrArg State.wca h
  have hw2 : forgetW2 s.w2 = forgetW2 t.w2 := congrArg State.w2 h
  have hu : forgetWca (wcaAfterRun w vs s.wca) = forgetWca (wcaAfterRun w vs t.wca) := by
    rw [wcaAfterRun, wcaAfterRun]
    split
    · exact hwca
    · rfl
  have hv : forgetW2 (w2AfterRun w vs s.w2) = forgetW2 (w2AfterRun w vs t.w2) := by
    rw [w2AfterRun, w2AfterRun]
    split
    · rfl
    · exact hw2
  simp only [stateAfterRun_eq_sets, forgetUnread_setSd, forgetUnread_setW2, forgetUnread_setWca,
    forgetUnread_setTa, h, hu, hv]

theorem SameEffect.forgetUnread {s t u v : State} (h : SameEffect s t u v)
    (hst : Claims.forgetUnread s = Claims.forgetUnread t) :
    Claims.forgetUnread u = Claims.forgetUnread v := by
  cases h with
  | kept => exact hst
  | ta x => rw [forgetUnread_setTa, forgetUnread_setTa, hst]
  | wca w => rw [forgetUnread_setWca, forgetUnread_setWca, hst]
  | w2 w w' h => rw [forgetUnread_setW2, forgetUnread_setW2, hst, forgetW2_of_sameLoad h]
  | run w data count vs => exact forgetUnread_stateAfterRun hst w data count vs

theorem sameReads_of_forgetUnread (i : Instr) {s t : State}
    (h : Claims.forgetUnread s = Claims.forgetUnread t) : SameReads i s t := by
  have hta : s.ta = t.ta := (congrArg State.ta h :)
  have hwca : forgetWca s.wca = forgetWca t.wca := congrArg State.wca h
  have hw2 : forgetW2 s.w2 = forgetW2 t.w2 := congrArg State.w2 h
  have hparams : s.params = t.params := (congrArg State.params h :)
  have hmem : s.mem = t.mem := (congrArg State.mem h :)
  exact {
    taData := fun _ => congrArg TA.data hta
    taValid := fun _ => congrArg TA.valid hta
    wsel := fun _ => (congrArg WCA.wsel hwca :)
    carry := fun _ => ⟨(congrArg WCA.rb hwca :), (congrArg WCA.rem hwca :)⟩
    w2 := fun _ => ⟨(congrArg W2.has hw2 :), loByte_of_forgetW2 hw2⟩
    input := fun w data count _ => .of_eq hparams hmem w data count }

/-- Settles O55: a command reads the same in both states, and what the same effect leaves differs in the
forgotten registers only; so do the answers of a faulted block and a raised fault. -/
theorem unreadRegistersDoNotMatter : Obligations.UnreadRegistersDoNotMatter := by
  intro i s t h
  have hfault : s.fault = t.fault := (congrArg State.fault h :)
  rcases exec_cases_of_sameReads (sameReads_of_forgetUnread i h) hfault with
    ⟨hs, ht⟩ | ⟨c, hs, ht⟩ | ⟨u, v, r, huv, hs, ht⟩ <;>
    simp only [hs, ht, mapNext]
  · rw [forgetUnread_answerFaulted, forgetUnread_answerFaulted, h]
  · rw [forgetUnread_raiseFault, forgetUnread_raiseFault, h]
  · rw [forgetUnread_setRsp, forgetUnread_setRsp, huv.forgetUnread h]

/-! ### What the host holds and no unit reads (R35, R42, R52) -/

/-- `f` changes nothing a unit holds, and writing a unit before or after it is the same. -/
structure SparesUnits (f : State → State) : Prop where
  ta     : ∀ s, (f s).ta = s.ta
  wca    : ∀ s, (f s).wca = s.wca
  w2     : ∀ s, (f s).w2 = s.w2
  setTa  : ∀ s x, (f s).setTa x = f (s.setTa x)
  setWca : ∀ s x, (f s).setWca x = f (s.setWca x)
  setW2  : ∀ s x, (f s).setW2 x = f (s.setW2 x)
  setSd  : ∀ s x, (f s).setSd x = f (s.setSd x)

theorem SparesUnits.stateAfterRun {f : State → State} (hf : SparesUnits f) (w : BitVec 4)
    (data count : Nat) (vs : List Nat) (s : State) :
    stateAfterRun w data count vs (f s) = f (stateAfterRun w data count vs s) := by
  simp only [stateAfterRun_eq_sets, hf.wca, hf.w2, hf.setTa, hf.setWca, hf.setW2, hf.setSd]

theorem SparesUnits.sameReads {f : State → State} (hf : SparesUnits f) (i : Instr) (s : State)
    (hrun : ∀ w data count, i = .b64Run w data count → SameInput s (f s) w data count) :
    SameReads i s (f s) where
  taData := fun _ => by rw [hf.ta]
  taValid := fun _ => by rw [hf.ta]
  wsel := fun _ => by rw [hf.wca]
  carry := fun _ => by rw [hf.wca]; exact ⟨rfl, rfl⟩
  w2 := fun _ => by rw [hf.w2]; exact ⟨rfl, fun _ => rfl⟩
  input := hrun

/-- From one and the same W2, the same load leaves the same. -/
theorem W2SameLoad.eq_of_same {u u' v' : W2} (h : W2SameLoad u u u' v') : u' = v' := by
  obtain ⟨f, x, b⟩ := u'
  obtain ⟨f', x', b'⟩ := v'
  obtain ⟨hhas, hfirst, hsecond⟩ := h
  have hf : f = f' := hfirst.elim (fun ⟨hu, hv⟩ => hu.trans hv.symm) id
  have hx : x = x' := hsecond.elim (fun ⟨hu, hv, _⟩ => hu.trans hv.symm) id
  have hb : b = b' := hhas
  rw [hf, hx, hb]

/-- The effect on the changed state is the change of the effect. -/
theorem SparesUnits.eq_of_sameEffect {f : State → State} (hf : SparesUnits f) {s t t' : State}
    (h : SameEffect s (f s) t t') : t' = f t := by
  cases h with
  | kept => rfl
  | ta x => exact hf.setTa s x
  | wca u => exact hf.setWca s u
  | w2 u u' h =>
    rw [hf.w2] at h
    rw [h.eq_of_same, hf.setW2]
  | run w data count vs => exact hf.stateAfterRun w data count vs s

theorem setRsp_sparesUnits (r : Response) : SparesUnits (State.setRsp · r) :=
  ⟨fun _ => rfl, fun _ => rfl, fun _ => rfl, fun _ _ => rfl, fun _ _ => rfl, fun _ _ => rfl,
    fun _ _ => rfl⟩

/-- Settles O53: the effect is worked out beside the earlier response, which every outcome replaces by
the command's own. -/
theorem responseIsNotRead : Obligations.ResponseIsNotRead := by
  intro i s r
  show exec i (s.setRsp r) = exec i s
  have hf := setRsp_sparesUnits r
  have h := hf.sameReads i s fun w data count _ =>
    .of_eq (s := s) (s' := s.setRsp r) rfl rfl w data count
  rcases exec_cases_of_sameReads h rfl with
    ⟨hs, ht⟩ | ⟨c, hs, ht⟩ | ⟨t, t', q, he, hs, ht⟩ <;> rw [hs, ht]
  · rfl
  · rfl
  · rw [hf.eq_of_sameEffect he]
    rfl

/-- The state with the strap set to `e` (R35). -/
def State.setStrap (s : State) (e : Endian) : State :=
  { s with params := { s.params with hostEndian := e } }

theorem setStrap_sparesUnits (e : Endian) : SparesUnits (State.setStrap · e) :=
  ⟨fun _ => rfl, fun _ => rfl, fun _ => rfl, fun _ _ => rfl, fun _ _ => rfl, fun _ _ => rfl,
    fun _ _ => rfl⟩

/-- One byte has one order (R52): the strap does not matter for it. -/
theorem nativeValue_singleton (e : Endian) (b : Byte) : nativeValue e [b] = b.toNat := by
  cases e <;> simp [nativeValue, denLittle, den]

theorem memRead_one_setStrap (s : State) (e : Endian) (a : Nat) :
    memRead (s.setStrap e) a 1 = memRead s a 1 := by
  rw [memRead, memRead, show (s.setStrap e).mem = s.mem from rfl]
  cases hm : readBytes s.mem a 1 with
  | none => rfl
  | some m =>
    obtain ⟨b, rfl⟩ := List.length_eq_one_iff.1 ((readBytes_eq_some_iff _ _ _ _).1 hm).1
    exact congrArg Except.ok ((nativeValue_singleton e b).trans (nativeValue_singleton _ b).symm)

theorem sameInput_setStrap (s : State) (e : Endian) {w : BitVec 4} (hw : w ∉ [2#4, 4#4, 8#4])
    (data count : Nat) : SameInput s (s.setStrap e) w data count where
  checks := rfl
  reads := fun hfit k _ => by
    have hone : ∀ w ∈ [1#4, 2#4, 4#4, 8#4], w ∉ [2#4, 4#4, 8#4] → w = 1 := by decide
    obtain rfl := hone w hfit.width hw
    exact (memRead_one_setStrap s e _).symm

/-- Settles O56: only `MemRead` looks at the strap, only runs call it, and a run that fits and is not of
width 2, 4 or 8 reads single bytes. -/
theorem strapReadByWideRunsOnly : Obligations.StrapReadByWideRunsOnly := by
  intro i s e hi
  show exec i (s.setStrap e) = mapNext (State.setStrap · e) (exec i s)
  have hf := setStrap_sparesUnits e
  have h := hf.sameReads i s fun w data count hrun =>
    sameInput_setStrap s e (hi w data count hrun) data count
  rcases exec_cases_of_sameReads h rfl with
    ⟨hs, ht⟩ | ⟨c, hs, ht⟩ | ⟨t, t', r, he, hs, ht⟩ <;> rw [hs, ht]
  · rfl
  · rfl
  · rw [hf.eq_of_sameEffect he]
    rfl

end Sys2Proof.Machine
end

section
/-! PROOFS. Reading the input memory (20_memory.md R52, R53, R56): the value `MemRead` gives and its
canonical bytes. -/

namespace Sys2Proof.Machine

/-! ### What MemRead can do, said once -/

theorem memRead_of_readBytes {s : State} {a n : Nat} {m : List Byte}
    (h : readBytes s.mem a n = some m) :
    memRead s a n = .ok (nativeValue s.params.hostEndian m) := by
  rw [memRead, h]

theorem memRead_of_readBytes_none {s : State} {a n : Nat} (h : readBytes s.mem a n = none) :
    memRead s a n = .error .access := by
  rw [memRead, h]

/-- A value that is read is the native value of readable bytes. -/
theorem memRead_ok {s : State} {a n v : Nat} (h : memRead s a n = .ok v) :
    ∃ m, readBytes s.mem a n = some m ∧ v = nativeValue s.params.hostEndian m := by
  cases hm : readBytes s.mem a n with
  | none => rw [memRead_of_readBytes_none hm] at h; cases h
  | some m => rw [memRead_of_readBytes hm] at h; cases h; exact ⟨m, rfl, rfl⟩

/-! ### The bytes of a range -/

theorem readBytes_of_forall {m : Memory} {a n : Nat} {M : Nat → Byte}
    (h : ∀ k, k < n → readByte m (a + k) = some (M k)) :
    readBytes m a n = some ((List.range n).map M) := by
  rw [readBytes_eq_some_iff]
  exact ⟨by simp, fun k hk => by simpa using h k (by simpa using hk)⟩

theorem readBytes_eq_none {m : Memory} {a n k : Nat} (hk : k < n)
    (h : readByte m (a + k) = none) : readBytes m a n = none := by
  cases hm : readBytes m a n with
  | none => rfl
  | some l =>
    obtain ⟨hlen, hread⟩ := (readBytes_eq_some_iff m a n l).1 hm
    have hsome := hread k (hlen ▸ hk)
    rw [h] at hsome
    cases hsome

/-! ### The two readings as sums (R52) -/

/-- The first byte carries the highest weight, so the sum is taken apart at its front. -/
theorem den_map_range (M : Nat → Byte) (n : Nat) :
    den ((List.range n).map M) =
      ((List.range n).map fun k => (M k).toNat <<< (8 * (n - 1 - k))).sum := by
  induction n generalizing M with
  | zero => rfl
  | succ n ih =>
    have hweight : ∀ k, n - 1 - k = n - (k + 1) := fun k => by omega
    have htail := ih (M ∘ Nat.succ)
    simp only [List.range_succ_eq_map, List.map_cons, List.map_map, List.sum_cons, den,
      List.length_map, List.length_range, htail]
    simp only [Function.comp_def, Nat.succ_eq_add_one, Nat.add_sub_cancel, Nat.sub_zero, hweight]

/-- The last byte carries the highest weight, so the sum is taken apart at its end. -/
theorem denLittle_map_range (M : Nat → Byte) (n : Nat) :
    denLittle ((List.range n).map M) =
      ((List.range n).map fun k => (M k).toNat <<< (8 * k)).sum := by
  induction n with
  | zero => rfl
  | succ n ih =>
    rw [denLittle_eq_den_reverse] at ih ⊢
    simp only [List.range_succ, List.map_append, List.map_cons, List.map_nil, List.reverse_append,
      List.reverse_singleton, List.singleton_append, List.sum_append, List.sum_singleton, den, ih,
      List.length_reverse, List.length_map, List.length_range]
    exact Nat.add_comm _ _

/-- Settles O49: readable bytes are the image `MemRead` takes the native value of, which is the sum of
the strap's reading; one unreadable byte leaves no image. -/
theorem memReadValue : Obligations.MemReadValue := by
  intro s a n
  refine ⟨fun M hM => ?_, fun ⟨k, hk, hnone⟩ =>
    memRead_of_readBytes_none (readBytes_eq_none hk hnone)⟩
  rw [memRead_of_readBytes (readBytes_of_forall hM)]
  constructor <;> intro he <;> rw [he]
  · exact congrArg Except.ok (denLittle_map_range M n)
  · exact congrArg Except.ok (den_map_range M n)

/-- Settles O50: the value read is the native value of these bytes, which BON takes back to them. -/
theorem canonicalBytesOfImage : Obligations.CanonicalBytesOfImage := by
  intro s a n v m hm hv
  obtain ⟨hlen, -⟩ := (readBytes_eq_some_iff _ _ _ _).1 hm
  rw [memRead_of_readBytes hm] at hv
  cases hv
  subst hlen
  exact bon_nativeValue s.params.hostEndian m

end Sys2Proof.Machine
end

section
/-! PROOFS. When two runs give the same characters (20_memory.md R63): the text of a byte sequence
determines it, and on a big-endian host the byte stream is the memory image. -/

namespace Sys2Proof.Machine

/-! ### The text determines the bytes -/

/-- The index of a character in the alphabet of R105. -/
def indexOf (ch : Byte) : Nat := base64Table.idxOf ch

theorem indexOf_symbol {n : Nat} (h : n < 64) : indexOf (symbol n) = n := by
  revert n; decide

theorem symbol_ne_pad {n : Nat} (h : n < 64) : symbol n ≠ 0x3D := by
  revert n; decide

/-- The bytes a Base64 text stands for: three of every four characters, fewer where the last are `=`. -/
def bytesOfText : List Byte → List Byte
  | c₀ :: c₁ :: c₂ :: c₃ :: rest =>
    let a := BitVec.ofNat 8 (indexOf c₀ * 4 + indexOf c₁ / 16)
    let b := BitVec.ofNat 8 (indexOf c₁ % 16 * 16 + indexOf c₂ / 4)
    let c := BitVec.ofNat 8 (indexOf c₂ % 4 * 64 + indexOf c₃)
    if c₂ = 0x3D then [a]
    else if c₃ = 0x3D then [a, b]
    else a :: b :: c :: bytesOfText rest
  | _ => []

/-- A byte put together again from the indices that hold its bits. -/
theorem ofNat_eq_byte {x : Byte} {n : Nat} (h : n = x.toNat) : BitVec.ofNat 8 n = x := by
  rw [h, BitVec.ofNat_toNat, BitVec.setWidth_eq]

theorem bytesOfText_base64Text (S : List Byte) : bytesOfText (base64Text S) = S := by
  match S with
  | [] => rfl
  | [a] =>
    have ha := a.isLt
    rw [base64Text, bytesOfText, if_pos rfl, indexOf_symbol (by omega), indexOf_symbol (by omega),
      ofNat_eq_byte (x := a) (by omega)]
  | [a, b] =>
    have ha := a.isLt
    have hb := b.isLt
    rw [base64Text, bytesOfText, if_neg (symbol_ne_pad (by omega)), if_pos rfl,
      indexOf_symbol (by omega), indexOf_symbol (by omega), indexOf_symbol (by omega),
      ofNat_eq_byte (x := a) (by omega), ofNat_eq_byte (x := b) (by omega)]
  | a :: b :: c :: rest =>
    have ha := a.isLt
    have hb := b.isLt
    have hc := c.isLt
    simp only [base64Text, List.cons_append, List.nil_append]
    rw [bytesOfText, if_neg (symbol_ne_pad (by omega)), if_neg (symbol_ne_pad (by omega)),
      bytesOfText_base64Text rest,
      indexOf_symbol (by omega), indexOf_symbol (by omega), indexOf_symbol (by omega),
      indexOf_symbol (by omega), ofNat_eq_byte (x := a) (by omega),
      ofNat_eq_byte (x := b) (by omega), ofNat_eq_byte (x := c) (by omega)]

theorem base64Text_injective : Function.Injective base64Text :=
  Function.LeftInverse.injective bytesOfText_base64Text

/-! ### The characters of a run -/

/-- What the statements about OB need of a run over given elements (R157). -/
theorem exec_b64Run_ob {s : State} {w : BitVec 4} {data count : Nat} {vs : List Nat}
    (hs : s.Running) (hfit : RunFits s w data count) (hvs : HoldsElements s w.toNat data count vs) :
    ∃ t, exec (.b64Run w data count) s = .next t ∧ t.sd.ob = base64Text (byteStream w.toNat vs) :=
  ⟨_, execB64Run_eq hs hfit hvs, rfl⟩

/-- Settles O46: each OB is the text of its byte stream, and different streams have different texts. -/
theorem widthInvariance : Obligations.WidthInvariance := by
  intro s₁ s₂ w₁ w₂ d₁ n₁ d₂ n₂ vs₁ vs₂ hs₁ hs₂ hfit₁ hfit₂ hvs₁ hvs₂
  obtain ⟨t₁, hrun₁, hob₁⟩ := exec_b64Run_ob hs₁ hfit₁ hvs₁
  obtain ⟨t₂, hrun₂, hob₂⟩ := exec_b64Run_ob hs₂ hfit₂ hvs₂
  exact ⟨t₁, t₂, hrun₁, hrun₂, by rw [hob₁, hob₂, base64Text_injective.eq_iff]⟩

/-! ### The byte stream on a big-endian host (R56) -/

theorem readBytes_append {m : Memory} {a p q : Nat} {b c : List Byte}
    (hb : readBytes m a p = some b) (hc : readBytes m (a + p) q = some c) :
    readBytes m a (p + q) = some (b ++ c) := by
  rw [readBytes_eq_some_iff] at hb hc ⊢
  obtain ⟨rfl, hb⟩ := hb
  obtain ⟨rfl, hc⟩ := hc
  refine ⟨List.length_append, fun k hk => ?_⟩
  rcases Nat.lt_or_ge k b.length with h | h
  · rw [List.getElem_append_left h, hb k h]
  · have hk' : k - b.length < c.length := by rw [List.length_append] at hk; omega
    rw [List.getElem_append_right h, ← hc _ hk', Nat.add_assoc, Nat.add_sub_cancel' h]

theorem HoldsElements.head {s : State} {w data count v : Nat} {vs : List Nat}
    (h : HoldsElements s w data count (v :: vs)) : memRead s data w = .ok v := by
  obtain ⟨rfl, hread⟩ := h
  simpa using hread 0 (Nat.zero_lt_succ _)

theorem HoldsElements.tail {s : State} {w data count v : Nat} {vs : List Nat}
    (h : HoldsElements s w data count (v :: vs)) :
    HoldsElements s w (data + w) vs.length vs := by
  obtain ⟨rfl, hread⟩ := h
  refine ⟨rfl, fun i hi => ?_⟩
  have hsucc := hread (i + 1) (Nat.succ_lt_succ hi)
  rwa [Nat.succ_mul, Nat.add_comm (i * w), ← Nat.add_assoc] at hsucc

/-- With the strap big, the byte stream of a run is what lies in memory, whatever the width. -/
theorem readBytes_of_holdsElements {s : State} (he : s.params.hostEndian = .big) {w : Nat}
    {vs : List Nat} {data count : Nat} (h : HoldsElements s w data count vs) :
    readBytes s.mem data (count * w) = some (byteStream w vs) := by
  induction vs generalizing data count with
  | nil =>
    obtain ⟨rfl, -⟩ := h
    rw [List.length_nil, Nat.zero_mul]; rfl
  | cons v vs ih =>
    have hfirst : readBytes s.mem data w = some (bon v w) := by
      obtain ⟨m, hm, -⟩ := memRead_ok h.head
      have hcanon := canonicalBytesOfImage s data w v m hm h.head
      rw [he] at hcanon
      exact hm.trans (congrArg some hcanon.symm)
    have hrest := readBytes_append hfirst (ih h.tail)
    obtain ⟨rfl, -⟩ := h
    rw [List.length_cons, Nat.succ_mul, Nat.add_comm (vs.length * w)]
    exact hrest

/-- A run of width 1 has as many bytes as elements. -/
theorem mul_toNat_one (n : Nat) : n * (1 : BitVec 4).toNat = n := Nat.mul_one n

/-- A run that fits still fits when its bytes are taken one by one. -/
theorem RunFits.bytes {s : State} {w : BitVec 4} {data count : Nat} (h : RunFits s w data count) :
    RunFits s 1 data (count * w.toNat) where
  width := by decide
  null := fun h0 => by rw [h.null h0, Nat.zero_mul]
  total := by rw [mul_toNat_one]; exact h.total
  length := by rw [mul_toNat_one]; exact h.length
  endAddr := by rw [mul_toNat_one]; exact h.endAddr
  readable := by rw [mul_toNat_one]; exact h.readable

/-- Settles O47: both runs encode the image of the same range of memory. -/
theorem bigEndianViewsAgree : Obligations.BigEndianViewsAgree := by
  intro s w data count hs he hfit
  obtain ⟨vs, hvs⟩ := hfit.elements
  obtain ⟨bs, hbs⟩ := hfit.bytes.elements
  have hstream : byteStream w.toNat vs = byteStream (1 : BitVec 4).toNat bs := by
    have hbytes := readBytes_of_holdsElements he hbs
    rw [mul_toNat_one, readBytes_of_holdsElements he hvs] at hbytes
    exact Option.some.inj hbytes
  obtain ⟨t, ht, hob⟩ := exec_b64Run_ob hs hfit hvs
  obtain ⟨u, hu, hob'⟩ := exec_b64Run_ob hs hfit.bytes hbs
  exact ⟨t, u, ht, hu, by rw [hob, hob', hstream]⟩

end Sys2Proof.Machine
end

section
/-! PROOFS. What a command reads of the input memory (20_memory.md R50, R54). -/

namespace Sys2Proof.Machine

/-! ### Memories that agree on a range -/

theorem readBytes_congr {m m' : Memory} {a n : Nat}
    (h : ∀ x, a ≤ x → x < a + n → readByte m x = readByte m' x) :
    readBytes m a n = readBytes m' a n := by
  induction n generalizing a with
  | zero => rfl
  | succ n ih =>
    rw [readBytes, readBytes, h a le_rfl (by omega), ih fun x hx hx' => h x (by omega) (by omega)]

theorem rangeReadable_congr {m m' : Memory} {a n : Nat}
    (h : ∀ x, a ≤ x → x < a + n → readByte m x = readByte m' x) :
    rangeReadable m a n = rangeReadable m' a n := by
  induction n generalizing a with
  | zero => rfl
  | succ n ih =>
    rw [rangeReadable, rangeReadable, readable, readable, h a le_rfl (by omega),
      ih fun x hx hx' => h x (by omega) (by omega)]

/-- A run checks the bytes of its range and reads its elements within it. -/
theorem sameInput_setMem {s : State} {m : Memory} {w : BitVec 4} {data count : Nat}
    (h : ∀ a, data ≤ a → a < data + count * w.toNat → readByte m a = readByte s.mem a) :
    SameInput s (s.setMem m) w data count where
  checks := by
    rw [runChecks, runChecks, State.setMem_params, State.setMem_mem,
      rangeReadable_congr (n := runTotal w.toNat count) h]
  reads := fun _ k hk => by
    have hend : (k + 1) * w.toNat ≤ count * w.toNat := Nat.mul_le_mul_right _ hk
    rw [Nat.succ_mul] at hend
    rw [memRead, memRead, State.setMem_params, State.setMem_mem,
      readBytes_congr fun x hx hx' => h x (by omega) (by omega)]

/-! ### A command beside another memory -/

theorem setMem_sparesUnits (m : Memory) : SparesUnits (State.setMem · m) :=
  ⟨fun _ => rfl, fun _ => rfl, fun _ => rfl, fun _ _ => rfl, fun _ _ => rfl, fun _ _ => rfl,
    fun _ _ => rfl⟩

/-- Only a run's input depends on the memory; everything else a command does is the same beside it. -/
theorem exec_setMem {i : Instr} {s : State} {m : Memory}
    (hrun : ∀ w data count, i = .b64Run w data count → SameInput s (s.setMem m) w data count) :
    exec i (s.setMem m) = mapNext (State.setMem · m) (exec i s) := by
  have hf := setMem_sparesUnits m
  rcases exec_cases_of_sameReads (hf.sameReads i s hrun) rfl with
    ⟨hs, ht⟩ | ⟨c, hs, ht⟩ | ⟨t, t', r, he, hs, ht⟩ <;> rw [hs, ht]
  · rfl
  · rfl
  · rw [hf.eq_of_sameEffect he]
    rfl

/-- Settles O57: memories that agree on the range give a run the same input, and no other command has
an input in memory. -/
theorem runReadsOnlyItsRange : Obligations.RunReadsOnlyItsRange := by
  refine ⟨fun s m w data count h => ?_, fun i s m hi => ?_⟩
  · show exec _ (s.setMem m) = mapNext (State.setMem · m) _
    refine exec_setMem fun w' data' count' hrun => ?_
    cases hrun
    exact sameInput_setMem h
  · show exec i (s.setMem m) = mapNext (State.setMem · m) _
    exact exec_setMem fun w data count hrun => absurd hrun (hi w data count)

end Sys2Proof.Machine
end

section
/-! PROOFS. The decoder and the encoder (30_encoding.md R70, R72, R77, R79): an instruction has a row and
two fields, a word is put together from its fields, and a word decodes when it selects a row. -/

namespace Sys2Proof

/-! ### The rows of the opcode map (R72) -/

/-- The column "opcode" of R72. -/
def Opcode.byte : Opcode → BitVec 8
  | .bonNorm => 0x10
  | .bonDenorm => 0x11
  | .taNew => 0x20
  | .taLoad => 0x21
  | .taValid => 0x22
  | .taX6 => 0x23
  | .taEnc => 0x24
  | .taEncp => 0x25
  | .wcaNew => 0x30
  | .wcaLoad => 0x31
  | .wcaFlush => 0x32
  | .w2New => 0x40
  | .w2Load => 0x41
  | .b64Run => 0x50

theorem opcodeOf_eq_some_iff (b : BitVec 8) (op : Opcode) : opcodeOf b = some op ↔ b = op.byte := by
  constructor
  · intro h
    unfold opcodeOf at h
    split at h <;> cases h <;> rfl
  · rintro rfl
    cases op <;> rfl

/-- The bits a row fixes: the opcode, the reserved field, and each field the command does not use. -/
def Opcode.mask (op : Opcode) : CommandWord :=
  BitVec.allOnes 8 ++ (bif usesWidth op then 0#4 else BitVec.allOnes 4) ++ BitVec.allOnes 2 ++
    (bif usesSmall op then 0#2 else BitVec.allOnes 2)

/-- The columns `match` and `mask` of R72. -/
def Opcode.row (op : Opcode) : CommandWord × CommandWord := (commandWord op.byte 0 0, op.mask)

theorem rows_eq_map_row : Claims.rows =
    [Opcode.bonNorm, .bonDenorm, .taNew, .taLoad, .taValid, .taX6, .taEnc, .taEncp, .wcaNew, .wcaLoad,
      .wcaFlush, .w2New, .w2Load, .b64Run].map Opcode.row := by
  decide

theorem mem_rows_iff (row : CommandWord × CommandWord) :
    row ∈ Claims.rows ↔ ∃ op : Opcode, row = op.row := by
  rw [rows_eq_map_row, List.mem_map]
  constructor
  · rintro ⟨op, -, rfl⟩
    exact ⟨op, rfl⟩
  · rintro ⟨op, rfl⟩
    exact ⟨op, by cases op <;> decide, rfl⟩

/-! ### A word by its fields (R70) -/

theorem word_eq_iff (x y : CommandWord) : x = y ↔ cwOpcode x = cwOpcode y ∧
    cwReserved x = cwReserved y ∧ cwWidth x = cwWidth y ∧ cwSmall x = cwSmall y := by
  constructor
  · rintro rfl
    exact ⟨rfl, rfl, rfl, rfl⟩
  · rintro ⟨ho, hr, hw, hk⟩
    rw [word_eq_fields x, word_eq_fields y, ho, hr, hw, hk]

@[simp] theorem cwOpcode_and_mask (cw : CommandWord) (op : Opcode) :
    cwOpcode (cw &&& op.mask) = cwOpcode cw := by
  have h : cwOpcode op.mask = BitVec.allOnes 8 := by cases op <;> rfl
  rw [cwOpcode, BitVec.extractLsb'_and, ← cwOpcode, ← cwOpcode, h, BitVec.and_allOnes]

@[simp] theorem cwReserved_and_mask (cw : CommandWord) (op : Opcode) :
    cwReserved (cw &&& op.mask) = cwReserved cw := by
  have h : cwReserved op.mask = BitVec.allOnes 2 := by cases op <;> rfl
  rw [cwReserved, BitVec.extractLsb'_and, ← cwReserved, ← cwReserved, h, BitVec.and_allOnes]

@[simp] theorem cwWidth_and_mask (cw : CommandWord) (op : Opcode) :
    cwWidth (cw &&& op.mask) = bif usesWidth op then 0 else cwWidth cw := by
  have h : cwWidth op.mask = bif usesWidth op then 0 else BitVec.allOnes 4 := by cases op <;> rfl
  rw [cwWidth, BitVec.extractLsb'_and, ← cwWidth, ← cwWidth, h]
  cases usesWidth op
  · exact BitVec.and_allOnes
  · exact BitVec.and_zero

@[simp] theorem cwSmall_and_mask (cw : CommandWord) (op : Opcode) :
    cwSmall (cw &&& op.mask) = bif usesSmall op then 0 else cwSmall cw := by
  have h : cwSmall op.mask = bif usesSmall op then 0 else BitVec.allOnes 2 := by cases op <;> rfl
  rw [cwSmall, BitVec.extractLsb'_and, ← cwSmall, ← cwSmall, h]
  cases usesSmall op
  · exact BitVec.and_allOnes
  · exact BitVec.and_zero

theorem cond_zero_eq_zero_iff {n : Nat} (b : Bool) (x : BitVec n) :
    (bif b then 0 else x) = 0 ↔ (b = false → x = 0) := by
  cases b <;> simp

theorem selects_row_iff (cw : CommandWord) (op : Opcode) : Claims.Selects cw op.row ↔
    opcodeOf (cwOpcode cw) = some op ∧ cwReserved cw = 0 ∧
      (usesWidth op = false → cwWidth cw = 0) ∧ (usesSmall op = false → cwSmall cw = 0) := by
  rw [Claims.Selects, Opcode.row, word_eq_iff, opcodeOf_eq_some_iff]
  simp only [cwOpcode_and_mask, cwReserved_and_mask, cwWidth_and_mask, cwSmall_and_mask,
    cwOpcode_commandWord, cwReserved_commandWord, cwWidth_commandWord, cwSmall_commandWord,
    cond_zero_eq_zero_iff]

/-- A word decodes by the row it selects. -/
theorem decode_eq_ok_iff_selects (p : Params) (c : Command) (i : Instr) :
    decode p c = .ok i ↔ ∃ op : Opcode, Claims.Selects c.cw op.row ∧ i = instrOf p c op := by
  simp only [decode_eq_ok_iff, selects_row_iff, and_assoc]

theorem decode_ok_iff_selects (p : Params) (c : Command) :
    (∃ i, decode p c = .ok i) ↔ ∃ row ∈ Claims.rows, Claims.Selects c.cw row := by
  simp only [decode_eq_ok_iff_selects, mem_rows_iff]
  constructor
  · rintro ⟨-, op, hop, -⟩
    exact ⟨_, ⟨op, rfl⟩, hop⟩
  · rintro ⟨-, ⟨op, rfl⟩, hop⟩
    exact ⟨_, op, hop, rfl⟩

/-- The opcode field alone tells the rows apart. -/
theorem opcode_unique_of_selects {cw : CommandWord} {op op' : Opcode}
    (h : Claims.Selects cw op.row) (h' : Claims.Selects cw op'.row) : op = op' := by
  obtain ⟨hop, -⟩ := (selects_row_iff cw op).1 h
  obtain ⟨hop', -⟩ := (selects_row_iff cw op').1 h'
  exact Option.some.inj (hop.symm.trans hop')

/-! ### An instruction's row and the fields of its word (R79) -/

/-- The row of an instruction. -/
def Instr.opcode : Instr → Opcode
  | .bonNorm .. => .bonNorm
  | .bonDenorm .. => .bonDenorm
  | .taNew => .taNew
  | .taLoad .. => .taLoad
  | .taValid _ => .taValid
  | .taX6 _ => .taX6
  | .taEnc _ => .taEnc
  | .taEncp _ => .taEncp
  | .wcaNew _ => .wcaNew
  | .wcaLoad _ => .wcaLoad
  | .wcaFlush => .wcaFlush
  | .w2New => .w2New
  | .w2Load .. => .w2Load
  | .b64Run .. => .b64Run

/-- The field `w` of an instruction's word, 0 where the row does not use it. -/
def Instr.widthField : Instr → BitVec 4
  | .bonNorm w _ | .bonDenorm w _ | .wcaNew w | .b64Run w _ _ => w
  | _ => 0

/-- The field `k` of an instruction's word, 0 where the row does not use it. -/
def Instr.smallField : Instr → BitVec 2
  | .taLoad k _ | .taValid k | .taX6 k | .taEnc k | .taEncp k | .w2Load k _ => k
  | _ => 0

theorem encode_cw (i : Instr) :
    (encode i).cw = commandWord i.opcode.byte i.widthField i.smallField := by
  cases i <;> rfl

theorem Instr.widthField_eq_zero (i : Instr) (h : usesWidth i.opcode = false) : i.widthField = 0 := by
  cases i with
  | bonNorm | bonDenorm | wcaNew | b64Run => cases h
  | _ => rfl

theorem Instr.smallField_eq_zero (i : Instr) (h : usesSmall i.opcode = false) : i.smallField = 0 := by
  cases i with
  | taLoad | taValid | taX6 | taEnc | taEncp | w2Load => cases h
  | _ => rfl

theorem encode_selects_row (i : Instr) : Claims.Selects (encode i).cw i.opcode.row := by
  rw [selects_row_iff, opcodeOf_eq_some_iff, encode_cw, cwOpcode_commandWord, cwReserved_commandWord,
    cwWidth_commandWord, cwSmall_commandWord]
  exact ⟨rfl, rfl, i.widthField_eq_zero, i.smallField_eq_zero⟩

/-- Operands that fit their signals are read back as they were driven (R43). -/
theorem instrOf_encode {p : Params} {i : Instr} (h : i.wellFormed p = true) :
    instrOf p (encode i) i.opcode = i := by
  cases i with
  | b64Run w opa opc =>
    simp only [Instr.wellFormed, Bool.and_eq_true, decide_eq_true_iff] at h
    obtain ⟨ha, hc⟩ := h
    simp [instrOf, encode, Instr.opcode, opaSignal, opcSignal, Nat.mod_eq_of_lt ha,
      Nat.mod_eq_of_lt hc]
  | _ => simp [instrOf, encode, Instr.opcode]

@[simp] theorem instrOf_opcode (p : Params) (c : Command) (op : Opcode) :
    (instrOf p c op).opcode = op := by
  cases op <;> rfl

theorem instrOf_widthField {p : Params} {c : Command} {op : Opcode}
    (h : usesWidth op = false → cwWidth c.cw = 0) : (instrOf p c op).widthField = cwWidth c.cw := by
  cases hw : usesWidth op
  · rw [h hw]
    exact Instr.widthField_eq_zero _ (by rwa [instrOf_opcode])
  · cases op with
    | bonNorm | bonDenorm | wcaNew | b64Run => rfl
    | _ => cases hw

theorem instrOf_smallField {p : Params} {c : Command} {op : Opcode}
    (h : usesSmall op = false → cwSmall c.cw = 0) : (instrOf p c op).smallField = cwSmall c.cw := by
  cases hk : usesSmall op
  · rw [h hk]
    exact Instr.smallField_eq_zero _ (by rwa [instrOf_opcode])
  · cases op with
    | taLoad | taValid | taX6 | taEnc | taEncp | w2Load => rfl
    | _ => cases hk

theorem encode_instrOf_cw {p : Params} {c : Command} {op : Opcode} (h : Claims.Selects c.cw op.row) :
    (encode (instrOf p c op)).cw = c.cw := by
  obtain ⟨hop, hr, hw, hk⟩ := (selects_row_iff c.cw op).1 h
  rw [encode_cw, instrOf_opcode, instrOf_widthField hw, instrOf_smallField hk, word_eq_iff,
    cwOpcode_commandWord, cwReserved_commandWord, cwWidth_commandWord, cwSmall_commandWord]
  exact ⟨((opcodeOf_eq_some_iff _ op).1 hop).symm, hr.symm, rfl, rfl⟩

/-! ### Decoding and encoding are inverse -/

/-- Settles O8: the word the encoder writes selects the instruction's row, and the row's operands are
read back from it. -/
theorem decodeEncodeRoundTrip : Obligations.DecodeEncodeRoundTrip := by
  intro p i hi
  exact (decode_eq_ok_iff_selects p (encode i) i).2
    ⟨i.opcode, encode_selects_row i, (instrOf_encode hi).symm⟩

/-- Settles O9: a row fixes the opcode, the reserved field and the fields its command does not use, which
is what the decoder checks; and no two rows have one opcode. -/
theorem decodeAcceptsExactlyTheRows : Obligations.DecodeAcceptsExactlyTheRows := by
  refine ⟨decode_ok_iff_selects, fun cw r₁ hr₁ r₂ hr₂ h₁ h₂ => ?_⟩
  obtain ⟨op₁, rfl⟩ := (mem_rows_iff r₁).1 hr₁
  obtain ⟨op₂, rfl⟩ := (mem_rows_iff r₂).1 hr₂
  rw [opcode_unique_of_selects h₁ h₂]

/-- Settles O10: the encoder writes the opcode and the two fields the decoder has read, and the fields it
has not read are 0. -/
theorem decodedWordReencodes : Obligations.DecodedWordReencodes := by
  intro p c i h
  refine ⟨?_, Machine.wellFormed_of_decode h⟩
  obtain ⟨op, hop, rfl⟩ := (decode_eq_ok_iff_selects p c i).1 h
  exact encode_instrOf_cw hop

/-- Settles O11: each written word, with its operands, is what the encoder presents for its command. -/
theorem writtenWordsDecode : Obligations.WrittenWordsDecode := by
  have h := decodeEncodeRoundTrip Params.standard
  exact ⟨h (.bonNorm 4 0xFFFFF9) rfl, h (.bonDenorm 2 0xFFF9) rfl, h (.taLoad 2 0x020300) rfl,
    h (.taEncp 3) rfl, h (.wcaNew 8) rfl, h (.w2Load 2 0x6E204D61) rfl,
    h (.b64Run 8 0x2000 1) (by decide)⟩

end Sys2Proof
end

section
/-! PROOFS. A word that selects no row raises `ILLEGAL` (30_encoding.md R77). -/

namespace Sys2Proof.Machine

theorem mem_opcodes_iff (b : BitVec 8) :
    b ∈ Claims.widthOpcodes ++ Claims.smallOpcodes ++ Claims.plainOpcodes ↔
      ∃ op, opcodeOf b = some op := by
  have hknown : ∀ x ∈ Claims.widthOpcodes ++ Claims.smallOpcodes ++ Claims.plainOpcodes,
      (opcodeOf x).isSome := by
    decide
  constructor
  · exact fun h => Option.isSome_iff_exists.1 (hknown b h)
  · rintro ⟨op, hop⟩
    obtain rfl := (opcodeOf_eq_some_iff b op).1 hop
    cases op <;> decide

theorem byte_mem_widthless_iff (op : Opcode) :
    op.byte ∈ Claims.smallOpcodes ++ Claims.plainOpcodes ↔ usesWidth op = false := by
  cases op <;> decide

theorem byte_mem_smallless_iff (op : Opcode) :
    op.byte ∈ Claims.widthOpcodes ++ Claims.plainOpcodes ↔ usesSmall op = false := by
  cases op <;> decide

/-- A word can select no row but its opcode's. -/
theorem selects_no_row_iff_of_opcode {cw : CommandWord} {op : Opcode}
    (h : opcodeOf (cwOpcode cw) = some op) :
    (∀ row ∈ Claims.rows, ¬ Claims.Selects cw row) ↔ ¬ Claims.Selects cw op.row := by
  constructor
  · exact fun hno => hno op.row ((mem_rows_iff _).2 ⟨op, rfl⟩)
  · intro hno row hrow hsel
    obtain ⟨op', rfl⟩ := (mem_rows_iff row).1 hrow
    obtain ⟨hop', -⟩ := (selects_row_iff cw op').1 hsel
    obtain rfl : op' = op := Option.some.inj (hop'.symm.trans h)
    exact hno hsel

/-- What the row of a known opcode can reject: R77 (b), (c), (d). -/
theorem not_selects_row_iff {cw : CommandWord} {op : Opcode} (h : opcodeOf (cwOpcode cw) = some op) :
    ¬ Claims.Selects cw op.row ↔
      cwReserved cw ≠ 0 ∨
      (cwOpcode cw ∈ Claims.smallOpcodes ++ Claims.plainOpcodes ∧ cwWidth cw ≠ 0) ∨
      (cwOpcode cw ∈ Claims.widthOpcodes ++ Claims.plainOpcodes ∧ cwSmall cw ≠ 0) := by
  rw [selects_row_iff, (opcodeOf_eq_some_iff _ op).1 h, byte_mem_widthless_iff, byte_mem_smallless_iff,
    opcodeOf_eq_some_iff]
  tauto

/-- The four cases of R77. -/
theorem selects_no_row_iff (cw : CommandWord) :
    (∀ row ∈ Claims.rows, ¬ Claims.Selects cw row) ↔
      cwOpcode cw ∉ Claims.widthOpcodes ++ Claims.smallOpcodes ++ Claims.plainOpcodes ∨
      cwReserved cw ≠ 0 ∨
      (cwOpcode cw ∈ Claims.smallOpcodes ++ Claims.plainOpcodes ∧ cwWidth cw ≠ 0) ∨
      (cwOpcode cw ∈ Claims.widthOpcodes ++ Claims.plainOpcodes ∧ cwSmall cw ≠ 0) := by
  rw [mem_opcodes_iff]
  by_cases hknown : ∃ op, opcodeOf (cwOpcode cw) = some op
  · rw [or_iff_right (not_not.2 hknown)]
    obtain ⟨op, hop⟩ := hknown
    rw [selects_no_row_iff_of_opcode hop, not_selects_row_iff hop]
  · refine iff_of_true (fun row hrow hsel => hknown ?_) (.inl hknown)
    obtain ⟨op, rfl⟩ := (mem_rows_iff row).1 hrow
    exact ⟨op, ((selects_row_iff cw op).1 hsel).1⟩

theorem step_of_selects_no_row {s : State} {c : Command} {rest : List HostEvent} (hf : s.Running)
    (hs : s.pending = .command c :: rest)
    (hno : ∀ row ∈ Claims.rows, ¬ Claims.Selects c.cw row) :
    step s = .next (raiseFault (s.setPending rest) .illegal) := by
  rw [step_command hs]
  cases hd : decode (s.setPending rest).params c with
  | ok i =>
    obtain ⟨row, hrow, hsel⟩ := (decode_ok_iff_selects _ c).1 ⟨i, hd⟩
    exact absurd hsel (hno row hrow)
  | error e => exact (runCommand_of_decode_error hd).trans (perform_error _ _ hf)

/-- Settles O12: a word that selects no row does not decode, so the step raises `ILLEGAL`; and of a known
opcode only the reserved field and the fields its row does not use can be wrong. -/
theorem illegalWordFaults : Obligations.IllegalWordFaults :=
  ⟨fun _ _ _ hf hs hno => step_of_selects_no_row hf hs hno, selects_no_row_iff⟩

end Sys2Proof.Machine
end

section
/-! PROOFS. Operand bits that no layout lists (30_encoding.md R76, R202): a command sees the part of `OPD`
its layout lists, and the decoder the operand signals its row uses. -/

namespace Sys2Proof.Machine

/-- The two layouts of BON are one: byte `k` of BON.DENORM's sequence is byte `k` of the bus value. -/
theorem opdBytes_eq_bon (opd : DataWord) (w : Nat) : opdBytes opd w = bon opd.toNat w := rfl

theorem opdBytes_congr {opd opd' : DataWord} {w : Nat} (h : opdElement opd w = opdElement opd' w) :
    opdBytes opd w = opdBytes opd' w := by
  rw [opdBytes_eq_bon, opdBytes_eq_bon, bon_congr _ _ _ h]

theorem exec_bonNorm_congr {opd opd' : DataWord} {w : BitVec 4}
    (h : opdElement opd w.toNat = opdElement opd' w.toNat) (s : State) :
    exec (.bonNorm w opd) s = exec (.bonNorm w opd') s := by
  rw [exec_eq_perform, exec_eq_perform, effectOf, effectOf, h]

theorem exec_bonDenorm_congr {opd opd' : DataWord} {w : BitVec 4}
    (h : opdElement opd w.toNat = opdElement opd' w.toNat) (s : State) :
    exec (.bonDenorm w opd) s = exec (.bonDenorm w opd') s := by
  rw [exec_eq_perform, exec_eq_perform, effectOf, effectOf, opdBytes_congr h]

theorem opdWindow_length (opd : DataWord) : (opdWindow opd).length = 3 := rfl

theorem opdWindow_getElem (opd : DataWord) (k : Nat) (h : k < (opdWindow opd).length) :
    (opdWindow opd)[k] = opd.extractLsb' (16 - 8 * k) 8 := by
  match k, h with
  | 0, _ | 1, _ | 2, _ => rfl

theorem opdWindow_take_congr {opd opd' : DataWord} {n : Nat}
    (h : ∀ k, k < n → opd.extractLsb' (16 - 8 * k) 8 = opd'.extractLsb' (16 - 8 * k) 8) :
    (opdWindow opd).take n = (opdWindow opd').take n := by
  refine List.ext_getElem (by simp [opdWindow_length]) fun k hk _ => ?_
  rw [List.getElem_take, List.getElem_take, opdWindow_getElem, opdWindow_getElem]
  exact h k (by rw [List.length_take] at hk; omega)

theorem exec_taLoad_congr {opd opd' : DataWord} {n : BitVec 2}
    (h : (opdWindow opd).take n.toNat = (opdWindow opd').take n.toNat) (s : State) :
    exec (.taLoad n opd) s = exec (.taLoad n opd') s := by
  rw [exec_eq_perform, exec_eq_perform, effectOf, effectOf, taLoad, taLoad, h]

theorem exec_wcaLoad_congr {s : State} {opd opd' : DataWord}
    (h : opdElement opd s.wca.wsel.toNat = opdElement opd' s.wca.wsel.toNat) :
    exec (.wcaLoad opd) s = exec (.wcaLoad opd') s := by
  rw [exec_eq_perform, exec_eq_perform, effectOf, effectOf, h]

/-- The cases of R141 by what they take: `E0` unless `c = 0`, `E1` in case B only. -/
theorem w2Load_operands_congr {u : W2} {c : BitVec 2} {e0 e1 e0' e1' : BitVec 16}
    (h0 : c ≠ 0 → e0 = e0') (h1 : c = 2 → u.has = false → e1 = e1') :
    w2Load u c e0 e1 = w2Load u c e0' e1' := by
  by_cases hc : c = 0
  · subst hc
    cases hu : u.has <;> simp [w2Load, hu]
  obtain rfl := h0 hc
  by_cases hc2 : c = 2
  · subst hc2
    cases hu : u.has
    · rw [h1 rfl hu]
    · simp [w2Load, hu]
  · simp only [w2Load, if_neg hc2]

theorem exec_w2Load_congr {s : State} {c : BitVec 2} {opd opd' : DataWord}
    (h0 : c ≠ 0 → opdE0 opd = opdE0 opd')
    (h1 : c = 2 → s.w2.has = false → opdE1 opd = opdE1 opd') :
    exec (.w2Load c opd) s = exec (.w2Load c opd') s := by
  rw [exec_eq_perform, exec_eq_perform, effectOf, effectOf, w2Load_operands_congr h0 h1]

/-- The row is the word's; what is left to agree on is the instruction read in that row. -/
theorem decode_congr {p : Params} {c c' : Command} {i : Instr} (hcw : c.cw = c'.cw)
    (h : decode p c = .ok i) (hop : ∀ op, i = instrOf p c op → instrOf p c op = instrOf p c' op) :
    decode p c' = .ok i := by
  obtain ⟨op, hsel, hi⟩ := (decode_eq_ok_iff_selects p c i).1 h
  exact (decode_eq_ok_iff_selects p c' i).2 ⟨op, hcw ▸ hsel, hi.trans (hop op hi)⟩

/-- Settles O54: BON and WCA.LOAD see `OPD` through its element, TA.LOAD through the bytes it takes,
W2.LOAD through the elements its case of R141 takes; and a row reads the word's fields and the operand
signals of its instruction. -/
theorem unlistedOperandBitsIgnored : Obligations.UnlistedOperandBitsIgnored := by
  intro s opd opd'
  refine ⟨fun w h => ⟨exec_bonNorm_congr h s, exec_bonDenorm_congr h s⟩,
    fun n h => exec_taLoad_congr (opdWindow_take_congr h) s, exec_wcaLoad_congr,
    fun c h0 h1 => exec_w2Load_congr h0 h1, fun p c c' i hcw hd hsig => ?_⟩
  refine decode_congr hcw hd fun op hi => ?_
  subst hi
  cases op with
  | bonNorm | bonDenorm | taLoad | wcaLoad | w2Load =>
    have hopd : c.opd = c'.opd := hsig
    simp only [instrOf, hcw, hopd]
  | b64Run =>
    obtain ⟨ha, hc⟩ : c.opa = c'.opa ∧ c.opc = c'.opc := hsig
    simp only [instrOf, opaSignal, opcSignal, hcw, ha, hc]
  | _ => simp only [instrOf, hcw]

end Sys2Proof.Machine
end

section
/-! PROOFS. The words R79 writes and the words R77 rejects, for every row of the opcode map at once
(30_encoding.md R72, R77, R79). -/

namespace Sys2Proof.Machine

/-- Words are joined field by field. -/
theorem commandWord_or (op op' : BitVec 8) (w w' : BitVec 4) (k k' : BitVec 2) :
    commandWord op w k ||| commandWord op' w' k' =
      commandWord (op ||| op') (w ||| w') (k ||| k') := by
  rw [commandWord, commandWord, BitVec.or_append, BitVec.or_append, BitVec.or_append, BitVec.or_zero,
    commandWord]

/-- R79 puts `w<<4` and the small operand into the row's `match`, whose bits there are 0. -/
theorem word_match_eq_commandWord (op : Opcode) (w : BitVec 4) (k : BitVec 2) :
    Claims.word op.row.1 w k = commandWord op.byte w k := by
  have hw : w.setWidth 16 <<< 4 = commandWord 0 w 0 := by revert w; decide
  have hk : k.setWidth 16 = commandWord 0 0 k := by revert k; decide
  rw [Claims.word, Opcode.row, hw, hk, commandWord_or, commandWord_or]
  simp

/-- A written word selects its row, whatever the operand signals carry. -/
theorem decode_word (p : Params) (op : Opcode) {w : BitVec 4} {k : BitVec 2}
    (hw : usesWidth op = false → w = 0) (hk : usesSmall op = false → k = 0) (opd : DataWord)
    (opa opc : Nat) : decode p ⟨Claims.word op.row.1 w k, opd, opa, opc⟩ =
      .ok (instrOf p ⟨commandWord op.byte w k, opd, opa, opc⟩ op) := by
  rw [word_match_eq_commandWord, decode_eq_ok_iff_selects]
  refine ⟨op, (selects_row_iff _ op).2 ?_, rfl⟩
  rw [opcodeOf_eq_some_iff, cwOpcode_commandWord, cwReserved_commandWord, cwWidth_commandWord,
    cwSmall_commandWord]
  exact ⟨rfl, rfl, hw, hk⟩

/-- A word of a known opcode that is wrong in a field its row fixes raises `ILLEGAL`. -/
theorem illegalWhen_of_not_selects (op : Opcode) {bad : CommandWord → Prop}
    (h : ∀ cw, bad cw → ¬ Claims.Selects cw op.row) : Claims.IllegalWhen op.byte bad := by
  intro c s rest hs hpending hop hbad
  have hrow : opcodeOf (cwOpcode c.cw) = some op := (opcodeOf_eq_some_iff _ op).2 hop
  exact step_of_selects_no_row hs hpending ((selects_no_row_iff_of_opcode hrow).2 (h c.cw hbad))

/-- The rows that use `w` and not `k` fix the reserved field and the small operand. -/
theorem illegalWhen_small_or_reserved (op : Opcode) (hk : usesSmall op = false) :
    Claims.IllegalWhen op.byte fun cw => cwSmall cw ≠ 0 ∨ cwReserved cw ≠ 0 := by
  refine illegalWhen_of_not_selects op fun cw hbad hsel => ?_
  obtain ⟨-, hreserved, -, hsmall⟩ := (selects_row_iff cw op).1 hsel
  exact hbad.elim (fun h => h (hsmall hk)) (fun h => h hreserved)

end Sys2Proof.Machine
end

section
/-! PROOFS. The byte order normalizer (40_byte_order_normalizer.md R90 to R95). -/

namespace Sys2Proof.Machine

/-! ### BON and DEN on numbers and byte sequences (R90, R93) -/

theorem bon_getElem (v W k : Nat) (h : k < (bon v W).length) : (bon v W)[k] = byteOf v W k := by
  simp [bon]

/-- One byte is its own normal form (R93 (a)). -/
theorem bon_one (v : Nat) : bon v 1 = [BitVec.ofNat 8 v] := by
  rw [bon_succ, bon_zero, Nat.mul_zero, Nat.shiftRight_zero]

/-- Settles O19: `BON` lists the digits of its value in base 256, and `DEN` puts them together again. -/
theorem bonIsBijective : Obligations.BonIsBijective := by
  refine ⟨fun v W => ⟨bon_length v W, fun k hk => ?_⟩, den_bon, fun b => ⟨den_lt b, bon_den b⟩,
    fun v _ => bon_one v, by decide⟩
  rw [bon_getElem, byteOf_toNat]

/-! ### The two commands by their width (R91, R92) -/

/-- The bus form of the normalized value is the value itself (R95). -/
theorem busOf_bon_opdElement (opd : DataWord) (w : Nat) :
    busOf (bon (opdElement opd w) w) = BitVec.ofNat 64 (opdElement opd w) := by
  rw [busOf, den_bon]
  exact Nat.mod_lt _ (Nat.two_pow_pos _)

/-- The bytes BON.DENORM takes are the normalized bytes of the same value (R95). -/
theorem den_opdBytes (opd : DataWord) (w : Nat) : den (opdBytes opd w) = opdElement opd w := by
  rw [opdBytes_eq_bon, den_bon_mod, opdElement]

/-- An element put on the bus is read from it again. -/
theorem opdElement_ofNat_opdElement (opd : DataWord) (w : Nat) :
    opdElement (BitVec.ofNat 64 (opdElement opd w)) w = opdElement opd w := by
  have hlt : opdElement opd w < 2 ^ 64 := (Nat.mod_le _ _).trans_lt opd.isLt
  rw [opdElement, BitVec.toNat_ofNat, Nat.mod_eq_of_lt hlt, opdElement, Nat.mod_mod]

/-- The later response replaces the earlier one. -/
theorem answered_answered (s : State) (v v' : DataWord) :
    Claims.answered (Claims.answered s v) v' = Claims.answered s v' := rfl

section
variable {s : State} {w : BitVec 4} (hs : s.Running) (opd : DataWord)
include hs

theorem exec_bonNorm_of_legal (hw : w ∈ [1#4, 2#4, 4#4, 8#4]) : exec (.bonNorm w opd) s =
    .next (Claims.answered s (busOf (bon (opdElement opd w.toNat) w.toNat))) := by
  rw [exec_eq_perform, effectOf, if_pos ((legalWidth_iff w).2 hw)]
  exact perform_ok s s _ hs

theorem exec_bonDenorm_of_legal (hw : w ∈ [1#4, 2#4, 4#4, 8#4]) : exec (.bonDenorm w opd) s =
    .next (Claims.answered s (BitVec.ofNat 64 (den (opdBytes opd w.toNat)))) := by
  rw [exec_eq_perform, effectOf, if_pos ((legalWidth_iff w).2 hw)]
  exact perform_ok s s _ hs

theorem exec_bonNorm_of_illegal (hw : w ∉ [1#4, 2#4, 4#4, 8#4]) :
    exec (.bonNorm w opd) s = .next (Claims.faultedState s 2) := by
  rw [exec_eq_perform, effectOf, if_neg (mt (legalWidth_iff w).1 hw)]
  exact perform_error s .width hs

theorem exec_bonDenorm_of_illegal (hw : w ∉ [1#4, 2#4, 4#4, 8#4]) :
    exec (.bonDenorm w opd) s = .next (Claims.faultedState s 2) := by
  rw [exec_eq_perform, effectOf, if_neg (mt (legalWidth_iff w).1 hw)]
  exact perform_error s .width hs

end

/-- Settles O22: for both commands the bytes are put together in the order in which they were cut. -/
theorem bonMovesNoBit : Obligations.BonMovesNoBit := by
  intro s w opd hs hw
  rw [exec_bonNorm_of_legal hs opd hw, exec_bonDenorm_of_legal hs opd hw, busOf_bon_opdElement,
    den_opdBytes, opdElement]
  exact ⟨rfl, rfl⟩

/-- Settles O20: the result is `DEN` of the normalized bytes, as a sum; a width outside the four raises
`WIDTH` before anything is written. -/
theorem bonNormResult : Obligations.BonNormResult := by
  refine ⟨fun s w opd hs hw => ?_, fun s w opd hs hw => exec_bonNorm_of_illegal hs opd hw,
    fun p w opd opa opc => ?_, illegalWhen_small_or_reserved .bonNorm rfl⟩
  · rw [exec_bonNorm_of_legal hs opd hw, busOf, bon, den_map_range, opdElement]
  · have hdecode := decode_word p .bonNorm (w := w) (k := 0) nofun (fun _ => rfl) opd opa opc
    rwa [instrOf, cwWidth_commandWord] at hdecode

/-- Settles O21: the result is `DEN` of the operand's bytes, as a sum; and BON.DENORM sees of the answer
of BON.NORM the element it saw of the operand. -/
theorem bonDenormResult : Obligations.BonDenormResult := by
  refine ⟨fun s w opd hs hw => ?_, fun s w opd hs hw => exec_bonDenorm_of_illegal hs opd hw,
    fun s w opd hs hw => ?_, fun p w opd opa opc => ?_,
    illegalWhen_small_or_reserved .bonDenorm rfl⟩
  · rw [exec_bonDenorm_of_legal hs opd hw, opdBytes, den_map_range]
    rfl
  · obtain ⟨hnorm, -⟩ := bonMovesNoBit s w opd hs hw
    have hrun : (Claims.answered s (BitVec.ofNat 64 (opdElement opd w.toNat))).Running := hs
    obtain ⟨-, hdenorm⟩ := bonMovesNoBit _ w (BitVec.ofNat 64 (opdElement opd w.toNat)) hrun hw
    rw [← opdElement, opdElement_ofNat_opdElement, answered_answered] at hdenorm
    exact ⟨_, hnorm, hdenorm⟩
  · have hdecode := decode_word p .bonDenorm (w := w) (k := 0) nofun (fun _ => rfl) opd opa opc
    rwa [instrOf, cwWidth_commandWord] at hdecode

end Sys2Proof.Machine
end

section
/-! PROOFS. The triplet unit (41_triplet_unit.md R100 to R111). -/

namespace Sys2Proof.Machine

/-! ### The words of the rows that do not use `w` (R72, R77, R79) -/

/-- A written word of a row that uses `k` alone decodes to the row's instruction with that `k`. -/
theorem decode_small_word (p : Params) (op : Opcode) (hk : usesSmall op = true)
    (k : BitVec 2) (opd : DataWord) (opa opc : Nat) {i : Instr}
    (hi : ∀ c : Command, cwSmall c.cw = k → c.opd = opd → instrOf p c op = i) :
    decode p ⟨Claims.word op.row.1 0 k, opd, opa, opc⟩ = .ok i := by
  rw [decode_word p op (fun _ => rfl) (fun h => Bool.noConfusion (hk.symm.trans h)) opd opa opc,
    hi _ (cwSmall_commandWord ..) rfl]

/-- The rows that use `k` and not `w` fix the width and the reserved field. -/
theorem illegalWhen_width_or_reserved (op : Opcode) (hw : usesWidth op = false) :
    Claims.IllegalWhen op.byte fun cw => cwWidth cw ≠ 0 ∨ cwReserved cw ≠ 0 := by
  refine illegalWhen_of_not_selects op fun cw hbad hsel => ?_
  obtain ⟨-, hreserved, hwidth, -⟩ := (selects_row_iff cw op).1 hsel
  exact hbad.elim (fun h => h (hwidth hw)) (fun h => h hreserved)

/-- The rows that use neither field fix all three. -/
theorem illegalWhen_any_field (op : Opcode) (hw : usesWidth op = false)
    (hk : usesSmall op = false) :
    Claims.IllegalWhen op.byte fun cw => cwWidth cw ≠ 0 ∨ cwReserved cw ≠ 0 ∨ cwSmall cw ≠ 0 := by
  refine illegalWhen_of_not_selects op fun cw hbad hsel => ?_
  obtain ⟨-, hreserved, hwidth, hsmall⟩ := (selects_row_iff cw op).1 hsel
  rcases hbad with h | h | h
  · exact h (hwidth hw)
  · exact h hreserved
  · exact h (hsmall hk)

/-! ### A command that answers a scalar (R42) -/

theorem exec_of_answers {i : Instr} {s t : State} {v : DataWord} (hs : s.Running)
    (h : effectOf i s = .ok (t, Response.scalar v)) : exec i s = .next (Claims.answered t v) := by
  rw [exec_eq_perform, h]
  exact perform_ok s t _ hs

section
variable {s : State} (hs : s.Running)
include hs

theorem exec_taNew : exec .taNew s = .next (Claims.answered (s.setTa TA.fresh) 0) :=
  exec_of_answers hs rfl

theorem exec_taLoad (n : BitVec 2) (opd : DataWord) :
    exec (.taLoad n opd) s = .next (Claims.answered (s.setTa (taLoad n (opdWindow opd))) 0) :=
  exec_of_answers hs rfl

theorem exec_taValid (i : BitVec 2) :
    exec (.taValid i) s = .next (Claims.answered s (if byteValid s.ta i then 1 else 0)) :=
  exec_of_answers hs rfl

theorem exec_taX6 (g : BitVec 2) :
    exec (.taX6 g) s = .next (Claims.answered s ((six s.ta.data g).setWidth 64)) :=
  exec_of_answers hs rfl

theorem exec_taEnc (g : BitVec 2) :
    exec (.taEnc g) s = .next (Claims.answered s ((taEnc s.ta g).setWidth 64)) :=
  exec_of_answers hs rfl

theorem exec_taEncp (g : BitVec 2) :
    exec (.taEncp g) s = .next (Claims.answered s ((taEncp s.ta g).setWidth 64)) :=
  exec_of_answers hs rfl

end

/-! ### The fields of a triplet (R104) -/

theorem six_eq_extractLsb' (d : Triplet) (g : BitVec 2) :
    six d g = d.extractLsb' (18 - 6 * g.toNat) 6 := by
  apply BitVec.eq_of_toNat_eq
  rw [six_toNat, BitVec.extractLsb'_toNat, Nat.shiftRight_eq_div_pow]

/-- The fields stand side by side and cover all 24 bits. -/
theorem append_six (d : Triplet) : six d 0 ++ six d 1 ++ six d 2 ++ six d 3 = d := by
  have h01 : six d 0 ++ six d 1 = d.extractLsb' 12 12 := by
    rw [six_eq_extractLsb', six_eq_extractLsb']
    exact BitVec.extractLsb'_append_extractLsb'_eq_extractLsb' rfl
  have h012 : six d 0 ++ six d 1 ++ six d 2 = d.extractLsb' 6 18 := by
    rw [h01, six_eq_extractLsb']
    exact BitVec.extractLsb'_append_extractLsb'_eq_extractLsb' rfl
  rw [h012, six_eq_extractLsb']
  exact BitVec.extractLsb'_append_extractLsb'

/-- Settles O27: a field is a cut of six bits; three bytes side by side are their `pack3`, whose fields in
bytes are known; and four adjacent cuts put together are the triplet. -/
theorem fieldsPartitionTriplet : Obligations.FieldsPartitionTriplet := by
  refine ⟨fun d => ?_, fun B0 B1 B2 => ?_, fun d => ?_⟩
  · exact ⟨six_eq_extractLsb' d 0, six_eq_extractLsb' d 1, six_eq_extractLsb' d 2,
      six_eq_extractLsb' d 3⟩
  · have hpack : pack3 [B0, B1, B2] = B0 ++ B1 ++ B2 := pack3_eq_append _
    rw [← hpack]
    exact six_pack3 [B0, B1, B2]
  · calc d = (six d 0 ++ six d 1 ++ six d 2 ++ six d 3).setWidth 24 := by
          rw [append_six, BitVec.setWidth_eq]
      _ = _ := BitVec.setWidth_append_append_append_eq_shiftLeft_setWidth_or

/-- Settles O26: the answer is the field, which is a cut of six bits. -/
theorem taX6ExtractsField : Obligations.TaX6ExtractsField := by
  refine ⟨fun s g hs => ?_, fun p g opd opa opc => ?_, illegalWhen_width_or_reserved .taX6 rfl⟩
  · rw [exec_taX6 hs, six_eq_extractLsb']
  · exact decode_small_word p .taX6 rfl g opd opa opc fun _ hg _ => congrArg Instr.taX6 hg

/-! ### Loading a window (R101) -/

/-- The first `n` operand bytes, left-justified. -/
theorem pack3_take_opdWindow (n : BitVec 2) (opd : DataWord) :
    pack3 ((opdWindow opd).take n.toNat) =
      if n = 0 then 0
      else if n = 1 then opd.extractLsb' 16 8 ++ 0#16
      else if n = 2 then opd.extractLsb' 8 16 ++ 0#8
      else opd.extractLsb' 0 24 := by
  have htwo : opd.extractLsb' 16 8 ++ opd.extractLsb' 8 8 = opd.extractLsb' 8 16 :=
    BitVec.extractLsb'_append_extractLsb'_eq_extractLsb' rfl
  rw [pack3_eq_append]
  match n with
  | 0 =>
    show 0#8 ++ 0#8 ++ 0#8 = 0#24
    rw [BitVec.zero_append_zero, BitVec.zero_append_zero]
  | 1 =>
    show opd.extractLsb' 16 8 ++ 0#8 ++ 0#8 = opd.extractLsb' 16 8 ++ 0#16
    rw [BitVec.append_assoc, BitVec.zero_append_zero]
    rfl
  | 2 => exact congrArg (· ++ 0#8) htwo
  | 3 =>
    show opd.extractLsb' 16 8 ++ opd.extractLsb' 8 8 ++ opd.extractLsb' 0 8 = opd.extractLsb' 0 24
    rw [htwo]
    exact BitVec.extractLsb'_append_extractLsb'_eq_extractLsb' rfl

/-- Settles O24: the bytes TA.LOAD keeps, by `n`, are the concatenations of the statement. -/
theorem taLoadStoresWindow : Obligations.TaLoadStoresWindow := by
  refine ⟨fun s n opd hs => ?_, fun p n opd opa opc => ?_, illegalWhen_width_or_reserved .taLoad rfl⟩
  · rw [exec_taLoad hs, taLoad, pack3_take_opdWindow]
    rfl
  · exact decode_small_word p .taLoad rfl n opd opa opc
      fun _ hn hopd => congrArg₂ Instr.taLoad hn hopd

/-! ### The tests on `TA.valid` (R102, R109, R110) -/

theorem byteValid_iff (t : TA) (i : BitVec 2) : byteValid t i = true ↔ i < t.valid :=
  decide_eq_true_iff

theorem dep_toNat (g : BitVec 2) : (dep g).toNat = if g = 0 then 0 else g.toNat - 1 := by
  revert g; decide

theorem groupValid_iff_dep (t : TA) (g : BitVec 2) :
    groupValid t g = true ↔ (if g = 0 then 0 else g.toNat - 1) < t.valid.toNat := by
  rw [groupValid, byteValid, decide_eq_true_iff, dep_toNat]

/-- The table of R110 as one rule: a window of `n` bytes has data in its first `n + 1` groups, and an empty
one in none. -/
theorem groupValid_iff (t : TA) (g : BitVec 2) :
    groupValid t g = true ↔ t.valid ≠ 0 ∧ g ≤ t.valid := by
  rw [groupValid_iff_dep]
  generalize t.valid = n
  revert n g; decide

/-- Settles O25: the test is the comparison of the statement. -/
theorem taValidTestsByte : Obligations.TaValidTestsByte := by
  refine ⟨fun s i hs => ?_, fun p i opd opa opc => ?_, illegalWhen_width_or_reserved .taValid rfl⟩
  · simp only [exec_taValid hs, byteValid_iff]
  · exact decode_small_word p .taValid rfl i opd opa opc fun _ hi _ => congrArg Instr.taValid hi

/-! ### The characters (R105 to R111) -/

theorem taEnc_eq_symbol (t : TA) (g : BitVec 2) :
    taEnc t g = symbol (t.data.toNat / 2 ^ (18 - 6 * g.toNat) % 64) := by
  rw [taEnc, alphaCode_eq_symbol, six_toNat]

theorem taEncp_of_groupValid {t : TA} {g : BitVec 2} (h : groupValid t g = true) :
    taEncp t g = taEnc t g :=
  if_pos h

theorem taEncp_of_not_groupValid {t : TA} {g : BitVec 2} (h : ¬ groupValid t g = true) :
    taEncp t g = padCode :=
  if_neg h

/-- Widened to `RSP.val`, no other character looks like `=`. -/
theorem setWidth_ne_pad {ch : Byte} (h : ch ≠ padCode) : ch.setWidth 64 ≠ 0x3D := by
  intro heq
  have hback : (ch.setWidth 64).setWidth 8 = padCode := by rw [heq]; rfl
  rw [BitVec.setWidth_setWidth_of_le ch (by decide), BitVec.setWidth_eq] at hback
  exact h hback

/-- Settles O28: the formula of the machine gives the code of the table, and no code of the table is
that of `=`. -/
theorem taEncMapsField : Obligations.TaEncMapsField := by
  refine ⟨fun s g hs => ?_, fun n => symbol_ne_pad, fun p g opd opa opc => ?_,
    illegalWhen_width_or_reserved .taEnc rfl⟩
  · rw [exec_taEnc hs, taEnc_eq_symbol]
  · exact decode_small_word p .taEnc rfl g opd opa opc fun _ hg _ => congrArg Instr.taEnc hg

/-- Settles O29, by cases on whether the byte the group depends on is valid. -/
theorem taEncpPads : Obligations.TaEncpPads := by
  refine ⟨fun s g hs => ?_, fun p g opd opa opc => ?_, illegalWhen_width_or_reserved .taEncp rfl⟩
  · rw [exec_taEncp hs]
    by_cases hg : groupValid s.ta g = true
    · rw [taEncp_of_groupValid hg, if_pos ((groupValid_iff_dep s.ta g).1 hg), taEnc_eq_symbol]
    · rw [taEncp_of_not_groupValid hg, if_neg (mt (groupValid_iff_dep s.ta g).2 hg)]
      rfl
  · exact decode_small_word p .taEncp rfl g opd opa opc fun _ hg _ => congrArg Instr.taEncp hg

/-- Settles O30: TA.ENCP pads the groups without data and answers as TA.ENC for the others, and which
those are is read off `groupValid_iff` for each value of `TA.valid`. -/
theorem padsFollowValidCount : Obligations.PadsFollowValidCount := by
  intro s g hs
  have hpad (h : ¬ (s.ta.valid ≠ 0 ∧ g ≤ s.ta.valid)) : (taEncp s.ta g).setWidth 64 = 0x3D#64 := by
    rw [taEncp_of_not_groupValid (mt (groupValid_iff s.ta g).1 h)]
    rfl
  have hsame (h : s.ta.valid ≠ 0 ∧ g ≤ s.ta.valid) :
      Claims.answered s ((taEncp s.ta g).setWidth 64) =
        Claims.answered s ((taEnc s.ta g).setWidth 64) := by
    rw [taEncp_of_groupValid ((groupValid_iff s.ta g).2 h)]
  refine ⟨_, _, exec_taEncp hs g, exec_taEnc hs g, setWidth_ne_pad (alphaCode_ne_pad _),
    fun hv => hpad ?_, fun hv => ⟨fun hg => hpad ?_, fun hg => hsame ?_⟩,
    fun hv => ⟨fun hg => hpad ?_, fun hg => hsame ?_⟩, fun hv => hsame ?_⟩
  -- each goal left is one entry of the table of R110, a fact about `g` alone once `TA.valid` is known
  all_goals rw [hv]; clear hpad hsame; revert g; decide

/-- Settles O23: TA.NEW leaves the fresh unit, and a unit with no valid byte has data in no group. -/
theorem taNewMakesFresh : Obligations.TaNewMakesFresh := by
  refine ⟨fun s hs => exec_taNew hs, fun p opd opa opc => ?_, illegalWhen_any_field .taNew rfl rfl,
    fun s hs => ⟨_, exec_taNew hs, fun g => ?_⟩⟩
  · exact decode_word p .taNew (w := 0) (k := 0) (fun _ => rfl) (fun _ => rfl) opd opa opc
  · have hrun : (Claims.answered (s.setTa TA.fresh) 0).Running := hs
    have hg : ¬ groupValid TA.fresh g = true := fun h => ((groupValid_iff TA.fresh g).1 h).1 rfl
    exact ⟨_, exec_taEncp hrun g, congrArg (BitVec.setWidth 64) (taEncp_of_not_groupValid hg)⟩

/-! ### The 65 codes (R106) -/

theorem outputCode_taEncp (t : TA) (g : BitVec 2) : outputCode (taEncp t g) = true := by
  by_cases hg : groupValid t g = true
  · rw [taEncp_of_groupValid hg]
    exact outputCode_alphaCode _
  · rw [taEncp_of_not_groupValid hg]
    rfl

/-- A run that does not fault leaves a Base64 text in OB (R157). -/
theorem exists_ob_eq_base64Text {s t : State} {w : BitVec 4} {data count : Nat} (hs : s.Running)
    (h : exec (.b64Run w data count) s = .next t) (hf : t.fault = false) :
    ∃ S, t.sd.ob = base64Text S := by
  have hrun : execB64Run w data count s = .next t := h
  rcases execB64Run_cases w data count s with ⟨hfault, -⟩ | ⟨-, -, c, -, hc⟩ | ⟨-, -, vs, -, hvs⟩
  · exact absurd hfault (by simp [hs])
  · rw [hc] at hrun
    cases hrun
    cases hf
  · rw [hvs] at hrun
    cases hrun
    exact ⟨byteStream w.toNat vs, rfl⟩

/-- Settles O58: the alphabet's laws, what the two commands answer, and that OB after a run is a Base64
text. -/
theorem charactersAreOutputCodes : Obligations.CharactersAreOutputCodes := by
  refine ⟨alphaCode_eq_symbol, alphaCode_injective, alphaCode_ne_pad,
    fun t g => ⟨outputCode_alphaCode _, outputCode_taEncp t g⟩,
    fun s t w data count hs ht hf ch hch => ?_⟩
  obtain ⟨S, hS⟩ := exists_ob_eq_base64Text hs ht hf
  exact outputCode_of_mem_base64Text (hS ▸ hch)

end Sys2Proof.Machine
end

section
/-! PROOFS. The word carry accumulator (42_word_carry_accumulator.md R120 to R126). -/

namespace Sys2Proof.Machine

/-! ### A command by its effect (R8, R172) -/

theorem exec_of_effect {i : Instr} {s t : State} {r : Response} (hs : s.Running)
    (h : effectOf i s = .ok (t, r)) : exec i s = .next (t.setRsp r) := by
  rw [exec_eq_perform, h, perform_ok s t r hs]

theorem exec_of_cause {i : Instr} {s : State} {c : Cause} (hs : s.Running)
    (h : effectOf i s = .error c) : exec i s = .next (Claims.faultedState s c.code) := by
  rw [exec_eq_perform, h, perform_error s c hs]
  rfl

theorem issue_of_next {i : Instr} {s t : State} (h : exec i s = .next t) (ht : t.Running) :
    issue i s = some t := by
  simp [issue, h, ht]

/-! ### The three commands by their cases (R120, R122, R124) -/

/-- The state WCA.LOAD leaves when `WSEL` is set (R122). -/
def stateAfterLoad (s : State) (opd : DataWord) : State :=
  (s.setWca (wcaNext s.wca (opdElement opd s.wca.wsel.toNat))).setRsp
    (Response.carry (fullWindows (wcaBytes s.wca (opdElement opd s.wca.wsel.toNat))) 1)

/-- The state WCA.FLUSH leaves when `WSEL` is set (R124). -/
def stateAfterFlush (s : State) : State :=
  (s.setWca (wcaDrained s.wca)).setRsp (Response.carry (wcaFlushWindows s.wca) 0)

theorem notHandedOut_eq_wcaBytes (u : WCA) (opd : DataWord) :
    Claims.notHandedOut u opd = wcaBytes u (opdElement opd u.wsel.toNat) := rfl

section
variable {s : State} (hs : s.Running)
include hs

theorem exec_wcaNew_of_legal {w : BitVec 4} (hw : w ∈ [2#4, 4#4, 8#4]) :
    exec (.wcaNew w) s = .next (Claims.answered (s.setWca (wcaNew w)) 0) := by
  apply exec_of_answers hs
  rw [effectOf, if_pos ((legalCarryWidth_iff w).2 hw)]
  rfl

theorem exec_wcaNew_of_illegal {w : BitVec 4} (hw : w ∉ [2#4, 4#4, 8#4]) :
    exec (.wcaNew w) s = .next (Claims.faultedState s 2) := by
  apply exec_of_cause (c := .width) hs
  rw [effectOf, if_neg (mt (legalCarryWidth_iff w).1 hw)]

theorem exec_wcaLoad (hw : s.wca.wsel ≠ 0) (opd : DataWord) :
    exec (.wcaLoad opd) s = .next (stateAfterLoad s opd) := by
  apply exec_of_effect hs
  rw [effectOf, wcaLoad_eq _ _ hw]
  rfl

theorem exec_wcaLoad_of_noInstance (hw : s.wca.wsel = 0) (opd : DataWord) :
    exec (.wcaLoad opd) s = .next (Claims.faultedState s 4) := by
  apply exec_of_cause (c := .noinst) hs
  rw [effectOf, wcaLoad, if_pos hw]
  rfl

theorem exec_wcaFlush (hw : s.wca.wsel ≠ 0) : exec .wcaFlush s = .next (stateAfterFlush s) := by
  apply exec_of_effect hs
  rw [effectOf, wcaFlush_eq _ hw]
  rfl

theorem exec_wcaFlush_of_noInstance (hw : s.wca.wsel = 0) :
    exec .wcaFlush s = .next (Claims.faultedState s 4) := by
  apply exec_of_cause (c := .noinst) hs
  rw [effectOf, wcaFlush, if_pos hw]
  rfl

end

/-! ### Complete windows and leftover of a byte sequence (R121) -/

theorem pack3_drop (q : List Byte) (n : Nat) :
    pack3 (q.drop n) = pack3 [q.getD n 0, q.getD (n + 1) 0, q.getD (n + 2) 0] := by
  simp [pack3, List.getD_eq_getElem?_getD, List.getElem?_drop]

/-- The window fields of a load's response, those of index `t` and above included (R42, R122). -/
theorem fullWindows_getD (q : List Byte) (j : Nat) :
    (fullWindows q).getD j ⟨0, 0⟩ = ⟨Claims.winAt q j, Claims.countAt q j⟩ := by
  by_cases hj : j < q.length / 3
  · rw [List.getD_eq_getElem _ _ ((fullWindows_length q).symm ▸ hj), Claims.winAt, Claims.countAt,
      if_pos hj, if_pos hj, ← pack3_drop, ← pack3_take]
    simp [fullWindows]
  · rw [List.getD_eq_default _ _ (by rw [fullWindows_length]; omega), Claims.winAt, Claims.countAt,
      if_neg hj, if_neg hj]

theorem padTo2_leftover (q : List Byte) : padTo2 (leftover q) =
    #v[q.getD (3 * (q.length / 3)) 0, q.getD (3 * (q.length / 3) + 1) 0] := by
  simp [padTo2, leftover, List.getD_eq_getElem?_getD, List.getElem?_drop]

/-- Loading two byte sequences one after the other: the windows of the first, then those of its leftover
and the second. -/
theorem fullWindows_append (q r : List Byte) :
    fullWindows (q ++ r) = fullWindows q ++ fullWindows (leftover q ++ r) := by
  match q with
  | [] | [_] | [_, _] => simp [fullWindows_of_short, leftover_of_short]
  | a :: b :: c :: q =>
    rw [fullWindows_cons3, leftover_cons3]
    simp only [List.cons_append, fullWindows_cons3, fullWindows_append q r]

/-- What the first part leaves over is carried into the second. -/
theorem leftover_append (q r : List Byte) : leftover (q ++ r) = leftover (leftover q ++ r) := by
  match q with
  | [] | [_] | [_, _] => simp [leftover_of_short]
  | a :: b :: c :: q =>
    rw [leftover_cons3]
    simp only [List.cons_append, leftover_cons3, leftover_append q r]

/-- The complete windows are all the windows of the bytes before the leftover. -/
theorem fullWindows_eq_windowsOf_take (q : List Byte) :
    fullWindows q = windowsOf (q.take (3 * (q.length / 3))) := by
  generalize ht : q.take (3 * (q.length / 3)) = b
  have hb : b ++ leftover q = q := by rw [← ht, leftover, List.take_append_drop]
  have hnil : leftover b = [] := by
    rw [← List.length_eq_zero_iff, leftover_length, ← ht, List.length_take]
    omega
  have hshort : fullWindows (leftover q) = [] :=
    fullWindows_of_short _ (by rw [leftover_length]; omega)
  calc fullWindows q = fullWindows (b ++ leftover q) := by rw [hb]
    _ = fullWindows b := by rw [fullWindows_append, hnil, List.nil_append, hshort, List.append_nil]
    _ = windowsOf (b ++ []) := by
      rw [windowsOf_append, hnil, List.append_nil, windowsOf_nil, List.append_nil]
    _ = windowsOf b := by rw [List.append_nil]

/-- Where the leftover is no longer than the last element, it is the end of that element. -/
theorem leftover_append_of_le {c e : List Byte} (h : (c ++ e).length % 3 ≤ e.length) :
    leftover (c ++ e) = e.drop (e.length - (c ++ e).length % 3) := by
  have hn : 3 * ((c ++ e).length / 3) = c.length + (e.length - (c ++ e).length % 3) := by
    have hlen : (c ++ e).length = c.length + e.length := List.length_append
    omega
  rw [leftover, hn, List.drop_length_add_append]

/-! ### A unit that takes elements in (R24, R29) -/

/-- A carry width and at most two carried bytes: what the carry step of R121 needs of the unit. -/
structure WCA.Ready (u : WCA) : Prop where
  wsel_legal : u.wsel ∈ [2#4, 4#4, 8#4]
  rem_lt     : u.rem.toNat < 3

theorem carryWidth_bounds : ∀ w ∈ [2#4, 4#4, 8#4], w ≠ 0 ∧ 2 ≤ w.toNat ∧ w.toNat ≤ 8 := by decide

theorem WCA.Ready.next {u : WCA} (h : u.Ready) (v : Nat) : (wcaNext u v).Ready :=
  ⟨h.wsel_legal, wcaNext_rem_lt u v⟩

theorem WCA.Ready.of_rem_zero {u : WCA} (hw : u.wsel ∈ [2#4, 4#4, 8#4]) (h : u.rem = 0) : u.Ready :=
  ⟨hw, by rw [h]; decide⟩

theorem wcaCarried_of_rem_zero {u : WCA} (h : u.rem = 0) : wcaCarried u = [] := by
  rw [wcaCarried, h]
  rfl

/-- Loads hand out the complete windows of carry and stream and carry what these leave over (R123). -/
theorem wcaFeed_splits (u : WCA) (vs : List Nat) (h : u.rem.toNat < 3) :
    (wcaFeed u vs).2 = fullWindows (wcaCarried u ++ byteStream u.wsel.toNat vs) ∧
      wcaCarried (wcaFeed u vs).1 = leftover (wcaCarried u ++ byteStream u.wsel.toNat vs) := by
  induction vs generalizing u with
  | nil =>
    have hshort : (wcaCarried u).length < 3 := by rwa [wcaCarried_length u h]
    simp [wcaFeed, byteStream, fullWindows_of_short _ hshort, leftover_of_short _ hshort]
  | cons v vs ih =>
    obtain ⟨hwindows, hcarry⟩ := ih (wcaNext u v) (wcaNext_rem_lt u v)
    have hs : wcaCarried u ++ byteStream u.wsel.toNat (v :: vs) =
        wcaBytes u v ++ byteStream u.wsel.toNat vs := by simp [byteStream, wcaBytes]
    rw [hs, fullWindows_append, leftover_append, ← wcaCarried_wcaNext, ← wcaNext_wsel u v,
      ← hwindows, ← hcarry]
    exact ⟨rfl, rfl⟩

/-! ### The stream driven by hand (R123, R126) -/

theorem stateAfterLoad_windows {s : State} (h : s.wca.Ready) (opd : DataWord) :
    (stateAfterLoad s opd).rsp.windows =
      fullWindows (wcaBytes s.wca (opdElement opd s.wca.wsel.toNat)) :=
  Response.carry_windows _ _
    (wcaLoad_windows_le _ _ h.rem_lt (carryWidth_bounds _ h.wsel_legal).2.2)

/-- One load per element feeds the unit with the elements, and no load faults. -/
theorem driveLoads_eq (vs : List DataWord) {s : State} (hs : s.Running) (h : s.wca.Ready) :
    ∃ t, driveLoads vs s =
        some ((wcaFeed s.wca (vs.map (opdElement · s.wca.wsel.toNat))).2, t) ∧ t.Running ∧
      t.wca = (wcaFeed s.wca (vs.map (opdElement · s.wca.wsel.toNat))).1 := by
  induction vs generalizing s with
  | nil => exact ⟨s, rfl, hs, rfl⟩
  | cons v vs ih =>
    obtain ⟨t, hdrive, ht, hwca⟩ := ih (s := stateAfterLoad s v) hs (h.next _)
    have hload : issue (.wcaLoad v) s = some (stateAfterLoad s v) :=
      issue_of_next (exec_wcaLoad hs (carryWidth_bounds _ h.wsel_legal).1 v) hs
    refine ⟨t, ?_, ht, hwca⟩
    rw [driveLoads, hload, Option.bind_eq_bind, Option.bind_some, hdrive, Option.bind_eq_bind,
      Option.bind_some, stateAfterLoad_windows h]
    rfl

/-- The driven stream is the loads and then the flush. -/
theorem driveWca_of_driveLoads {vs : List DataWord} {s t u : State} {ws : List Window}
    (hloads : driveLoads vs s = some (ws, t)) (hflush : issue .wcaFlush t = some u) :
    driveWca vs s = some (ws ++ u.rsp.windows, u) := by
  induction vs generalizing s ws with
  | nil =>
    cases hloads
    rw [driveWca, hflush]
    rfl
  | cons v vs ih =>
    simp only [driveLoads, Option.bind_eq_bind, Option.bind_eq_some_iff, Option.some.injEq,
      Prod.mk.injEq, Prod.exists] at hloads
    obtain ⟨r, hload, ws', t', hrest, rfl, rfl⟩ := hloads
    rw [driveWca, hload, Option.bind_eq_bind, Option.bind_some, ih hrest, List.append_assoc]
    rfl

/-! ### The statements -/

/-- Settles O32: the registers and signals of R122 are those of the carry step, read off byte by byte. -/
theorem wcaLoadCarries : Obligations.WcaLoadCarries := by
  refine ⟨fun s opd hs hinv hw => ⟨?_, ?_⟩, fun s opd hs hw => exec_wcaLoad_of_noInstance hs hw opd,
    fun p opd opa opc => ?_, illegalWhen_any_field .wcaLoad rfl rfl⟩
  · rw [exec_wcaLoad hs hw, stateAfterLoad, wcaNext, Response.carry, ← notHandedOut_eq_wcaBytes,
      padTo2_leftover, fullWindows_length, fullWindows_getD, fullWindows_getD, fullWindows_getD]
    rfl
  · rw [notHandedOut_eq_wcaBytes, ← fullWindows_length]
    exact wcaLoad_windows_le _ _ hinv.rem_lt hinv.wsel_le
  · exact decode_word p .wcaLoad (w := 0) (k := 0) (fun _ => rfl) (fun _ => rfl) opd opa opc

/-- Every row of R123: by length there are `rem + W` bytes not yet handed out, and the leftover is
shorter than the element. -/
theorem carryRow {W : BitVec 4} {rem : BitVec 2} (hW : W ∈ [2#4, 4#4, 8#4] := by decide)
    (hrem : rem.toNat < 3 := by decide) :
    Claims.CarryRow W rem (BitVec.ofNat 2 ((rem.toNat + W.toNat) / 3))
      (BitVec.ofNat 2 ((rem.toNat + W.toNat) % 3)) := by
  rintro s opd hs rfl rfl
  obtain ⟨hne, hlow, -⟩ := carryWidth_bounds _ hW
  have hlen := wcaBytes_length s.wca (opdElement opd s.wca.wsel.toNat) hrem
  have hcarry := wcaCarried_wcaNext s.wca (opdElement opd s.wca.wsel.toNat)
  have hnext : (stateAfterLoad s opd).wca.rem =
      BitVec.ofNat 2 ((s.wca.rem.toNat + s.wca.wsel.toNat) % 3) := by
    rw [← hlen]
    rfl
  refine ⟨_, exec_wcaLoad hs hne opd, hs, ?_, hnext, rfl, ?_⟩
  · rw [← hlen, ← fullWindows_length]
    rfl
  · rw [← hnext]
    refine hcarry.trans ((leftover_append_of_le ?_).trans ?_)
    · rw [bon_length]
      omega
    · rw [bon_length, ← wcaBytes, ← wcaNext_rem]
      rfl

/-- Settles O33: the rows are one lemma; the carry and the windows after `n` loads are the leftover and
the complete windows of the stream. -/
theorem carryStepByWidth : Obligations.CarryStepByWidth := by
  refine ⟨⟨carryRow, carryRow, carryRow⟩, ⟨carryRow, carryRow, carryRow⟩,
    ⟨carryRow, carryRow, carryRow⟩, fun s vs hs hw hrem => ?_⟩
  intro S
  have hready := WCA.Ready.of_rem_zero hw hrem
  obtain ⟨t, hloads, -, hwca⟩ := driveLoads_eq vs hs hready
  obtain ⟨hwindows, hcarry⟩ :=
    wcaFeed_splits s.wca (vs.map (opdElement · s.wca.wsel.toNat)) hready.rem_lt
  rw [wcaCarried_of_rem_zero hrem, List.nil_append] at hwindows hcarry
  have hlen : S.length = vs.length * s.wca.wsel.toNat := by rw [byteStream_length, List.length_map]
  have hlt : t.wca.rem.toNat < 3 := hwca ▸ wcaFeed_rem_lt _ _ hready.rem_lt
  rw [← hwca] at hcarry
  refine ⟨_, t, hloads, by rw [hwca, wcaFeed_wsel], ?_, ?_,
    hwindows.trans (fullWindows_eq_windowsOf_take S), hcarry⟩
  · rw [← hlen, ← leftover_length, ← wcaCarried_length t.wca hlt, hcarry]
    rfl
  · rw [hwindows, fullWindows_length, ← hlen]
    rfl

/-- The flush answers one short window, or none (R124). -/
theorem carry_wcaFlushWindows (u : WCA) : Response.carry (wcaFlushWindows u) 0 =
    if u.rem = 0 then Claims.oneWindow 0 0 0 0
    else Claims.oneWindow 1 (pack3 (wcaCarried u)) u.rem 0 := by
  rw [wcaFlushWindows]
  split <;> rfl

/-- Settles O34: the unit is drained and the answer is the window of the carried bytes, if any. -/
theorem wcaFlushDrains : Obligations.WcaFlushDrains := by
  refine ⟨fun s hs hw => ?_, fun s hs hw => exec_wcaFlush_of_noInstance hs hw,
    fun p opd opa opc => ?_, illegalWhen_any_field .wcaFlush rfl rfl⟩
  · rw [exec_wcaFlush hs hw, stateAfterFlush, carry_wcaFlushWindows]
    rfl
  · exact decode_word p .wcaFlush (w := 0) (k := 0) (fun _ => rfl) (fun _ => rfl) opd opa opc

/-- Settles O36: the loads feed the unit, and the flush hands out the windows of what is still carried. -/
theorem wcaStreamHasNoGaps : Obligations.WcaStreamHasNoGaps := by
  intro s vs hs hw hrem S
  have hready := WCA.Ready.of_rem_zero hw hrem
  obtain ⟨t, hloads, ht, hwca⟩ := driveLoads_eq vs hs hready
  have hne : t.wca.wsel ≠ 0 := by
    rw [hwca, wcaFeed_wsel]
    exact (carryWidth_bounds _ hw).1
  have hflush : issue .wcaFlush t = some (stateAfterFlush t) :=
    issue_of_next (exec_wcaFlush ht hne) ht
  have hdrive := driveWca_of_driveLoads hloads hflush
  have hwindows := wcaFeed_windows s.wca (vs.map (opdElement · s.wca.wsel.toNat)) hready.rem_lt
  rw [wcaCarried_of_rem_zero hrem, List.nil_append] at hwindows
  have hlast : (stateAfterFlush t).rsp.windows = wcaFlushWindows t.wca :=
    Response.carry_windows _ _ (wcaFlushWindows_length _)
  rw [hlast, hwca, hwindows] at hdrive
  refine ⟨stateAfterFlush t, hdrive, rfl, ?_, windowsOf_length S, fun m hm => ?_⟩
  · rw [byteStream_length, List.length_map]
  · rw [windowsOf_length] at hm
    exact windowsOf_getElem? S m (by omega)

/-- Settles O31: WCA.NEW checks its width and then makes the fresh accumulator. -/
theorem wcaNewMakesInstance : Obligations.WcaNewMakesInstance := by
  refine ⟨fun s w hs hw => exec_wcaNew_of_legal hs hw, fun s w hs hw => exec_wcaNew_of_illegal hs hw,
    fun p w opd opa opc => ?_, fun c s rest hs hpending hop hbad =>
      illegalWhen_small_or_reserved .wcaNew rfl c s rest hs hpending hop hbad.symm⟩
  have hdecode := decode_word p .wcaNew (w := w) (k := 0) nofun (fun _ => rfl) opd opa opc
  rwa [instrOf, cwWidth_commandWord] at hdecode

/-- A command that raises a fault answers 0 on every signal but `RSP.fault` and `RSP.cause` (R172). -/
theorem rsp_of_raised {i : Instr} {s t : State} (hs : s.Running) (h : exec i s = .next t)
    (hf : t.fault = true) : t.rsp = Response.faulted t.cause := by
  rcases exec_cases i s t h with ⟨hfault, -⟩ | ⟨-, c, -, rfl⟩ | ⟨-, u, r, heffect, rfl⟩
  · exact absurd hfault (by simp [hs])
  · rfl
  · obtain ⟨-, -, -, hkept, -⟩ := effectOf_frame i s u r heffect
    exact absurd (hkept.symm.trans hf) (by simp [hs])

/-- Settles O35, by cases on whether `WSEL` is set; a fault clears the signal for every command. -/
theorem consumptionSignal : Obligations.ConsumptionSignal := by
  intro s t opd hs
  refine ⟨fun h => ?_, fun h => ?_, fun i h hf => by rw [rsp_of_raised hs h hf]; rfl⟩
  · by_cases hw : s.wca.wsel = 0
    · cases (exec_wcaLoad_of_noInstance hs hw opd).symm.trans h
      rfl
    · cases (exec_wcaLoad hs hw opd).symm.trans h
      rw [show (stateAfterLoad s opd).fault = false from hs]
      rfl
  · by_cases hw : s.wca.wsel = 0
    · cases (exec_wcaFlush_of_noInstance hs hw).symm.trans h
      rfl
    · cases (exec_wcaFlush hs hw).symm.trans h
      rfl

end Sys2Proof.Machine
end

section
/-! PROOFS. The width-2 specialization (43_width2_specialization.md R140 to R146). -/

namespace Sys2Proof.Machine

/-! ### The five cases of the unit and its fault (R141, R142) -/

section
variable {u : W2} {c : BitVec 2} (e0 e1 : BitVec 16)

/-- Case A: one element completes the leftover byte's window, also where two are offered. -/
theorem w2Load_leftover_element (hu : u.has = true) (hc : c = 1 ∨ c = 2) :
    w2Load u c e0 e1 = .ok ({ u with first := e0, has := false },
      Response.carry [⟨pack3 [loByte u.second, hiByte e0, loByte e0], 3⟩] 1) := by
  rcases hc with rfl | rfl <;> simp [w2Load, legalCount, hu]

/-- Case B: the flush hands the leftover byte out alone. -/
theorem w2Load_leftover_flush (hu : u.has = true) : w2Load u 0 e0 e1 =
    .ok ({ u with has := false }, Response.carry [⟨pack3 [loByte u.second], 1⟩] 0) := by
  simp [w2Load, legalCount, hu]

/-- Case C: of two elements the last byte is the new leftover. -/
theorem w2Load_two_elements (hu : u.has = false) :
    w2Load u 2 e0 e1 = .ok ({ first := e0, second := e1, has := true },
      Response.carry [⟨pack3 [hiByte e0, loByte e0, hiByte e1], 3⟩] 2) := by
  simp [w2Load, legalCount, hu]

/-- Case D: a last element alone is a short window at once. -/
theorem w2Load_one_element (hu : u.has = false) :
    w2Load u 1 e0 e1 = .ok ({ first := e0, second := 0, has := false },
      Response.carry [⟨pack3 [hiByte e0, loByte e0], 2⟩] 1) := by
  simp [w2Load, legalCount, hu]

/-- Case E: a flush with nothing held. -/
theorem w2Load_empty_flush (hu : u.has = false) :
    w2Load u 0 e0 e1 = .ok (u, Response.carry [] 0) := by
  simp [w2Load, legalCount, hu]

theorem w2Load_three_elements : w2Load u 3 e0 e1 = .error .operand := rfl

end

/-! ### The two commands (R140, R141) -/

section
variable {s : State} (hs : s.Running)
include hs

theorem exec_w2New : exec .w2New s = .next (Claims.answered (s.setW2 W2.fresh) 0) :=
  exec_of_answers hs rfl

theorem exec_w2Load_of_ok {c : BitVec 2} {opd : DataWord} {u : W2} {r : Response}
    (h : w2Load s.w2 c (opdE0 opd) (opdE1 opd) = .ok (u, r)) :
    exec (.w2Load c opd) s = .next ((s.setW2 u).setRsp r) := by
  apply exec_of_effect hs
  rw [effectOf, h]
  rfl

theorem exec_w2Load_of_error {c : BitVec 2} {opd : DataWord} {e : Cause}
    (h : w2Load s.w2 c (opdE0 opd) (opdE1 opd) = .error e) :
    exec (.w2Load c opd) s = .next (Claims.faultedState s e.code) := by
  apply exec_of_cause hs
  rw [effectOf, h]
  rfl

end

/-- Settles O37: the command leaves the fresh unit and answers 0. -/
theorem w2NewMakesFresh : Obligations.W2NewMakesFresh := by
  refine ⟨fun s hs => exec_w2New hs, fun p opd opa opc => ?_, illegalWhen_any_field .w2New rfl rfl⟩
  exact decode_word p .w2New (w := 0) (k := 0) (fun _ => rfl) (fun _ => rfl) opd opa opc

/-- Settles O38: each case of the command is the unit's, on the operands R76 cuts out of `OPD`. -/
theorem w2LoadCases : Obligations.W2LoadCases := by
  refine ⟨fun s c opd hs => ⟨fun hu hc => ?_, ?_, ?_, ?_, ?_, ?_⟩, fun p c opd opa opc => ?_,
    illegalWhen_width_or_reserved .w2Load rfl⟩
  · exact exec_w2Load_of_ok hs (w2Load_leftover_element _ _ hu hc)
  · rintro hu rfl
    exact exec_w2Load_of_ok hs (w2Load_leftover_flush _ _ hu)
  · rintro hu rfl
    exact exec_w2Load_of_ok hs (w2Load_two_elements _ _ hu)
  · rintro hu rfl
    exact exec_w2Load_of_ok hs (w2Load_one_element _ _ hu)
  · rintro hu rfl
    exact exec_w2Load_of_ok hs (w2Load_empty_flush _ _ hu)
  · rintro rfl
    exact exec_w2Load_of_error hs (w2Load_three_elements _ _)
  · exact decode_small_word p .w2Load rfl c opd opa opc
      fun _ hc hopd => congrArg₂ Instr.w2Load hc hopd

/-! ### The operand R79 puts together is taken apart again (R76) -/

section
variable (e0 e1 : BitVec 16)

theorem opdE0_shiftLeft_or : opdE0 ((e1.setWidth 64 <<< 16) ||| e0.setWidth 64) = e0 := by
  rw [← BitVec.setWidth_append_eq_shiftLeft_setWidth_or, opdE0,
    BitVec.extractLsb'_setWidth_of_le (by decide), BitVec.extractLsb'_append_eq_right]

theorem opdE1_shiftLeft_or : opdE1 ((e1.setWidth 64 <<< 16) ||| e0.setWidth 64) = e1 := by
  rw [← BitVec.setWidth_append_eq_shiftLeft_setWidth_or, opdE1,
    BitVec.extractLsb'_setWidth_of_le (by decide), BitVec.extractLsb'_append_eq_left]

end

/-! ### The stream driven by hand (R144 to R146) -/

/-- The state W2.LOAD leaves when the host offers what R145 says of the elements `es`. -/
def stateAfterOffer (s : State) (es : List (BitVec 16)) : State :=
  (s.setW2 (w2Next s.w2 es).1).setRsp (w2Next s.w2 es).2

/-- An offer as R145 says never faults. -/
theorem issue_offer {s : State} (hs : s.Running) (es : List (BitVec 16)) :
    issue (asmW2Load (BitVec.ofNat 2 (min 2 es.length)) (es.getD 0 0) (es.getD 1 0)) s =
      some (stateAfterOffer s es) := by
  obtain ⟨hload, -⟩ := w2Next_spec s.w2 es
  refine issue_of_next (exec_w2Load_of_ok hs ?_) hs
  rw [opdE0_shiftLeft_or, opdE1_shiftLeft_or, hload]

/-- What a unit without a leftover carries. -/
theorem w2Carried_of_not_has {u : W2} (h : u.has = false) : w2Carried u = [] := by
  rw [w2Carried, h]
  rfl

/-- The driver hands out the windows of leftover and stream and leaves no leftover: each offer hands out
the first of them and takes at least one element, and the flush hands out the rest. -/
theorem driveW2_windows (fuel : Nat) {s : State} {es : List (BitVec 16)} (hs : s.Running)
    (hf : es.length < fuel) :
    ∃ u, driveW2 fuel es s =
        some (windowsOf (w2Carried s.w2 ++ byteStream 2 (es.map BitVec.toNat)), u) ∧
      u.w2.has = false := by
  induction fuel generalizing s es with
  | zero => exact absurd hf (Nat.not_lt_zero _)
  | succ fuel ih =>
    obtain ⟨-, hle, hpos, hwindows, hhas⟩ := w2Next_spec s.w2 es
    rw [driveW2, issue_offer hs, Option.bind_eq_bind, Option.bind_some, hwindows]
    by_cases hes : es = []
    · subst hes
      refine ⟨stateAfterOffer s [], ?_, hhas rfl⟩
      rw [if_pos rfl, w2Carried_of_not_has (hhas rfl)]
      simp [stateAfterOffer, byteStream]
    · have hrest : (es.drop (stateAfterOffer s es).rsp.consumed.toNat).length < fuel := by
        have htaken : 0 < (stateAfterOffer s es).rsp.consumed.toNat := hpos hes
        have hleft : (stateAfterOffer s es).rsp.consumed.toNat ≤ es.length := hle
        rw [List.length_drop]
        omega
      obtain ⟨u, hdrive, hu⟩ := ih (s := stateAfterOffer s es) hs hrest
      refine ⟨u, ?_, hu⟩
      rw [if_neg hes, hdrive]
      rfl

/-- Settles O39: without a leftover the windows are those of the stream alone. -/
theorem w2StreamHasNoGaps : Obligations.W2StreamHasNoGaps := by
  intro s es hs hhas S
  have hlen : S.length = 2 * es.length := by rw [byteStream_length, List.length_map, Nat.mul_comm]
  obtain ⟨u, hdrive, hu⟩ := driveW2_windows (es.length + 1) hs (Nat.lt_succ_self es.length)
  rw [w2Carried_of_not_has hhas, List.nil_append] at hdrive
  exact ⟨u, hdrive, hu, hlen, by rw [windowsOf_length, hlen]⟩

/-- A 16-bit element on the data operand is the element a WCA of width 2 takes (R76). -/
theorem toNat_setWidth_mod_width_two (e : BitVec 16) :
    (e.setWidth 64).toNat % 2 ^ (8 * (2#4).toNat) = e.toNat := by
  rw [BitVec.toNat_setWidth_of_le (by decide)]
  exact Nat.mod_eq_of_lt e.isLt

/-- Settles O40: both drives hand out the windows of the same byte stream. -/
theorem w2AgreesWithWca : Obligations.W2AgreesWithWca := by
  intro s r es hs hr hhas hwsel hrem
  obtain ⟨u, hw2, -⟩ := w2StreamHasNoGaps s es hs hhas
  obtain ⟨v, hwca, -⟩ := wcaStreamHasNoGaps r (es.map (BitVec.setWidth 64)) hr
    (by rw [hwsel]; decide) hrem
  have helements : (es.map (BitVec.setWidth 64)).map
      (fun e => e.toNat % 2 ^ (8 * r.wca.wsel.toNat)) = es.map BitVec.toNat := by
    rw [hwsel, List.map_map]
    exact List.map_congr_left fun e _ => toNat_setWidth_mod_width_two e
  rw [helements, hwsel] at hwca
  exact ⟨_, u, v, hw2, hwca⟩

end Sys2Proof.Machine
end

section
/-! PROOFS. A run and the registers of the units (44_stream_driver.md R158, R162, R163): the commands a
host issues by hand do what the run does, what the run leaves in the units, where its text has `=`, and
the run over no elements. -/

namespace Sys2Proof.Machine

/-! ### One command and one character by hand (R155) -/

/-- A window on the data operand of TA.LOAD is taken apart as the sequencer takes it apart (R76). -/
theorem opdWindow_setWidth (d : Triplet) : opdWindow (d.setWidth 64) = tripletBytes d := by
  simp only [opdWindow, tripletBytes]
  rw [BitVec.extractLsb'_setWidth_of_le (by decide), BitVec.extractLsb'_setWidth_of_le (by decide),
    BitVec.extractLsb'_setWidth_of_le (by decide)]

/-- The character the host reads is the one the sequencer writes, whatever was answered before. -/
theorem handChar_answered {s : State} (hs : s.Running) (v : DataWord) (g : BitVec 2) :
    handChar s.ta.valid g (Claims.answered s v) =
      some (Claims.answered s ((windowChar s.ta g).setWidth 64), windowChar s.ta g) := by
  have hissue : issue (if s.ta.valid = 3 then .taEnc g else .taEncp g) (Claims.answered s v) =
      some (Claims.answered s ((windowChar s.ta g).setWidth 64)) := by
    refine issue_of_next (t := Claims.answered s _) ?_ hs
    rw [windowChar]
    split
    · exact exec_taEnc (s := Claims.answered s v) hs g
    · exact exec_taEncp (s := Claims.answered s v) hs g
  have hback : ((windowChar s.ta g).setWidth 64).setWidth 8 = windowChar s.ta g := by
    rw [BitVec.setWidth_setWidth_of_le _ (by decide), BitVec.setWidth_eq]
  rw [handChar, hissue, Option.bind_eq_bind, Option.bind_some]
  exact congrArg (fun ch => some (_, ch)) hback

/-! ### Windows read by hand (R158) -/

/-- The state `s` after a host has encoded the windows `ws`, with `u` and `v` in the carry units. -/
def stateAfterReads (s : State) (ws : List Window) (u : WCA) (v : W2) (r : Response) : State :=
  (((s.setTa (lastTa s.ta ws)).setWca u).setW2 v).setRsp r

theorem stateAfterReads_stateAfterReads (s : State) (ws ws' : List Window) (u u' : WCA) (v v' : W2)
    (r r' : Response) : stateAfterReads (stateAfterReads s ws u v r) ws' u' v' r' =
      stateAfterReads s (ws ++ ws') u' v' r' :=
  congrArg (fun t => (((s.setTa t).setWca u').setW2 v').setRsp r') (lastTa_append s.ta ws ws').symm

/-- Commands issued by hand from `s` raise no fault, collect the text of the windows `ws`, and leave the
last of them in TA and `u` and `v` in the carry units. -/
def HandReads (o : Option (State × List Byte)) (s : State) (ws : List Window) (u : WCA) (v : W2) :
    Prop :=
  ∃ r, o = some (stateAfterReads s ws u v r, ws.flatMap windowText)

/-- Reading windows and then, from the state this leaves, more windows is reading all of them. -/
theorem HandReads.append {o : Option (State × List Byte)} {s : State} {ws ws' : List Window}
    {u u' : WCA} {v v' : W2} {next : State → Option (State × List Byte)} (h : HandReads o s ws u v)
    (hnext : ∀ r,
      HandReads (next (stateAfterReads s ws u v r)) (stateAfterReads s ws u v r) ws' u' v') :
    HandReads (do
      let (t, cs) ← o
      let (t, ds) ← next t
      some (t, cs ++ ds)) s (ws ++ ws') u' v' := by
  obtain ⟨r, rfl⟩ := h
  obtain ⟨r', hr'⟩ := hnext r
  refine ⟨r', ?_⟩
  simp only [Option.bind_eq_bind, Option.bind_some, hr', stateAfterReads_stateAfterReads,
    List.flatMap_append]

/-- One TA.LOAD and four characters: the text of one window. -/
theorem handEmit_reads {s : State} (hs : s.Running) (win : Window) :
    HandReads (handEmit s win) s [win] s.wca s.w2 := by
  generalize ht : s.setTa (taLoad win.count (tripletBytes win.data)) = t
  have hload : issue (asmTaLoad win.count win.data) s = some (Claims.answered t 0) := by
    rw [← ht, asmTaLoad, ← opdWindow_setWidth]
    exact issue_of_next (exec_taLoad hs _ _) hs
  have ht' : t.Running := by rw [← ht]; exact hs
  have hcount : win.count = t.ta.valid := by rw [← ht]; rfl
  refine ⟨Response.scalar ((windowChar t.ta 3).setWidth 64), ?_⟩
  rw [handEmit, hload, hcount]
  simp only [Option.bind_eq_bind, Option.bind_some, handChar_answered ht']
  rw [← ht]
  rfl

/-- The host encodes the windows of a response as the sequencer does. -/
theorem handEmitAll_reads (ws : List Window) {s : State} (hs : s.Running) :
    HandReads (handEmitAll ws s) s ws s.wca s.w2 := by
  induction ws generalizing s with
  | nil => exact ⟨s.rsp, rfl⟩
  | cons win ws ih =>
    exact (handEmit_reads hs win).append (next := handEmitAll ws) fun r =>
      ih (s := stateAfterReads s [win] s.wca s.w2 r) hs

/-! ### The carry units by hand (R145, R153, R154) -/

/-- Widths 4 and 8: the loads feed WCA with the elements `vs` on the data operands, the flush drains it,
and every window is read as it comes. -/
theorem handWca_reads {opds : List DataWord} {vs : List Nat} {s : State} (hs : s.Running)
    (h : s.wca.Ready) (hvs : opds.map (opdElement · s.wca.wsel.toNat) = vs) :
    HandReads (handWca opds s) s ((wcaFeed s.wca vs).2 ++ wcaFlushWindows (wcaFeed s.wca vs).1)
      (wcaDrained (wcaFeed s.wca vs).1) s.w2 := by
  have hne : s.wca.wsel ≠ 0 := (carryWidth_bounds _ h.wsel_legal).1
  subst hvs
  induction opds generalizing s with
  | nil =>
    have hwindows : (stateAfterFlush s).rsp.windows = wcaFlushWindows s.wca :=
      Response.carry_windows _ _ (wcaFlushWindows_length _)
    rw [handWca, issue_of_next (exec_wcaFlush hs hne) hs, Option.bind_eq_bind, Option.bind_some,
      hwindows]
    exact handEmitAll_reads (wcaFlushWindows s.wca) (s := stateAfterFlush s) hs
  | cons opd opds ih =>
    rw [handWca, issue_of_next (exec_wcaLoad hs hne opd) hs, Option.bind_eq_bind, Option.bind_some,
      stateAfterLoad_windows h, List.map_cons, wcaFeed, List.append_assoc]
    exact (handEmitAll_reads _ (s := stateAfterLoad s opd) hs).append (next := handWca opds) fun r =>
      ih (s := stateAfterReads (stateAfterLoad s opd) _ _ _ r) hs (h.next _) hne

/-- The flush of W2, when every element has been taken. -/
theorem handW2_nil_reads (fuel : Nat) {s : State} (hs : s.Running) :
    HandReads (handW2 (fuel + 1) [] s) s (w2Next s.w2 []).2.windows s.wca (w2Next s.w2 []).1 := by
  obtain ⟨r, hr⟩ := handEmitAll_reads (w2Next s.w2 []).2.windows (s := stateAfterOffer s []) hs
  refine ⟨r, ?_⟩
  rw [handW2, issue_offer hs, Option.bind_eq_bind, Option.bind_some]
  exact (congrArg (Option.bind · _) hr).trans rfl

/-- Width 2: the offers drive W2, the flush drains it, and every window is read as it comes. -/
theorem handW2_reads (fuel : Nat) {s : State} {es : List (BitVec 16)} (hs : s.Running)
    (hf : es.length ≤ fuel) :
    HandReads (handW2 (fuel + 1) es s) s
      ((w2Feed fuel s.w2 es).2 ++ (w2Next (w2Feed fuel s.w2 es).1 []).2.windows)
      s.wca (w2Next (w2Feed fuel s.w2 es).1 []).1 := by
  induction fuel generalizing s es with
  | zero =>
    rw [List.length_eq_zero_iff.1 (Nat.le_zero.1 hf)]
    exact handW2_nil_reads 0 hs
  | succ fuel ih =>
    by_cases hes : es = []
    · subst hes
      exact handW2_nil_reads (fuel + 1) hs
    · obtain ⟨-, hle, hpos, -, -⟩ := w2Next_spec s.w2 es
      have hrest : (es.drop (w2Next s.w2 es).2.consumed.toNat).length ≤ fuel := by
        have := hpos hes
        rw [List.length_drop]
        omega
      rw [handW2, issue_offer hs, Option.bind_eq_bind, Option.bind_some, w2Feed, if_neg hes]
      simp only [if_neg hes, List.append_assoc]
      exact (handEmitAll_reads (w2Next s.w2 es).2.windows (s := stateAfterOffer s es) hs).append
        (next := handW2 (fuel + 1) (es.drop (w2Next s.w2 es).2.consumed.toNat)) fun r =>
          ih (s := stateAfterReads (stateAfterOffer s es) _ _ _ r) hs hrest

/-! ### The run by hand (R158, R159) -/

/-- The elements of a run fit its width, so the data operand carries each as it is (R76). -/
theorem HoldsElements.map_opdElement {s : State} {w data count : Nat} {vs : List Nat}
    (h : HoldsElements s w data count vs) (hw : w ≤ 8) :
    (vs.map (BitVec.ofNat 64)).map (opdElement · w) = vs := by
  obtain ⟨hlen, hread⟩ := h
  rw [List.map_map]
  refine (List.map_congr_left fun v hv => ?_).trans (List.map_id vs)
  obtain ⟨i, hi, rfl⟩ := List.getElem_of_mem hv
  have hlt : vs[i] < 2 ^ (8 * w) := by
    have := hread i (hlen ▸ hi)
    rw [List.getD_eq_getElem _ _ hi] at this
    exact memRead_lt _ _ _ _ this
  have hbus : 2 ^ (8 * w) ≤ 2 ^ 64 := Nat.pow_le_pow_right (by decide) (by omega)
  show (BitVec.ofNat 64 vs[i]).toNat % 2 ^ (8 * w) = vs[i]
  rw [BitVec.toNat_ofNat, Nat.mod_eq_of_lt (hlt.trans_le hbus), Nat.mod_eq_of_lt hlt]

theorem wcaAfterRun_of_carryWidth {w : BitVec 4} (hw : w = 4 ∨ w = 8) (vs : List Nat) (u : WCA) :
    wcaAfterRun w vs u = wcaDrained (wcaFeed (wcaNew w) vs).1 := by
  rcases hw with rfl | rfl <;> rfl

/-- Width 2 from W2.NEW on: the flush leaves the unit as the run does. -/
theorem handW2_new_reads (vs : List Nat) {s : State} (hs : s.Running) :
    HandReads (do
      let t ← issue .w2New s
      handW2 (vs.length + 1) (vs.map (BitVec.ofNat 16)) t) s
      (windowsOf (byteStream 2 vs)) s.wca (w2AfterRun 2 vs s.w2) := by
  have hnew : issue .w2New s = some (Claims.answered (s.setW2 W2.fresh) 0) :=
    issue_of_next (exec_w2New hs) hs
  have hlen : (vs.map (BitVec.ofNat 16)).length ≤ vs.length := by rw [List.length_map]
  have hwindows := w2Feed_windows vs.length W2.fresh _ hlen
  rw [byteStream_two, w2Carried_of_not_has rfl, List.nil_append] at hwindows
  rw [hnew, Option.bind_eq_bind, Option.bind_some, ← hwindows]
  exact handW2_reads vs.length (s := Claims.answered (s.setW2 W2.fresh) 0) hs hlen

/-- Widths 4 and 8 from WCA.NEW on, where the data operands carry the elements. -/
theorem handWca_new_reads {w : BitVec 4} (hw : w = 4 ∨ w = 8) {vs : List Nat} {s : State}
    (hs : s.Running) (hvs : (vs.map (BitVec.ofNat 64)).map (opdElement · w.toNat) = vs) :
    HandReads (do
      let t ← issue (.wcaNew w) s
      handWca (vs.map (BitVec.ofNat 64)) t) s
      (windowsOf (byteStream w.toNat vs)) (wcaAfterRun w vs s.wca) s.w2 := by
  have hw' : w ∈ [2#4, 4#4, 8#4] := List.mem_cons_of_mem _ (by simpa using hw)
  have hnew : issue (.wcaNew w) s = some (Claims.answered (s.setWca (wcaNew w)) 0) :=
    issue_of_next (exec_wcaNew_of_legal hs hw') hs
  have hready : (wcaNew w).Ready := .of_rem_zero hw' rfl
  have hwindows := wcaFeed_windows (wcaNew w) vs hready.rem_lt
  rw [wcaCarried_of_rem_zero rfl, List.nil_append] at hwindows
  rw [hnew, Option.bind_eq_bind, Option.bind_some, wcaAfterRun_of_carryWidth hw]
  exact hwindows ▸ handWca_reads (s := Claims.answered (s.setWca (wcaNew w)) 0) hs hready hvs

/-- The host's commands for a run hand out the windows of its byte stream and leave the carry units as
the run leaves them. -/
theorem handRun_reads {s : State} {w : BitVec 4} {data count : Nat} {vs : List Nat} (hs : s.Running)
    (hw : w ∈ [1#4, 2#4, 4#4, 8#4]) (hvs : HoldsElements s w.toNat data count vs) :
    HandReads (handRun w vs s) (s.setTa TA.fresh) (windowsOf (byteStream w.toNat vs))
      (wcaAfterRun w vs s.wca) (w2AfterRun w vs s.w2) := by
  have hstart : issue .taNew s = some (Claims.answered (s.setTa TA.fresh) 0) :=
    issue_of_next (exec_taNew hs) hs
  rw [handRun, hstart, Option.bind_eq_bind, Option.bind_some]
  simp only [List.mem_cons, List.not_mem_nil, or_false] at hw
  rcases hw with rfl | rfl | hw
  · exact handEmitAll_reads (windowsOf (byteStream 1 vs))
      (s := Claims.answered (s.setTa TA.fresh) 0) hs
  · exact handW2_new_reads vs (s := Claims.answered (s.setTa TA.fresh) 0) hs
  · have hcarry : ∀ w : BitVec 4, w = 4 ∨ w = 8 → w ≠ 1 ∧ w ≠ 2 ∧ w.toNat ≤ 8 := by decide
    obtain ⟨h1, h2, hle⟩ := hcarry w hw
    rw [if_neg h1, if_neg h2, w2AfterRun, if_neg h2]
    exact handWca_new_reads hw (s := Claims.answered (s.setTa TA.fresh) 0) hs (hvs.map_opdElement hle)

/-- Settles O42: the closed form of the run and that of the host's commands name the same units, and
the text of the windows is the contents of OB. -/
theorem runIsItsCommandSequence : Obligations.RunIsItsCommandSequence := by
  intro s w data count vs hs hfit hvs
  obtain ⟨r, hhand⟩ := handRun_reads hs hfit.width hvs
  rw [← base64Text_eq_windowText] at hhand
  exact ⟨_, _, execB64Run_eq hs hfit hvs, hhand, rfl, rfl, rfl⟩

/-! ### The units after a run (R158) -/

/-- Settles O43: each register is read off the closed form of the run. -/
theorem runLeavesUnitsDrained : Obligations.RunLeavesUnitsDrained := by
  intro s w data count vs hs hfit hvs
  refine ⟨_, execB64Run_eq hs hfit hvs, ?_, ?_, fun hw => ?_, ?_, fun win hlast => ?_⟩
  · rintro rfl
    exact ⟨wcaAfterRun_of_not_writes hfit.width rfl vs s.wca,
      w2AfterRun_of_not_writes (w := 1) rfl vs s.w2⟩
  · rintro rfl
    obtain ⟨-, -, -, -, hflushed⟩ :=
      w2Next_spec (w2Feed vs.length W2.fresh (vs.map (BitVec.ofNat 16))).1 []
    exact ⟨wcaAfterRun_of_not_writes hfit.width rfl vs s.wca, hflushed rfl⟩
  · have hw2 : (w == 2) = false := by rcases hw with rfl | rfl <;> rfl
    have hwca := wcaAfterRun_of_carryWidth hw vs s.wca
    refine ⟨w2AfterRun_of_not_writes hw2 vs s.w2, ?_⟩
    show (wcaAfterRun w vs s.wca).wsel = w ∧ (wcaAfterRun w vs s.wca).rem = 0 ∧
      (wcaAfterRun w vs s.wca).rb = #v[0, 0]
    rw [hwca]
    exact ⟨wcaFeed_wsel (wcaNew w) vs, rfl, rfl⟩
  · rintro rfl
    obtain rfl : vs = [] := List.length_eq_zero_iff.1 hvs.1
    rfl
  · exact lastTa_windowsOf TA.fresh _ win hlast

/-! ### The padding law (R162) -/

/-- A Base64 text is symbols and then the padding of its last group. -/
theorem base64Text_eq_append_pads (S : List Byte) :
    ∃ cs, base64Text S = cs ++ List.replicate ((3 - S.length % 3) % 3) 0x3D ∧
      ∀ ch ∈ cs, ch ≠ 0x3D := by
  match S with
  | [] => exact ⟨[], rfl, by simp⟩
  | [a] =>
    have ha := a.isLt
    refine ⟨[symbol (a.toNat / 4), symbol (a.toNat % 4 * 16)], rfl, ?_⟩
    simp only [List.forall_mem_cons]
    exact ⟨symbol_ne_pad (by omega), symbol_ne_pad (by omega), by simp⟩
  | [a, b] =>
    have ha := a.isLt
    have hb := b.isLt
    refine ⟨[symbol (a.toNat / 4), symbol (a.toNat % 4 * 16 + b.toNat / 16),
      symbol (b.toNat % 16 * 4)], rfl, ?_⟩
    simp only [List.forall_mem_cons]
    exact ⟨symbol_ne_pad (by omega), symbol_ne_pad (by omega), symbol_ne_pad (by omega), by simp⟩
  | a :: b :: c :: S =>
    have ha := a.isLt
    have hb := b.isLt
    have hc := c.isLt
    obtain ⟨cs, htext, hcs⟩ := base64Text_eq_append_pads S
    have hmod : (a :: b :: c :: S).length % 3 = S.length % 3 := Nat.add_mod_right S.length 3
    refine ⟨_ ++ cs, by rw [base64Text, htext, hmod, List.append_assoc], ?_⟩
    simp only [List.forall_mem_append, List.forall_mem_cons]
    exact ⟨⟨symbol_ne_pad (by omega), symbol_ne_pad (by omega), symbol_ne_pad (by omega),
      symbol_ne_pad (by omega), by simp⟩, hcs⟩

/-- The padding law (R162), of a text: `=` begins where the symbols end. -/
theorem base64Text_getElem?_eq_pad_iff (S : List Byte) {j : Nat} (hj : j < (base64Text S).length) :
    (base64Text S)[j]? = some 0x3D ↔
      (S.length % 3 = 1 ∧ (base64Text S).length ≤ j + 2) ∨
      (S.length % 3 = 2 ∧ (base64Text S).length ≤ j + 1) := by
  obtain ⟨cs, htext, hcs⟩ := base64Text_eq_append_pads S
  have hlen : (base64Text S).length = cs.length + (3 - S.length % 3) % 3 := by
    rw [htext, List.length_append, List.length_replicate]
  have hpad : (base64Text S)[j]? = some 0x3D ↔ cs.length ≤ j := by
    rw [htext]
    by_cases hlt : j < cs.length
    · rw [List.getElem?_append_left hlt, List.getElem?_eq_getElem hlt, Option.some_inj]
      exact iff_of_false (hcs _ (List.getElem_mem hlt)) (Nat.not_le.2 hlt)
    · rw [List.getElem?_append_right (Nat.not_lt.1 hlt), List.getElem?_replicate, if_pos (by omega)]
      exact iff_of_true rfl (Nat.not_lt.1 hlt)
  rw [hpad]
  omega

/-- Settles O44: OB is the text of as many bytes as the run reads. -/
theorem paddingLaw : Obligations.PaddingLaw := by
  intro s w data count hs hfit
  obtain ⟨vs, hvs⟩ := hfit.elements
  obtain ⟨t, hrun, hob⟩ := exec_b64Run_ob hs hfit hvs
  have hbytes : (byteStream w.toNat vs).length = count * w.toNat := by rw [byteStream_length, hvs.1]
  refine ⟨t, hrun, ?_, fun j hj => ?_⟩
  · rw [hob, base64Text_length, Nat.mul_mod_left]
  · rw [hob] at hj ⊢
    rw [base64Text_getElem?_eq_pad_iff _ hj, hbytes]

/-! ### The empty run (R163) -/

theorem runFits_zero {s : State} {w : BitVec 4} {data : Nat} (hw : w ∈ [1#4, 2#4, 4#4, 8#4])
    (hdata : data < 2 ^ s.params.addrBits) : RunFits s w data 0 where
  width := hw
  null := fun _ => rfl
  total := by rw [Nat.zero_mul]; exact Nat.two_pow_pos _
  length := by rw [Nat.zero_mul]; exact Nat.two_pow_pos _
  endAddr := by omega
  readable := fun a hle hlt => by omega

theorem holdsElements_zero (s : State) (w data : Nat) : HoldsElements s w data 0 [] :=
  ⟨rfl, fun _ hi => absurd hi (Nat.not_lt_zero _)⟩

/-- Settles O45: a run over no elements passes every check, and its closed form over `[]` has the units
as made fresh. -/
theorem emptyRun : Obligations.EmptyRun := by
  intro s w data hs hw hdata
  have hrun := execB64Run_eq hs (runFits_zero hw hdata) (holdsElements_zero s w.toNat data)
  have hlen : runLength w.toNat 0 = 0 := by rw [runLength, runTotal, Nat.zero_mul]
  rw [hlen, lengthAnswer_of_lt (Nat.two_pow_pos 64)] at hrun
  refine ⟨_, hrun, hs, hlen, rfl, rfl, rfl, ?_, fun hcarry => ?_⟩
  · rintro rfl
    rfl
  · exact wcaAfterRun_of_carryWidth hcarry [] s.wca

end Sys2Proof.Machine
end

section
/-! PROOFS. The faults of the block (60_exceptions.md): what raises each, that a fault changes nothing but
`FAULT`, `CAUSE` and the response, the faulted state, and where a buffer can be split between two runs. -/

namespace Sys2Proof.Machine

/-! ### Raising a fault (R170, R172, R182) -/

/-- On a running block only a raised fault leaves `FAULT` set: no effect sets it. -/
theorem eq_raiseFault_of_exec {i : Instr} {s t : State} (hs : s.Running) (h : exec i s = .next t)
    (hf : t.fault = true) : ∃ c, t = raiseFault s c := by
  rcases exec_cases i s t h with ⟨hfault, -⟩ | ⟨-, c, -, hraised⟩ | ⟨-, u, r, heffect, rfl⟩
  · exact absurd hfault (by simp [hs])
  · exact ⟨c, hraised⟩
  · obtain ⟨-, -, -, hkept, -⟩ := effectOf_frame i s u r heffect
    exact absurd (hkept.symm.trans hf) (by simp [hs])

theorem eq_raiseFault_of_runCommand {c : Command} {s t : State} (hs : s.Running)
    (h : runCommand c s = .next t) (hf : t.fault = true) : ∃ e, t = raiseFault s e := by
  cases hd : decode s.params c with
  | ok i => exact eq_raiseFault_of_exec hs (runCommand_of_decode hd ▸ h) hf
  | error e =>
    rw [runCommand_of_decode_error hd, perform_error s _ hs] at h
    cases h
    exact ⟨.illegal, rfl⟩

/-- Settles O14: a fault is raised on the state from before the command, and no cause has code 0. -/
theorem faultsArePrecise : Obligations.FaultsArePrecise := by
  intro i s t hs h hf
  obtain ⟨c, rfl⟩ := eq_raiseFault_of_exec hs h hf
  exact ⟨c.code, c.code_ne_zero, rfl⟩

/-! ### The faulted block (R172, R183) -/

theorem runCommand_faulted {s : State} (c : Command) (h : s.fault = true) :
    runCommand c s = .next (answerFaulted s) := by
  rw [runCommand, if_pos h]

theorem hostWrite_keeps_fault {s t : State} {a : Nat} {v : Option Byte}
    (h : hostWrite s a v = .next t) : t.fault = s.fault ∧ t.cause = s.cause := by
  by_cases ha : a < 2 ^ s.params.addrBits
  · rw [hostWrite_of_lt s ha] at h
    cases h
    exact ⟨rfl, rfl⟩
  · rw [hostWrite_of_le s (Nat.not_lt.1 ha)] at h
    cases h

/-- Nothing the host does but a reset clears a fault or replaces its cause. -/
theorem runEvent_keeps_fault {e : HostEvent} {s t : State} (hf : s.fault = true) (he : e ≠ .reset)
    (h : runEvent e s = .next t) : t.fault = true ∧ t.cause = s.cause := by
  cases e with
  | command c =>
    cases (runCommand_faulted c hf).symm.trans h
    exact ⟨hf, rfl⟩
  | reset => exact absurd rfl he
  | write a v =>
    obtain ⟨hfault, hcause⟩ := hostWrite_keeps_fault h
    exact ⟨hfault.trans hf, hcause⟩

theorem step_keeps_fault {s t : State} (hf : s.fault = true)
    (hreset : ∀ rest, s.pending ≠ .reset :: rest) (h : step s = .next t) :
    t.fault = true ∧ t.cause = s.cause := by
  cases hp : s.pending with
  | nil =>
    rw [step, hp] at h
    cases h
    exact ⟨hf, rfl⟩
  | cons e rest =>
    rw [step_of_pending hp] at h
    exact runEvent_keeps_fault (s := s.setPending rest) hf (fun he => hreset rest (he ▸ hp)) h

/-- Settles O13: a command that leaves `FAULT` set on a running block has raised it; on a faulted block
nothing is decoded and every instruction's frame answers the first cause. -/
theorem faultedBlockOnlyAnswers : Obligations.FaultedBlockOnlyAnswers := by
  refine ⟨fun s t c rest hs hp h hf => ?_, fun s t hf hreset h => step_keeps_fault hf hreset h,
    fun i s hf => exec_faulted i s hf, fun s c rest hf hp => ?_⟩
  · rw [step_command hp] at h
    obtain ⟨e, rfl⟩ := eq_raiseFault_of_runCommand (s := s.setPending rest) hs h hf
    exact ⟨e.code, e.code_ne_zero, rfl⟩
  · rw [step_command hp]
    exact runCommand_faulted (s := s.setPending rest) c hf

/-! ### The checks of B64.RUN that fail (R174 to R177, R180) -/

section
variable {s : State} {w : BitVec 4} {data count : Nat}

theorem runChecks_of_illegalWidth (hw : w ∉ [1#4, 2#4, 4#4, 8#4]) :
    runChecks s w data count = .error .width := by
  rw [runChecks, if_pos (Bool.eq_false_iff.2 (mt (legalWidth_iff w).1 hw))]

theorem not_legalWidth_eq_false (hw : w ∈ [1#4, 2#4, 4#4, 8#4]) : ¬ legalWidth w = false := by
  rw [(legalWidth_iff w).2 hw]
  exact Bool.noConfusion

theorem runChecks_of_null (hw : w ∈ [1#4, 2#4, 4#4, 8#4]) (hnull : data = 0 ∧ count ≠ 0) :
    runChecks s w data count = .error .null := by
  rw [runChecks, if_neg (not_legalWidth_eq_false hw), if_pos hnull]

theorem runChecks_of_tooBig (hw : w ∈ [1#4, 2#4, 4#4, 8#4]) (hnull : ¬ (data = 0 ∧ count ≠ 0))
    (hbig : sizeTooBig s.params w.toNat data count = true) :
    runChecks s w data count = .error .size := by
  rw [runChecks, if_neg (not_legalWidth_eq_false hw), if_neg hnull, if_pos hbig]

theorem runChecks_of_unreadable (hw : w ∈ [1#4, 2#4, 4#4, 8#4]) (hnull : ¬ (data = 0 ∧ count ≠ 0))
    (hbig : ¬ sizeTooBig s.params w.toNat data count = true)
    (hread : rangeReadable s.mem data (count * w.toNat) = false) :
    runChecks s w data count = .error .access := by
  rw [runChecks, if_neg (not_legalWidth_eq_false hw), if_neg hnull, if_neg hbig, runTotal, if_pos hread]

theorem exec_b64Run_of_check {c : Cause} (hs : s.Running)
    (hc : runChecks s w data count = .error c) :
    exec (.b64Run w data count) s = .next (Claims.faultedState s c.code) := by
  apply exec_of_cause hs
  rw [effectOf, runEffect, hc]
  rfl

theorem exec_b64Run_of_fits (hs : s.Running) (hfit : RunFits s w data count) :
    ∃ t, exec (.b64Run w data count) s = .next t ∧ t.fault = false := by
  obtain ⟨vs, hvs⟩ := hfit.elements
  exact ⟨_, execB64Run_eq hs hfit hvs, hs⟩

end

theorem rangeReadable_eq_false {m : Memory} {a n x : Nat} (hle : a ≤ x) (hlt : x < a + n)
    (hx : readByte m x = none) : rangeReadable m a n = false := by
  refine Bool.eq_false_iff.2 fun h => ?_
  have hreadable := (rangeReadable_iff m a n).1 h x hle hlt
  rw [readable, hx] at hreadable
  cases hreadable

/-- Settles O18: each clause fails one check and passes those before it, and the last passes all. -/
theorem runFaultsInOrder : Obligations.RunFaultsInOrder := by
  intro s w data count hs hw
  refine ⟨fun hnull => exec_b64Run_of_check hs (runChecks_of_null hw hnull),
    fun hnull => ⟨fun hbig => exec_b64Run_of_check hs
      (runChecks_of_tooBig hw hnull ((sizeTooBig_iff _ _ _ _).2 hbig)),
    fun htotal hlength hend => ⟨?_, fun hread => ?_⟩⟩⟩
  · rintro ⟨a, hle, hlt, ha⟩
    have hbig : ¬ sizeTooBig s.params w.toNat data count = true := by
      rw [sizeTooBig_iff]
      omega
    exact exec_b64Run_of_check hs
      (runChecks_of_unreadable hw hnull hbig (rangeReadable_eq_false hle hlt ha))
  · exact exec_b64Run_of_fits hs
      { width := hw
        null := fun hdata => not_not.1 fun hcount => hnull ⟨hdata, hcount⟩
        total := htotal
        length := hlength
        endAddr := hend
        readable := fun a hle hlt => Option.isSome_iff_ne_none.2 (hread a hle hlt) }

/-! ### The other commands' operand faults (R174, R178, R179) -/

/-- Settles O15: each command tests its width before anything else. -/
theorem illegalWidthFaults : Obligations.IllegalWidthFaults := by
  intro s w opd data count hs
  exact ⟨fun hw => ⟨exec_bonNorm_of_illegal hs opd hw, exec_bonDenorm_of_illegal hs opd hw,
    exec_b64Run_of_check hs (runChecks_of_illegalWidth hw)⟩, fun hw => exec_wcaNew_of_illegal hs hw⟩

/-- Settles O16: the unit refuses `c = 3` before it looks at its registers. -/
theorem countThreeFaults : Obligations.CountThreeFaults :=
  fun _ opd hs => exec_w2Load_of_error hs (w2Load_three_elements (opdE0 opd) (opdE1 opd))

/-- Settles O17: both operations of the unit test `WSEL` first. -/
theorem noInstanceFaults : Obligations.NoInstanceFaults :=
  fun _ opd hs hw => ⟨exec_wcaLoad_of_noInstance hs hw opd, exec_wcaFlush_of_noInstance hs hw⟩

/-! ### Splitting a buffer between two runs (R185) -/

/-- After whole triplets the text of the rest begins afresh. -/
theorem base64Text_append_of_triplets {A : List Byte} (B : List Byte) (hA : A.length % 3 = 0) :
    base64Text (A ++ B) = base64Text A ++ base64Text B := by
  have hleft : leftover A = [] := List.length_eq_zero_iff.1 ((leftover_length A).trans hA)
  have hwin : ∀ r, windowsOf (A ++ r) = fullWindows A ++ windowsOf r := fun r => by
    rw [windowsOf_append, hleft, List.nil_append]
  have hfull : windowsOf A = fullWindows A := by simpa using hwin []
  rw [base64Text_eq_windowText, hwin, ← hfull, List.flatMap_append, ← base64Text_eq_windowText,
    ← base64Text_eq_windowText]

/-- The first text ends with `=` unless its bytes are whole triplets, and `=` stands in the last group of
a text only. -/
theorem base64Text_append_eq_iff (A B : List Byte) :
    base64Text (A ++ B) = base64Text A ++ base64Text B ↔ A.length % 3 = 0 ∨ B = [] := by
  constructor
  · intro htext
    by_contra hne
    obtain ⟨hmod, hB⟩ := not_or.1 hne
    have hlenA := base64Text_length A
    have hlenB := base64Text_length B
    have hposB := List.length_pos_iff.2 hB
    have hlen := congrArg List.length htext
    rw [List.length_append] at hlen
    have hpad := (base64Text_getElem?_eq_pad_iff A (j := (base64Text A).length - 1) (by omega)).2
      (by omega)
    rw [← List.getElem?_append_left (l₂ := base64Text B) (by omega), ← htext,
      base64Text_getElem?_eq_pad_iff _ (by omega)] at hpad
    omega
  · rintro (hmod | rfl)
    · exact base64Text_append_of_triplets B hmod
    · rw [List.append_nil, base64Text, List.append_nil]

theorem byteStream_append (w : Nat) (vs us : List Nat) :
    byteStream w (vs ++ us) = byteStream w vs ++ byteStream w us :=
  List.flatMap_append

theorem HoldsElements.append {s : State} {w data n₁ n₂ : Nat} {vs us : List Nat}
    (hvs : HoldsElements s w data n₁ vs) (hus : HoldsElements s w (data + n₁ * w) n₂ us) :
    HoldsElements s w data (n₁ + n₂) (vs ++ us) := by
  obtain ⟨rfl, hvs⟩ := hvs
  obtain ⟨rfl, hus⟩ := hus
  refine ⟨List.length_append, fun i hi => ?_⟩
  rcases Nat.lt_or_ge i vs.length with hlt | hge
  · rw [hvs i hlt, List.getD_append _ _ _ _ hlt]
  · have hread := hus (i - vs.length) (by omega)
    rw [Nat.add_assoc, ← Nat.add_mul, Nat.add_sub_cancel' hge] at hread
    rw [hread, List.getD_append_right _ _ _ _ hge]

section
variable {s : State} {w : BitVec 4} {data n₁ n₂ : Nat} (h : RunFits s w data (n₁ + n₂))
include h

theorem RunFits.first : RunFits s w data n₁ := by
  obtain ⟨hwidth, hnull, htotal, hlength, hend, hread⟩ := h
  rw [Nat.add_mul] at htotal hlength hend hread
  exact ⟨hwidth, fun h0 => Nat.eq_zero_of_add_eq_zero_right (hnull h0), by omega, by omega, by omega,
    fun a hle hlt => hread a hle (by omega)⟩

theorem RunFits.second : RunFits s w (data + n₁ * w.toNat) n₂ := by
  obtain ⟨hwidth, hnull, htotal, hlength, hend, hread⟩ := h
  rw [Nat.add_mul] at htotal hlength hend hread
  exact ⟨hwidth, fun h0 => Nat.eq_zero_of_add_eq_zero_left (hnull (Nat.eq_zero_of_add_eq_zero_right h0)),
    by omega, by omega, by omega, fun a hle hlt => hread a (by omega) (by omega)⟩

end

theorem legalWidth_toNat_ne_zero : ∀ w ∈ [1#4, 2#4, 4#4, 8#4], w.toNat ≠ 0 := by decide

theorem byteStream_eq_nil_iff {w : Nat} (hw : w ≠ 0) (vs : List Nat) :
    byteStream w vs = [] ↔ vs.length = 0 := by
  rw [← List.length_eq_zero_iff, byteStream_length, Nat.mul_eq_zero, or_iff_left hw]

/-- Settles O48: each OB is the text of its byte stream, and the stream of the whole is the two parts'
joined. -/
theorem splitOnlyAtTriplets : Obligations.SplitOnlyAtTriplets := by
  intro s w data n₁ n₂ hs hfit
  obtain ⟨vs, hvs⟩ := hfit.first.elements
  obtain ⟨us, hus⟩ := hfit.second.elements
  obtain ⟨t, hrun, hob⟩ := exec_b64Run_ob hs hfit (hvs.append hus)
  obtain ⟨t₁, hrun₁, hob₁⟩ := exec_b64Run_ob hs hfit.first hvs
  obtain ⟨t₂, hrun₂, hob₂⟩ := exec_b64Run_ob hs hfit.second hus
  refine ⟨t, t₁, t₂, hrun, hrun₁, hrun₂, ?_⟩
  rw [hob, hob₁, hob₂, byteStream_append, base64Text_append_eq_iff, byteStream_length, hvs.1,
    byteStream_eq_nil_iff (legalWidth_toNat_ne_zero w hfit.width), hus.1]

end Sys2Proof.Machine
end

section
/-! PROOFS. The block after reset (70_reset_and_hazards.md R191). -/

namespace Sys2Proof.Machine

/-! ### What a fresh TA answers (R102, R107, R108) -/

theorem byteValid_fresh (i : BitVec 2) : byteValid TA.fresh i = false :=
  decide_eq_false (Nat.not_lt_zero i.toNat)

/-- Every group depends on a byte, and a fresh TA has none (R109). -/
theorem taEncp_fresh (g : BitVec 2) : taEncp TA.fresh g = padCode :=
  taEncp_of_not_groupValid (Bool.eq_false_iff.1 (byteValid_fresh (dep g)))

/-- Every field of the zero triplet is 0, and `A` is symbol 0 (R105). -/
theorem taEnc_fresh (g : BitVec 2) : taEnc TA.fresh g = 0x41 := by
  rw [taEnc_eq_symbol, show TA.fresh.data.toNat = 0 from rfl, Nat.zero_div]
  rfl

/-! ### What follows a WCA.NEW (R122, R124) -/

/-- A new instance has its width set, so neither operation on it finds `NOINST`. -/
theorem wcaNew_then_running {s : State} {w : BitVec 4} (hs : s.Running) (hw : w ∈ [2#4, 4#4, 8#4]) :
    ∃ t, exec (.wcaNew w) s = .next t ∧
      (∀ opd, ∃ u, exec (.wcaLoad opd) t = .next u ∧ u.fault = false) ∧
      ∃ u, exec .wcaFlush t = .next u ∧ u.fault = false := by
  have hrun : (Claims.answered (s.setWca (wcaNew w)) 0).Running := hs
  have hwsel : (Claims.answered (s.setWca (wcaNew w)) 0).wca.wsel ≠ 0 := (carryWidth_bounds w hw).1
  exact ⟨_, exec_wcaNew_of_legal hs hw, fun opd => ⟨_, exec_wcaLoad hrun hwsel opd, hrun⟩,
    _, exec_wcaFlush hrun hwsel, hrun⟩

/-- Settles O2: each command's answer at a running block, at the fresh TA and the absent WCA instance. -/
theorem afterReset : Obligations.AfterReset := by
  intro p
  have hrun : (State.resetOf p).Running := State.resetOf_fault p
  have hwsel : (State.resetOf p).wca.wsel = 0 := rfl
  refine ⟨hrun, fun g => ⟨_, exec_taEncp hrun g, ?_⟩, fun g => ⟨_, exec_taEnc hrun g, ?_⟩,
    fun i => ⟨_, exec_taValid hrun i, ?_⟩, rfl, exec_wcaLoad_of_noInstance hrun hwsel,
    exec_wcaFlush_of_noInstance hrun hwsel, fun w hw => wcaNew_then_running hrun hw,
    fun m w data count hfit => exec_b64Run_of_fits hrun hfit⟩
  · exact congrArg (BitVec.setWidth 64) (taEncp_fresh g)
  · exact congrArg (BitVec.setWidth 64) (taEnc_fresh g)
  · change (if byteValid TA.fresh i then (1 : DataWord) else 0) = 0
    rw [byteValid_fresh]
    rfl

end Sys2Proof.Machine
end
